-- ==== Sys2Proof/Word.lean ====
section
/-! DEFINITION. The word types of the FSU and the value types its internal memories hold (00_scope R10, R11, R13). -/

namespace Sys2Proof

/-- A 32-bit register or command word (10_state R22). -/
abbrev Word := BitVec 32

/-- A 16-bit host-memory element (20_memory R64). -/
abbrev Half := BitVec 16

/-- One byte of host memory (20_memory R60). -/
abbrev Byte := BitVec 8

/-- A binary32 VALUE (00_scope R11). `fin neg mag` is a finite value: its sign bit and bits 30:0 of its pattern
(biased exponent and fraction), which for a finite value lie below 0x7F800000. All NaNs are ONE value: R11 leaves
the sign and payload of a NaN open and says that no host-visible result depends on them (log 8; safe). -/
inductive F32 where
  | nan
  | inf (neg : Bool)
  | fin (neg : Bool) (mag : Fin 0x7F800000)
  deriving DecidableEq, Repr, Inhabited

/-- A complex value: a pair of binary32 values (00_scope R13). -/
structure Cplx where
  re : F32
  im : F32
  deriving DecidableEq, Repr, Inhabited

/-- The finite value or infinity of sign `neg` whose pattern has bits 30:0 equal to `mag`; a magnitude of
0x7F800000 or more is an infinity (rounding overflows to it). -/
def F32.ofMag (neg : Bool) (mag : Nat) : F32 :=
  if h : mag < 0x7F800000 then .fin neg ⟨mag, h⟩ else .inf neg

/-- The value of a binary32 bit pattern (00_scope R11; 30_encoding R89 for `CUR_SCALE`). -/
def F32.ofBits (w : Word) : F32 :=
  if w.toNat % 2 ^ 31 ≤ 0x7F800000 then .ofMag (w.toNat / 2 ^ 31 == 1) (w.toNat % 2 ^ 31) else .nan

/-- The complex value of two bit patterns. -/
def Cplx.ofBits (re im : Word) : Cplx := ⟨.ofBits re, .ofBits im⟩

end Sys2Proof
end

