-- ==== Sys2Proof/Syntax.lean ====
section
/-! DEFINITION. The commands (30_encoding R83) and the fields of a command word (R80): the whole syntax. -/

namespace Sys2Proof

/-- The twelve commands, one constructor per row of spec/opcode_table.json (30_encoding R83). A command word holds
no operand (R81), so no constructor has an argument. -/
inductive Instr where
  | nop
  | init
  | loadL
  | loadR
  | loadM
  | loadX
  | transform
  | extract
  | linear
  | log
  | bands
  | clrerr
  deriving DecidableEq, Repr

/-- The three fields of a command word (30_encoding R80): OP = w[3:0], CH = w[5:4], RSV = w[31:6]. -/
structure CmdFields where
  op  : BitVec 4
  ch  : BitVec 2
  rsv : BitVec 26
  deriving DecidableEq, Repr

/-- The two kinds of reserved command word (30_encoding R84; R85 and R86). -/
inductive ReservedKind where
  | badop
  | rsvd
  deriving DecidableEq, Repr

/-- What the decoder answers (30_encoding R88): a command, or a reserved word rejected by name. -/
inductive Decoded where
  | cmd (i : Instr)
  | reserved (k : ReservedKind)
  deriving DecidableEq, Repr

/-- The three known channel selectors (30_encoding R82). The unknown one is the command LOAD.X. -/
inductive Channel where
  | left
  | right
  | mixed
  deriving DecidableEq, Repr

end Sys2Proof
end

