-- ==== Sys2Proof/WellFormed.lean ====
section
/-! DEFINITION. When the fields of a command word are those of a valid word (30_encoding R83 to R86). A term of Instr
holds no operand, so every one is well-formed; the checks are on the raw fields. -/

namespace Sys2Proof

/-- The opcode is not a reserved one (30_encoding R84). -/
def CmdFields.opValid (f : CmdFields) : Bool := decide (f.op.toNat ≤ 8)

/-- The reserved bits are 0 (30_encoding R85). -/
def CmdFields.rsvZero (f : CmdFields) : Bool := f.rsv == 0

/-- The channel field is 0 outside LOAD (30_encoding R86). -/
def CmdFields.chValid (f : CmdFields) : Bool := f.op == 2 || f.ch == 0

/-- The fields of one of the twelve valid words (30_encoding R83, R88 (c)). -/
def CmdFields.wellFormed (f : CmdFields) : Bool := f.opValid && f.rsvZero && f.chValid

end Sys2Proof
end

