-- ==== Sys2Proof/Decode.lean ====
section
/-! DEFINITION. The decoder of command words, total on every 32-bit word (30_encoding R88), and the encoder (R83). -/

namespace Sys2Proof

/-- The fields of a command word (30_encoding R80, R81). -/
def fieldsOf (w : Word) : CmdFields :=
  { op := w.extractLsb' 0 4, ch := w.extractLsb' 4 2, rsv := w.extractLsb' 6 26 }

/-- The word of three fields: the inverse of `fieldsOf` (30_encoding R80). -/
def wordOf (f : CmdFields) : Word := f.rsv ++ (f.ch ++ f.op)

/-- `Cmd(op, ch)` of 30_encoding R88, by the opcode map of R83. It is reached only with OP at most 8 and, outside
LOAD, CH = 0; the last case stands for the opcodes R84 reserves. -/
def commandOf (op : BitVec 4) (ch : BitVec 2) : Decoded :=
  match op.toNat with
  | 0 => .cmd .nop
  | 1 => .cmd .init
  | 2 =>
    match ch.toNat with
    | 0 => .cmd .loadL
    | 1 => .cmd .loadR
    | 2 => .cmd .loadM
    | _ => .cmd .loadX
  | 3 => .cmd .transform
  | 4 => .cmd .extract
  | 5 => .cmd .linear
  | 6 => .cmd .log
  | 7 => .cmd .bands
  | 8 => .cmd .clrerr
  | _ => .reserved .badop

/-- The decoder, in the order that decides it (30_encoding R88). -/
def decode (w : Word) : Decoded :=
  if !(fieldsOf w).opValid then .reserved .badop
  else if !(fieldsOf w).rsvZero then .reserved .rsvd
  else if !(fieldsOf w).chValid then .reserved .rsvd
  else commandOf (fieldsOf w).op (fieldsOf w).ch

/-- OP of a command (30_encoding R83). -/
def opcodeOf : Instr → BitVec 4
  | .nop => 0x0
  | .init => 0x1
  | .loadL => 0x2
  | .loadR => 0x2
  | .loadM => 0x2
  | .loadX => 0x2
  | .transform => 0x3
  | .extract => 0x4
  | .linear => 0x5
  | .log => 0x6
  | .bands => 0x7
  | .clrerr => 0x8

/-- CH of a command (30_encoding R82, R83). -/
def channelOf : Instr → BitVec 2
  | .nop => 0
  | .init => 0
  | .loadL => 0
  | .loadR => 1
  | .loadM => 2
  | .loadX => 3
  | .transform => 0
  | .extract => 0
  | .linear => 0
  | .log => 0
  | .bands => 0
  | .clrerr => 0

/-- The word of a command (30_encoding R83: RSV = 0). -/
def encode (i : Instr) : Word := wordOf { op := opcodeOf i, ch := channelOf i, rsv := 0 }

/-- The command the decoder reads from a word numbered as spec/opcode_table.json numbers it; none where the word is
reserved. A command is one 32-bit word (30_encoding R80), so `nbits` never matters. -/
def decodeTableWord (_nbits w : Nat) : Option Instr :=
  match decode (BitVec.ofNat 32 w) with
  | .cmd i => some i
  | .reserved _ => none

end Sys2Proof
end

