-- ==== Sys2Proof/Config.lean ====
section
/-! DEFINITION. The configuration record of a FSU (00_scope R7, R8), as plain data carried in State and changed by no
step (log 1), and the free values of the model (log 7, 11). -/

namespace Sys2Proof

/-- A run of host byte addresses the FSU may access (00_scope R7, `HOSTMEM_OK`): `size` bytes from `base`. -/
structure Region where
  base : Nat
  size : Nat
  deriving DecidableEq, Repr

/-- The run-time logarithm (00_scope R14), an OPEN parameter. `reference` is the reference configuration, RNE32 of the
real logarithm. `steps` is ANY other lawful one, as data: a list of (threshold pattern, result key); Machine/Log10.lean
turns every list into a function with P1 to P6, and reaches every such function (log 12). -/
inductive Log10Unit where
  | reference
  | steps (l : List (Nat × Int))
  deriving DecidableEq, Repr

/-- The build-time constants of 00_scope R7. `twdenIsN` says TWIDDLE_DEN = N (else N - 1, the normative value);
`hostmem` lists the regions of HOSTMEM_OK; the legal values are checked by `configWf` (R9). -/
structure Config where
  log2n     : Nat
  fftOutN   : Nat
  bandN     : Nat
  bandFade  : Half
  bandDelay : Half
  twdenIsN  : Bool
  regBase   : Word
  hostmem   : List Region
  log10     : Log10Unit
  deriving DecidableEq, Repr

/-- The transform length `N = 2^LOG2N` (00_scope R7). -/
def Config.n (c : Config) : Nat := 2 ^ c.log2n

/-- `H = N / 2` (00_scope R8). -/
def Config.h (c : Config) : Nat := c.n / 2

/-- `M = N / FFT_OUT_N` (00_scope R8). -/
def Config.m (c : Config) : Nat := c.n / c.fftOutN

/-- TWIDDLE_DEN (00_scope R7, 41_tables R126). -/
def Config.twiddleDen (c : Config) : Nat := if c.twdenIsN then c.n else c.n - 1

/-- The common configuration of 95_test_vectors section 3, which State.reset carries (log 2, DESIGN CHOICE). -/
def Config.common : Config :=
  { log2n := 2, fftOutN := 2, bandN := 2, bandFade := 4, bandDelay := 2, twdenIsN := false,
    regBase := 0x40000000#32, hostmem := [⟨0x00010000, 0x10000⟩], log10 := .reference }

/-- FREE VALUE: what a TD entry nothing has written holds (10_state R35; log 7). -/
opaque Config.unwrittenTd : Nat → Cplx

/-- FREE VALUE: what a SPEC entry nothing has written holds (10_state R36; log 7). -/
opaque Config.unwrittenSpec : Nat → F32

/-- FREE VALUE: whether, at the `draw`-th reset that abandons a command, element `k` of its range holds the value the
command would have written (70_reset_and_hazards R281; log 11). -/
opaque Config.abandonDraw (draw k : Nat) : Bool

end Sys2Proof
end

