-- ==== Sys2Proof/Machine/Float.lean ====
section
/-! DEFINITION. Binary32 arithmetic (00_scope R11, R12, R16): each operation is computed exactly on integers and
narrowed once, to nearest with ties to even. Every finite value is an integer number of units of 2^-149. -/

namespace Sys2Proof.Machine

/-- The integer nearest to `n / u`, ties to even. -/
def roundEven (n u : Nat) : Nat :=
  if u < 2 * (n % u) || (2 * (n % u) == u && n / u % 2 == 1) then n / u + 1 else n / u

/-- How many bits above 24 the integer `q` has: the exponent step of the binade a value of `q` units lies in. -/
def binadeShift (q : Nat) : Nat := q.log2 - 23

/-- RNE32 (00_scope R11, R12) of the value of sign `neg` and magnitude `n / d` units: the nearest binary32, ties to
even; too large a magnitude gives an infinity, and 0 gives the zero of that sign. -/
def roundUnits (neg : Bool) (n d : Nat) : F32 :=
  .ofMag neg (binadeShift (n / d) * 2 ^ 23 + roundEven n (d * 2 ^ binadeShift (n / d)))

/-- The units of a finite magnitude pattern: the significand shifted to its binade (IEEE 754 binary32). -/
def unitsOf (mag : Nat) : Nat :=
  if mag < 2 ^ 23 then mag else (2 ^ 23 + mag % 2 ^ 23) * 2 ^ (mag / 2 ^ 23 - 1)

/-- A signed number of units. -/
def signedUnits (neg : Bool) (u : Nat) : Int := if neg then -(u : Int) else (u : Int)

/-- `fneg` flips the sign bit only (00_scope R11). -/
def fneg : F32 → F32
  | .nan => .nan
  | .inf a => .inf (!a)
  | .fin a x => .fin (!a) x

/-- The sum of two finite values. An exact zero sum is +0 unless both operands are negative (IEEE 754, to nearest). -/
def faddFinite (a : Bool) (x : Nat) (b : Bool) (y : Nat) : F32 :=
  let z := signedUnits a (unitsOf x) + signedUnits b (unitsOf y)
  if z = 0 then .ofMag (a && b) 0 else roundUnits (decide (z < 0)) z.natAbs 1

/-- `fadd` (00_scope R11). -/
def fadd : F32 → F32 → F32
  | .nan, _ => .nan
  | .inf _, .nan => .nan
  | .fin _ _, .nan => .nan
  | .inf a, .inf b => if a = b then .inf a else .nan
  | .inf a, .fin _ _ => .inf a
  | .fin _ _, .inf b => .inf b
  | .fin a x, .fin b y => faddFinite a x b y

/-- `fsub` (00_scope R11): IEEE subtraction is addition of the negated operand. -/
def fsub (a b : F32) : F32 := fadd a (fneg b)

/-- `fmul` (00_scope R11). An infinity times a zero is a NaN. -/
def fmul : F32 → F32 → F32
  | .nan, _ => .nan
  | .inf _, .nan => .nan
  | .fin _ _, .nan => .nan
  | .inf a, .inf b => .inf (a != b)
  | .inf a, .fin b y => if y.val = 0 then .nan else .inf (a != b)
  | .fin a x, .inf b => if x.val = 0 then .nan else .inf (a != b)
  | .fin a x, .fin b y => roundUnits (a != b) (unitsOf x * unitsOf y) (2 ^ 149)

/-- `fdiv` (00_scope R11). 0/0 and infinity/infinity are NaNs; a nonzero value over a zero is an infinity. -/
def fdiv : F32 → F32 → F32
  | .nan, _ => .nan
  | .inf _, .nan => .nan
  | .fin _ _, .nan => .nan
  | .inf _, .inf _ => .nan
  | .inf a, .fin b _ => .inf (a != b)
  | .fin a _, .inf b => .ofMag (a != b) 0
  | .fin a x, .fin b y =>
    if y.val = 0 then (if x.val = 0 then .nan else .inf (a != b))
    else roundUnits (a != b) (unitsOf x * 2 ^ 149) (unitsOf y)

/-- The `k` low bits of the integer square root of `x`, over the root `r` found so far. -/
def isqrtFrom (x : Nat) : Nat → Nat → Nat
  | 0, r => r
  | k + 1, r => isqrtFrom x k (if (r + 2 ^ k) * (r + 2 ^ k) ≤ x then r + 2 ^ k else r)

/-- The integer square root: the largest `r` with `r * r ≤ x`. -/
def isqrt (x : Nat) : Nat := isqrtFrom x (x.log2 / 2 + 1) 0

/-- The rounded square root of `u` units. Where the root is not an integer, the half above its floor stands for it: no
rounding boundary lies strictly between two consecutive integers of more than 26 bits. -/
def sqrtUnits (u : Nat) : F32 :=
  let r := isqrt (u * 2 ^ 149)
  if r * r = u * 2 ^ 149 then roundUnits false r 1 else roundUnits false (2 * r + 1) 2

/-- `fsqrt` (00_scope R11). A zero keeps its sign; a negative value gives a NaN. -/
def fsqrt : F32 → F32
  | .nan => .nan
  | .inf a => if a then .nan else .inf false
  | .fin a x => if x.val = 0 then .fin a x else if a then .nan else sqrtUnits (unitsOf x)

/-- `i2f` (00_scope R11): the binary32 value of an integer, exact for |k| at most 2^24. -/
def i2f (k : Int) : F32 := roundUnits (decide (k < 0)) (k.natAbs * 2 ^ 149) 1

/-- The place of a value in the IEEE order: signed magnitudes, so that both zeros are 0; none for a NaN. -/
def orderKey : F32 → Option Int
  | .nan => none
  | .inf a => some (signedUnits a 0x7F800000)
  | .fin a x => some (signedUnits a x.val)

/-- The value at a place of the order (0 gives +0). -/
def ofKey (k : Int) : F32 := .ofMag (decide (k < 0)) k.natAbs

/-- `a > b`, false when either is a NaN (00_scope R11). -/
def fgt (a b : F32) : Bool :=
  match orderKey a, orderKey b with
  | some x, some y => decide (y < x)
  | _, _ => false

/-- `a ≥ b`, false when either is a NaN (00_scope R11). -/
def fge (a b : F32) : Bool :=
  match orderKey a, orderKey b with
  | some x, some y => decide (y ≤ x)
  | _, _ => false

/-- `trunc` of a non-negative finite value, as a natural number; 0 for any other value, which no rule asks for. -/
def truncNat : F32 → Nat
  | .fin false x => unitsOf x / 2 ^ 149
  | .fin true _ => 0
  | .inf _ => 0
  | .nan => 0

/-- `ceil` of a non-negative finite value (46_bands R220); 0 for any other value, which no rule asks for. -/
def ceilNat : F32 → Nat
  | .fin false x => (unitsOf x + (2 ^ 149 - 1)) / 2 ^ 149
  | .fin true _ => 0
  | .inf _ => 0
  | .nan => 0

/-- `CLAMPCVT(x, lo, hi)` (00_scope R16), the single conversion from a binary32 value to an output word. -/
def clampCvt (x : F32) (lo hi : Half) : Half :=
  if !fge x (i2f lo.toNat) then lo
  else if fgt x (i2f hi.toNat) then hi
  else BitVec.ofNat 16 (truncNat x)

/-- The constants of the formulas: 0.5, 1.0, 12.0, 20.0, 40.0 and +0.0. -/
def fHalf : F32 := .ofBits 0x3F000000#32
def fOne : F32 := .ofBits 0x3F800000#32
def fTwelve : F32 := .ofBits 0x41400000#32
def fTwenty : F32 := .ofBits 0x41A00000#32
def fForty : F32 := .ofBits 0x42200000#32
def fZero : F32 := .ofBits 0x00000000#32

/-- Complex adder (43_fft R160). -/
def cadd (x y : Cplx) : Cplx := ⟨fadd x.re y.re, fadd x.im y.im⟩

/-- Complex subtractor (43_fft R161). -/
def csub (x y : Cplx) : Cplx := ⟨fsub x.re y.re, fsub x.im y.im⟩

/-- Complex multiplier (43_fft R162): four rounded products, one rounded difference, one rounded sum. -/
def cmul (w x : Cplx) : Cplx :=
  ⟨fsub (fmul w.re x.re) (fmul w.im x.im), fadd (fmul w.re x.im) (fmul w.im x.re)⟩

/-- Conjugate (43_fft R163). -/
def conj (x : Cplx) : Cplx := ⟨x.re, fneg x.im⟩

/-- Complex magnitude (44_extract R180). -/
def cmag (x : Cplx) : F32 := fsqrt (fadd (fmul x.re x.re) (fmul x.im x.im))

end Sys2Proof.Machine
end

