-- ==== Sys2Proof/Machine/Rom.lean ====
section
/-! DEFINITION. The read-only tables (41_tables R120 to R127; 10_state R38) as functions of the configuration, and the
legality of a configuration (00_scope R7, R9). A ROM entry is RNE32 of an exact real formula (00_scope R12). -/

namespace Sys2Proof.Machine

/-- `BITREV(x)`: the reversal of the low `bits` bits of `x` (41_tables R120). -/
def bitrev : (bits x : Nat) → Nat
  | 0, _ => 0
  | k + 1, x => x % 2 * 2 ^ k + bitrev k (x / 2)

/-- 2π in units of 2^-160, truncated. -/
def twoPiFixed : Nat := 0x6487ed5110b4611a62633145c06e0e68948127044

/-- The cosine series from its `k`-th term `t` on, `fuel` terms of it, in units of 2^-160; `x2` is the squared angle. -/
def cosSeries (x2 : Nat) : (fuel k t : Nat) → Int
  | 0, _, _ => 0
  | f + 1, k, t => (t : Int) - cosSeries x2 f (k + 1) (t * x2 / (2 ^ 160 * ((2 * k + 1) * (2 * k + 2))))

/-- cos(2π·p/q) in units of 2^-160, for an angle of at most a quarter turn. -/
def cosQuarter (p q : Nat) : Int :=
  cosSeries ((twoPiFixed * p / q) * (twoPiFixed * p / q) / 2 ^ 160) 30 0 (2 ^ 160)

/-- cos(2π·p/q) in units of 2^-160, for an angle of at most half a turn; the quarter turn is exactly 0. -/
def cosHalf (p q : Nat) : Int :=
  if 4 * p = q then 0
  else if 4 * p < q then cosQuarter p q
  else -cosQuarter (q - 2 * p) (2 * q)

/-- cos(2π·p/q) in units of 2^-160 for 0 ≤ p ≤ q, by cos(2π - θ) = cos θ. -/
def cosTurn (p q : Nat) : Int := if 2 * p ≤ q then cosHalf p q else cosHalf (q - p) q

/-- sin(2π·p/q) in units of 2^-160 for 0 ≤ 2p ≤ q, by sin θ = cos(π/2 - θ). -/
def sinTurn (p q : Nat) : Int := cosTurn (if 4 * p ≤ q then q - 4 * p else 4 * p - q) (4 * q)

/-- RNE32 of a real given in units of 2^-160; a zero is +0 (00_scope R12). The real formulas of WIN and TW lie farther
from every rounding boundary than the error of the units (log 13). -/
def rne32Fixed (z : Int) : F32 := roundUnits (decide (z < 0)) (z.natAbs * 2 ^ 149) (2 ^ 160)

/-- `WIN[i]` (41_tables R122): RNE32(0.53836 - 0.46164·cos(2π·i/(2N-1))). -/
def romWin (c : Config) (i : Nat) : F32 :=
  roundUnits false (((53836 * 2 ^ 160 : Int) - 46164 * cosTurn i (2 * c.n - 1)).toNat * 2 ^ 149) (100000 * 2 ^ 160)

/-- `TW[i]` (41_tables R126). -/
def romTw (c : Config) (i : Nat) : Cplx :=
  ⟨rne32Fixed (cosTurn i c.twiddleDen), rne32Fixed (-sinTurn i c.twiddleDen)⟩

/-- The `k` low bits of the `q`-th integer root of `x`, over the root `r` found so far. -/
def rootFrom (q x : Nat) : Nat → Nat → Nat
  | 0, r => r
  | k + 1, r => rootFrom q x k (if (r + 2 ^ k) ^ q ≤ x then r + 2 ^ k else r)

/-- The integer part of 2^40·2^(p/q), for 2^(p/q) below 2^16. -/
def pow2Fixed (p q : Nat) : Nat := rootFrom q (2 ^ (p + 40 * q)) 57 0

/-- RNE32(2^(p/q) - 0.5). Where `q` divides `p` the power is an integer. Where it does not, the power is irrational: it
lies strictly between two integers of 40 or more bits in units of 2^-40, where no rounding boundary lies, and the half
above the floor stands for it. -/
def boundary (p q : Nat) : F32 :=
  if p % q = 0 then roundUnits false ((2 ^ (p / q + 1) - 1) * 2 ^ 149) 2
  else roundUnits false ((2 * (pow2Fixed p q - 2 ^ 39) + 1) * 2 ^ 149) (2 ^ 41)

/-- `BND[b]` (41_tables R124): RNE32(N^(b/BAND_N) - 0.5), with N = 2^LOG2N. -/
def romBnd (c : Config) (b : Nat) : F32 := boundary (c.log2n * b) c.bandN

/-- LOG2N is 1 to 15 (00_scope R7). -/
def log2nOk (c : Config) : Bool := decide (1 ≤ c.log2n) && decide (c.log2n ≤ 15)

/-- FFT_OUT_N is a power of two from 1 to N (00_scope R7). -/
def fftOutNOk (c : Config) : Bool := decide (2 ^ c.fftOutN.log2 = c.fftOutN) && decide (c.fftOutN ≤ c.n)

/-- BAND_N is 1 to N (00_scope R7). -/
def bandNOk (c : Config) : Bool := decide (1 ≤ c.bandN) && decide (c.bandN ≤ c.n)

/-- REG_BASE is 64-byte aligned (00_scope R7). -/
def regBaseOk (c : Config) : Bool := decide (c.regBase.toNat % 64 = 0)

/-- The rounded band boundaries are strictly increasing (00_scope R9). -/
def bndIncreasing (c : Config) : Bool := (List.range c.bandN).all fun b => fgt (romBnd c (b + 1)) (romBnd c b)

/-- A configuration is well-formed (00_scope R9). BAND_FADE and BAND_DELAY are legal by their width. -/
def configWf (c : Config) : Bool := log2nOk c && fftOutNOk c && bandNOk c && regBaseOk c && bndIncreasing c

/-- The byte address lies in the register block (20_memory R61). -/
def inRegBlock (c : Config) (a : Nat) : Bool := decide (c.regBase.toNat ≤ a) && decide (a < c.regBase.toNat + 64)

/-- `HOSTMEM_OK(a)` (00_scope R7; 20_memory R61, R62): in a region of the platform and not in the register block. -/
def hostmemOk (c : Config) (a : Nat) : Bool :=
  (c.hostmem.any fun r => decide (r.base ≤ a) && decide (a < r.base + r.size)) && !inRegBlock c a

end Sys2Proof.Machine
end

