-- ==== Sys2Proof/Machine/State.lean ====
section
/-! DEFINITION. The state of the FSU and of the host memory it works on (10_state; 70_reset_and_hazards R280), as plain
data; the moves of the two agents (10_state R20); the closed reason types. -/

namespace Sys2Proof.Machine

/-- Control state (10_state R21). PHASE = BUSY exactly when STATUS.BUSY = 1: BUSY has its home here. -/
inductive Phase where
  | idle
  | busy
  deriving DecidableEq, Repr

/-- The result codes of 60_exceptions R250, in the order of their numbers 0 to 7. -/
inductive ErrCode where
  | ok
  | badop
  | rsvd
  | noinit
  | nodata
  | align
  | range
  | minmax
  deriving DecidableEq, Repr

/-- The fields of STATUS (10_state R25) but BUSY, whose home is `State.phase`. No field is writable by the host and the
reserved bits read 0, so they need no storage. -/
structure Status where
  tblValid  : Bool
  tdValid   : Bool
  specValid : Bool
  err       : Bool
  ovr       : Bool
  errcode   : ErrCode
  lastop    : BitVec 4
  deriving DecidableEq, Repr

/-- The widths of a host bus access (10_state R23: a register access is of the width `word`). -/
inductive AccessWidth where
  | byte
  | half
  | word
  deriving DecidableEq, Repr

/-- The host's moves (70_reset_and_hazards R298; 30_encoding R90, R91): a bus read, a bus write, `WAIT` (poll STATUS
until BUSY = 0), and the platform reset, asserted and released. -/
inductive HostMove where
  | read (width : AccessWidth) (addr : Word)
  | write (width : AccessWidth) (addr value : Word)
  | poll
  | reset
  deriving DecidableEq, Repr

/-- Whose move it is (10_state R20; log 3). -/
inductive Turn where
  | host (m : HostMove)
  | sequencer
  deriving DecidableEq, Repr

/-- Host memory (20_memory R60): the bytes that are not what an unlisted address reads as, by strictly rising address. -/
abbrev Memory := List Host.Cell

/-- The machine. All of 10_state, host memory (20_memory R60), and, last, the model's own fields: the configuration
(log 1), the moves to come (log 3), what the last host read handed over (log 5), and the counter of draws (log 11). -/
structure State where
  /-- PHASE (R21) and STATUS.BUSY (R25) -/
  phase    : Phase
  /-- STATUS (R25) -/
  status   : Status
  /-- ARG_ADDR (R28) -/
  argAddr  : Word
  /-- ARG_SCALE (R29), a binary32 bit pattern kept as written -/
  argScale : Word
  /-- ARG_RANGE (R30): MINVAL in 15:0, MAXVAL in 31:16 -/
  argRange : Word
  /-- CUR_CMD (R34) -/
  curCmd   : Word
  /-- CUR_ADDR (R34) -/
  curAddr  : Word
  /-- CUR_SCALE (R34) -/
  curScale : Word
  /-- CUR_RANGE (R34) -/
  curRange : Word
  /-- TD (R35): N entries, `none` = unwritten -/
  td       : List (Option Cplx)
  /-- SPEC (R36): N entries, `none` = unwritten -/
  spec     : List (Option F32)
  /-- DELAY (R37): BAND_N counters -/
  delay    : List Half
  /-- host memory (20_memory R60) -/
  mem      : Memory
  /-- the configuration (00_scope R7), which no step changes -/
  cfg      : Config
  /-- the moves to come, in order; when there is none the sequencer moves -/
  turns    : List Turn
  /-- the value the last host read handed over (70 R298) -/
  busData  : Word
  /-- how many resets have abandoned a command (70 R281) -/
  draws    : Nat
  deriving DecidableEq, Repr

/-- Why the machine stops with a fault. -/
inductive Fault where
  /-- Raised by a host access to host memory that runs past byte address 2^32 - 1: the spec has no such address
  (20_memory R60). Safe: nothing is claimed of such a host. -/
  | outsideAddressSpace
  deriving DecidableEq, Repr

/-- Why the model gives a step no meaning. -/
inductive Refusal where
  /-- Raised by exec's arm of an instruction that has no meaning yet; no arm is left so. Safe. -/
  | notModelled (mnemonic : String)
  /-- Raised by every step of a machine whose configuration is ill-formed: 00_scope R9, "A model refuses an ill-formed
  configuration". Safe. -/
  | illFormedConfig
  /-- Raised by a host access that touches the register block and is not a 32-bit access at a multiple of 4:
  10_state R23, "a model refuses it". Safe. -/
  | registerAccessForm
  /-- Raised by a host access to a byte of the access range of the command in flight: 70_reset_and_hazards R291, "A
  model gives the host no such move" (host duty H-a). Safe within the model; the duty itself is an assumption (log 14). -/
  | rangeInFlight
  deriving DecidableEq, Repr

/-- STATUS after reset: 0x00000000 (70_reset_and_hazards R280). -/
def Status.reset : Status :=
  { tblValid := false, tdValid := false, specValid := false, err := false, ovr := false, errcode := .ok, lastop := 0 }

/-- The FSU right after reset with a given configuration (70_reset_and_hazards R280): nothing listed in host memory
(log 9), no move to come (log 3); the latches, which R280 leaves unspecified, are 0 (log 6, DESIGN CHOICE). -/
def State.resetWith (c : Config) : State :=
  { phase := .idle, status := .reset, argAddr := 0, argScale := 0, argRange := 0,
    curCmd := 0, curAddr := 0, curScale := 0, curRange := 0,
    td := List.replicate c.n none, spec := List.replicate c.n none, delay := List.replicate c.bandN 0,
    mem := [], cfg := c, turns := [], busData := 0, draws := 0 }

/-- The machine right after reset (70_reset_and_hazards R280), in the common configuration (log 2). -/
def State.reset : State := .resetWith .common

end Sys2Proof.Machine
end

