-- ==== Sys2Proof/Machine/Ops.lean ====
section
/-! DEFINITION. The named operations over memory and registers: host memory (20_memory R60, R63), the internal memories
(10_state R35 to R37), and the steps every command shares: issue (40_control R100), success (60_exceptions R253) and
error completion (R252, the FSU's only exception entry; it has no return, R258). -/

namespace Sys2Proof.Machine

/-- A byte of host memory; an unlisted one reads as 0 (log 9, DESIGN CHOICE). -/
def Memory.read : Memory → Nat → Byte
  | [], _ => 0#8
  | (b, v) :: rest, a => if a = b then v else Memory.read rest a

/-- Write a byte of host memory, keeping the canonical form (a 0 is not listed). -/
def Memory.write : Memory → Nat → Byte → Memory
  | [], a, v => if v = 0#8 then [] else [(a, v)]
  | (b, w) :: rest, a, v =>
    if a < b then (if v = 0#8 then (b, w) :: rest else (a, v) :: (b, w) :: rest)
    else if a = b then (if v = 0#8 then rest else (a, v) :: rest)
    else (b, w) :: Memory.write rest a v

/-- The canonical form from address `lo` on: strictly rising addresses, no listed 0. -/
def Memory.wfFrom : Nat → Memory → Bool
  | _, [] => true
  | lo, (a, v) :: rest => decide (lo ≤ a) && decide (v ≠ 0#8) && Memory.wfFrom (a + 1) rest

/-- Host memory has its canonical form. -/
def Memory.wf (m : Memory) : Bool := Memory.wfFrom 0 m

/-- Every listed byte lies in the 32-bit address space (20_memory R60). -/
def Memory.inSpace (m : Memory) : Bool := m.all fun c => decide (c.1 < 2 ^ 32)

/-- `MemRead(a, 2)`, little-endian (20_memory R63). -/
def Memory.read16 (m : Memory) (a : Nat) : Half := Memory.read m (a + 1) ++ Memory.read m a

/-- `MemWrite(a, 2, v)`, little-endian (20_memory R63). -/
def Memory.write16 (m : Memory) (a : Nat) (v : Half) : Memory :=
  Memory.write (Memory.write m a (v.extractLsb' 0 8)) (a + 1) (v.extractLsb' 8 8)

/-- An entry of TD (10_state R35). An unwritten one gives a free value; no command reads one in a run, because of the
NODATA check (60_exceptions R251). -/
def tdEntry (td : List (Option Cplx)) (i : Nat) : Cplx := (td.getD i none).getD (Config.unwrittenTd i)

/-- `TD[i] <- v` (00_scope R15). -/
def tdSet (td : List (Option Cplx)) (i : Nat) (v : Cplx) : List (Option Cplx) := td.set i (some v)

/-- An entry of SPEC (10_state R36), a free value while unwritten. -/
def specEntry (sp : List (Option F32)) (i : Nat) : F32 := (sp.getD i none).getD (Config.unwrittenSpec i)

/-- `SPEC[i] <- v` (00_scope R15). -/
def specSet (sp : List (Option F32)) (i : Nat) (v : F32) : List (Option F32) := sp.set i (some v)

/-- A counter of DELAY (10_state R37). -/
def delayEntry (d : List Half) (b : Nat) : Half := d.getD b 0

/-- Replace STATUS. -/
def State.setStatus (s : State) (st : Status) : State := { s with status := st }

/-- Replace TD. -/
def State.setTd (s : State) (td : List (Option Cplx)) : State := { s with td := td }

/-- Replace SPEC. -/
def State.setSpec (s : State) (sp : List (Option F32)) : State := { s with spec := sp }

/-- Replace DELAY. -/
def State.setDelay (s : State) (d : List Half) : State := { s with delay := d }

/-- Replace host memory. -/
def State.setMem (s : State) (m : Memory) : State := { s with mem := m }

/-- Replace the moves to come. -/
def State.setTurns (s : State) (ts : List Turn) : State := { s with turns := ts }

/-- The value a host read hands over (70_reset_and_hazards R298). -/
def State.setBusData (s : State) (w : Word) : State := { s with busData := w }

/-- Issue (40_control R100): latch the word and the operands, set LASTOP, go BUSY; nothing else changes. -/
def issue (w : Word) (s : State) : State :=
  { s with
    curCmd := w, curAddr := s.argAddr, curScale := s.argScale, curRange := s.argRange,
    status := { s.status with lastop := w.extractLsb' 0 4 }, phase := .busy }

/-- Overrun (40_control R102): the word is discarded and OVR set. -/
def overrun (s : State) : State := { s with status := { s.status with ovr := true } }

/-- Success completion (60_exceptions R253; 40_control R101): ERRCODE is 0, ERR and OVR stay, PHASE is IDLE. -/
def succeed (s : State) : State := { s with status := { s.status with errcode := .ok }, phase := .idle }

/-- Error completion, `raise Err(e)` (60_exceptions R252; 00_scope R15): ERRCODE is the code, ERR is set, PHASE is IDLE;
no other effect. -/
def raiseErr (e : ErrCode) (s : State) : State :=
  { s with status := { s.status with errcode := e, err := true }, phase := .idle }

end Sys2Proof.Machine
end

