-- ==== Sys2Proof/Machine/Operands.lean ====
section
/-! DEFINITION. The operand forms: what each command reads from the latches (30_encoding R89), its access range
(20_memory R65) and whether the platform admits it (R62). -/

namespace Sys2Proof.Machine

/-- `minVal`, the field MINVAL of CUR_RANGE (30_encoding R89). -/
def minVal (s : State) : Half := s.curRange.extractLsb' 0 16

/-- `maxVal`, the field MAXVAL of CUR_RANGE (30_encoding R89). -/
def maxVal (s : State) : Half := s.curRange.extractLsb' 16 16

/-- `scaleFactor`, the binary32 value of CUR_SCALE (30_encoding R89). -/
def scaleFactor (s : State) : F32 := .ofBits s.curScale

/-- The base address of the raw block or of the output array (30_encoding R89). -/
def baseAddr (s : State) : Nat := s.curAddr.toNat

/-- The commands that read the tables: all but NOP, INIT and CLRERR (41_tables R129). -/
def needsTables : Instr → Bool
  | .nop => false
  | .init => false
  | .loadL => true
  | .loadR => true
  | .loadM => true
  | .loadX => true
  | .transform => true
  | .extract => true
  | .linear => true
  | .log => true
  | .bands => true
  | .clrerr => false

/-- The commands that read TD (60_exceptions R251). -/
def needsTd : Instr → Bool
  | .nop => false
  | .init => false
  | .loadL => false
  | .loadR => false
  | .loadM => false
  | .loadX => false
  | .transform => true
  | .extract => true
  | .linear => false
  | .log => false
  | .bands => false
  | .clrerr => false

/-- The shaping commands: those that read SPEC and use `minVal` and `maxVal` (60_exceptions R251; 30_encoding R89). -/
def isShaper : Instr → Bool
  | .nop => false
  | .init => false
  | .loadL => false
  | .loadR => false
  | .loadM => false
  | .loadX => false
  | .transform => false
  | .extract => false
  | .linear => true
  | .log => true
  | .bands => true
  | .clrerr => false

/-- `LEN(c)` (60_exceptions R251): the length of the range the checks are made on; none for a command that names no
address. LOAD.X is checked on the LOAD range (20_memory R65). -/
def rangeLen (c : Config) : Instr → Option Nat
  | .nop => none
  | .init => none
  | .loadL => some (8 * c.n)
  | .loadR => some (8 * c.n)
  | .loadM => some (8 * c.n)
  | .loadX => some (8 * c.n)
  | .transform => none
  | .extract => none
  | .linear => some (2 * c.fftOutN)
  | .log => some (2 * c.fftOutN)
  | .bands => some (2 * c.bandN)
  | .clrerr => none

/-- How many bytes from the base address the command's perform step accesses (20_memory R60, R62, R65): none for LOAD.X
and for every command that does not touch host memory. -/
def accessLen (c : Config) : Instr → Nat
  | .nop => 0
  | .init => 0
  | .loadL => 8 * c.n
  | .loadR => 8 * c.n
  | .loadM => 8 * c.n
  | .loadX => 0
  | .transform => 0
  | .extract => 0
  | .linear => 2 * c.fftOutN
  | .log => 2 * c.fftOutN
  | .bands => 2 * c.bandN
  | .clrerr => 0

/-- HOSTMEM_OK holds for every byte the command's perform step accesses (20_memory R62). -/
def accessible (i : Instr) (s : State) : Bool :=
  (List.range (accessLen s.cfg i)).all fun k => hostmemOk s.cfg (baseAddr s + k)

/-- The address lies in the access range of the command in flight (20_memory R65; 70_reset_and_hazards R291). Once the
command has completed no address does, whether or not the host has read BUSY = 0 yet: in that time 20_memory R67 and R70
promise no order, and the model, by its own choice, lets a host access see the completed memory (log 24). -/
def inFlight (s : State) (a : Nat) : Bool :=
  match s.phase, decode s.curCmd with
  | .busy, .cmd i => decide (baseAddr s ≤ a) && decide (a < baseAddr s + accessLen s.cfg i)
  | .busy, .reserved _ => false
  | .idle, _ => false

end Sys2Proof.Machine
end

