-- ==== Sys2Proof/Machine/Flags.lean ====
section
/-! DEFINITION. The flags: the STATUS word (10_state R25), the result codes (60_exceptions R250), the checks in their
order (R251), and the completion step every command shares (40_control R101). -/

namespace Sys2Proof.Machine

/-- The number of a result code (60_exceptions R250). -/
def errCodeBits : ErrCode → BitVec 4
  | .ok => 0
  | .badop => 1
  | .rsvd => 2
  | .noinit => 3
  | .nodata => 4
  | .align => 5
  | .range => 6
  | .minmax => 7

/-- STATUS.BUSY (10_state R21, R25). -/
def busyBit (s : State) : Bool :=
  match s.phase with
  | .busy => true
  | .idle => false

/-- The STATUS word (10_state R25), from bit 31 down: reserved, LASTOP, reserved, ERRCODE, reserved, OVR, ERR,
SPEC_VALID, TD_VALID, TBL_VALID, BUSY. -/
def statusWord (s : State) : Word :=
  0#12 ++ s.status.lastop ++ 0#4 ++ errCodeBits s.status.errcode ++ 0#2 ++ BitVec.ofBool s.status.ovr ++
    BitVec.ofBool s.status.err ++ BitVec.ofBool s.status.specValid ++ BitVec.ofBool s.status.tdValid ++
    BitVec.ofBool s.status.tblValid ++ BitVec.ofBool (busyBit s)

/-- The code of a reserved word (30_encoding R84 to R86). -/
def reservedCode : ReservedKind → ErrCode
  | .badop => .badop
  | .rsvd => .rsvd

/-- The address checks ALIGN and RANGE, on a range of `len` bytes (20_memory R65; 60_exceptions R251). -/
def checkAddr (s : State) (len : Nat) : ErrCode :=
  if baseAddr s % 2 = 1 then .align
  else if baseAddr s + len > 2 ^ 32 then .range
  else .ok

/-- The address checks of a command that names an address (60_exceptions R251). -/
def checkRange (i : Instr) (s : State) : ErrCode :=
  match rangeLen s.cfg i with
  | none => .ok
  | some len => checkAddr s len

/-- `check(c)` for a command (60_exceptions R251), in its order: NOINIT, NODATA, ALIGN, RANGE, MINMAX. -/
def check (i : Instr) (s : State) : ErrCode :=
  if !needsTables i then .ok
  else if !s.status.tblValid then .noinit
  else if needsTd i && !s.status.tdValid then .nodata
  else if isShaper i && !s.status.specValid then .nodata
  else if checkRange i s ≠ .ok then checkRange i s
  else if isShaper i && decide (maxVal s < minVal s) then .minmax
  else .ok

/-- Completion (40_control R101) of a command whose perform step is `perform`: an error completion where a check fails,
else the effects and success. Where the checks pass and the platform does not admit a byte of the access range there
is no completion step: the command is stuck and the state stays as it is (20_memory R62; 60_exceptions R261; log 10). -/
def complete (i : Instr) (perform : State → State) (s : State) : Host.Outcome State Fault Refusal :=
  if check i s ≠ .ok then .next (raiseErr (check i s) s)
  else if accessible i s then .next (succeed (perform s))
  else .next s

end Sys2Proof.Machine
end

