-- ==== Sys2Proof/Machine/Log10.lean ====
section
/-! DEFINITION. The run-time base-10 logarithm LOG10 (00_scope R14): the reference unit, RNE32 of the real logarithm,
and any other unit with the properties P1 to P6, made from the steps of the configuration (log 12). -/

namespace Sys2Proof.Machine

/-- ln 2 in units of 2^-160. -/
def ln2Fixed : Nat := 0xb17217f7d1cf79abc9e3b39803f2f6af40f34326

/-- ln 10 in units of 2^-160. -/
def ln10Fixed : Nat := 0x24d763776aaa2b05ba95b58ae0b4c28a38a3fb3e7

/-- The series of the inverse hyperbolic tangent from the power `t` (of index `k`) on, `fuel` terms, in units of
2^-160; `y2` is the squared argument. -/
def atanhSeries (y2 : Nat) : (fuel k t : Nat) → Nat
  | 0, _, _ => 0
  | f + 1, k, t => t / (2 * k + 1) + atanhSeries y2 f (k + 1) (t * y2 / 2 ^ 160)

/-- ln(u / 2^l) in units of 2^-160, for 2^l ≤ u < 2^(l+1), by ln x = 2·atanh((x - 1)/(x + 1)). -/
def lnMantissa (u l : Nat) : Nat :=
  let y := (u - 2 ^ l) * 2 ^ 160 / (u + 2 ^ l)
  2 * atanhSeries (y * y / 2 ^ 160) 56 0 y

/-- The natural logarithm of `u` units (that is, of u·2^-149), in units of 2^-160. -/
def lnUnits (u : Nat) : Int := ((u.log2 : Int) - 149) * ln2Fixed + lnMantissa u u.log2

/-- RNE32 of the base-10 logarithm of a positive finite magnitude (00_scope R14, the reference configuration). -/
def log10Reference (mag : Nat) : F32 :=
  let z := lnUnits (unitsOf mag)
  roundUnits (decide (z < 0)) (z.natAbs * 2 ^ 149) ln10Fixed

/-- The magnitude patterns of 10^0, ..., 10^10 (00_scope R14 P4). -/
def powersOfTen : List Nat :=
  [0x3F800000, 0x41200000, 0x42C80000, 0x447A0000, 0x461C4000, 0x47C35000, 0x49742400, 0x4B189680, 0x4CBEBC20,
   0x4E6E6B28, 0x501502F9]

/-- The magnitude pattern of an integer logarithm, 0 to 11. -/
def keyOfNat (k : Nat) : Int := (orderKey (i2f k)).getD 0

/-- How many of the powers of ten are at most the magnitude. -/
def decade (mag : Nat) : Nat := (powersOfTen.filter fun t => decide (t ≤ mag)).length

/-- The least key a lawful logarithm may give a magnitude: k at and above 10^k (P4, P5), any finite value below 1 (P6). -/
def log10Low (mag : Nat) : Int := if decade mag = 0 then -0x7F7FFFFF else keyOfNat (decade mag - 1)

/-- The greatest one: k at 10^k (P4) and up to k + 1 above it (P5), 0 below 1, any finite value above 10^10 (P6). -/
def log10High (mag : Nat) : Int :=
  if powersOfTen.contains mag then keyOfNat (decade mag - 1)
  else if decade mag = 11 then 0x7F7FFFFF
  else keyOfNat (decade mag)

/-- The greatest result key of the steps whose threshold is at most the magnitude. -/
def stepMax (mag : Nat) : List (Nat × Int) → Int
  | [] => -0x7F7FFFFF
  | (t, v) :: rest => if t ≤ mag then max v (stepMax mag rest) else stepMax mag rest

/-- The logarithm of a positive finite magnitude by steps, kept within what P4 to P6 allow. -/
def log10Steps (l : List (Nat × Int)) (mag : Nat) : F32 :=
  ofKey (max (log10Low mag) (min (log10High mag) (stepMax mag l)))

/-- The logarithm of a positive finite magnitude. -/
def log10Positive : Log10Unit → Nat → F32
  | .reference, mag => log10Reference mag
  | .steps l, mag => log10Steps l mag

/-- `LOG10` (00_scope R14): P1 for the zeros, P2 for NaNs and negative values, P3 for +infinity. -/
def log10 (u : Log10Unit) : F32 → F32
  | .nan => .nan
  | .inf a => if a then .nan else .inf false
  | .fin a x => if x.val = 0 then .inf true else if a then .nan else log10Positive u x.val

end Sys2Proof.Machine
end

