-- ==== Sys2Proof/Machine/Bands.lean ====
section
/-! DEFINITION. The logarithmic band mapper, the decay/hold state machine and BANDS (46_bands R220 to R228). -/

namespace Sys2Proof.Machine

/-- `a = ceil(BND[b])` (46_bands R220). -/
def bandLow (c : Config) (b : Nat) : Nat := ceilNat (romBnd c b)

/-- `c = floor(BND[b+1])` (46_bands R220). -/
def bandHigh (c : Config) (b : Nat) : Nat := truncNat (romBnd c (b + 1))

/-- The narrow form of a band sum (46_bands R222): the single bin that contains the band, by the band's width. -/
def narrowSum (c : Config) (sp : List (Option F32)) (b : Nat) : F32 :=
  fmul (specEntry sp (bandHigh c b)) (fsub (romBnd c (b + 1)) (romBnd c b))

/-- The wide form's bin a-1, by its weight a - lo (46_bands R222). -/
def wideFirst (c : Config) (sp : List (Option F32)) (b : Nat) : F32 :=
  fmul (specEntry sp (bandLow c b - 1)) (fsub (i2f (bandLow c b)) (romBnd c b))

/-- The wide form's bin c, by its weight hi - c (46_bands R222). -/
def wideLast (c : Config) (sp : List (Option F32)) (b : Nat) : F32 :=
  fmul (specEntry sp (bandHigh c b)) (fsub (romBnd c (b + 1)) (i2f (bandHigh c b)))

/-- The wide form of a band sum (46_bands R222): bin a-1, the full bins a, ..., c-1 in order, then bin c. -/
def wideSum (c : Config) (sp : List (Option F32)) (b : Nat) : F32 :=
  fadd ((List.range (bandHigh c b - bandLow c b)).foldl (fun acc k => fadd acc (specEntry sp (bandLow c b + k)))
    (wideFirst c sp b)) (wideLast c sp b)

/-- `BANDSUM(b)` (46_bands R221, R222): narrow when c < a. -/
def bandSum (c : Config) (sp : List (Option F32)) (b : Nat) : F32 :=
  if bandHigh c b < bandLow c b then narrowSum c sp b else wideSum c sp b

/-- `BANDVAL(b)` (46_bands R223), left to right. -/
def bandVal (c : Config) (sp : List (Option F32)) (b : Nat) : F32 :=
  fmul fTwenty (log10 c.log10 (fdiv (fdiv (fmul (bandSum c sp b) (i2f c.bandN)) (i2f c.n)) fTwelve))

/-- The decayed displayed value (46_bands R224): max(0, cur - max(0, BAND_FADE - DELAY[b])). -/
def decayed (c : Config) (delay cur : Half) : Nat := cur.toNat - (c.bandFade.toNat - delay.toNat)

/-- The band snaps (46_bands R225): its new value exceeds the decayed one. -/
def snaps (v : F32) (dec : Nat) : Bool := fgt v (i2f dec)

/-- The counter after the step (46_bands R226): reloaded on a snap, else one less, not below 0. -/
def nextDelay (c : Config) (delay : Half) (snap : Bool) : Half :=
  if snap then c.bandDelay else BitVec.ofNat 16 (delay.toNat - 1)

/-- The output word (46_bands R225). -/
def bandWord (v : F32) (dec : Nat) (lo hi : Half) : Half := clampCvt (if snaps v dec then v else i2f dec) lo hi

/-- What BANDS changes: host memory and DELAY. -/
structure BandState where
  mem   : Memory
  delay : List Half
  deriving DecidableEq, Repr

/-- `BANDSTEP(b)` (46_bands R227). -/
def bandStep (s : State) (x : BandState) (b : Nat) : BandState :=
  { mem := Memory.write16 x.mem (baseAddr s + 2 * b)
      (bandWord (bandVal s.cfg s.spec b)
        (decayed s.cfg (delayEntry x.delay b) (Memory.read16 x.mem (baseAddr s + 2 * b))) (minVal s) (maxVal s))
    delay := x.delay.set b
      (nextDelay s.cfg (delayEntry x.delay b)
        (snaps (bandVal s.cfg s.spec b)
          (decayed s.cfg (delayEntry x.delay b) (Memory.read16 x.mem (baseAddr s + 2 * b))))) }

/-- The bands b = 0, ..., BAND_N-1 in order (46_bands R228). -/
def bandLoop (s : State) : BandState :=
  (List.range s.cfg.bandN).foldl (bandStep s) { mem := s.mem, delay := s.delay }

/-- perform(BANDS) (46_bands R228). -/
def performBands (s : State) : State := (s.setMem (bandLoop s).mem).setDelay (bandLoop s).delay

/-- BANDS (46_bands R228). -/
def execBands (s : State) : Host.Outcome State Fault Refusal := complete .bands performBands s

end Sys2Proof.Machine
end

