-- ==== Sys2Proof/Machine/Binners.lean ====
section
/-! DEFINITION. The shaper and the binners LINEAR and LOG (45_binners R200 to R206). -/

namespace Sys2Proof.Machine

/-- `AVG(k)` (45_binners R201): the sum of the M bins of group `k` from +0 in increasing order, divided by M. -/
def average (c : Config) (sp : List (Option F32)) (k : Nat) : F32 :=
  fdiv ((List.range c.m).foldl (fun acc j => fadd acc (specEntry sp (k * c.m + j))) fZero) (i2f c.m)

/-- `LOGC(x)` (45_binners R202). -/
def logCompress (u : Log10Unit) (x : F32) : F32 := fmul fTwenty (log10 u (fadd fOne x))

/-- The shaped value of element `k` (45_binners R204): the average, compressed for LOG. -/
def shaped (compress : Bool) (c : Config) (sp : List (Option F32)) (k : Nat) : F32 :=
  if compress then logCompress c.log10 (average c sp k) else average c sp k

/-- Scaling by maxVal/40, blending with the previous word, clamping (45_binners R203). -/
def blendWord (y : F32) (prev lo hi : Half) : Half :=
  clampCvt (fmul (fadd (i2f prev.toNat) (fdiv (fmul y (i2f hi.toNat)) fForty)) fHalf) lo hi

/-- Element `k` of the shaper (45_binners R203, R204): its word is read, then written. -/
def shapeElement (compress : Bool) (s : State) (m : Memory) (k : Nat) : Memory :=
  Memory.write16 m (baseAddr s + 2 * k)
    (blendWord (shaped compress s.cfg s.spec k) (Memory.read16 m (baseAddr s + 2 * k)) (minVal s) (maxVal s))

/-- `SHAPE(log)` (45_binners R204): the elements k = 0, ..., FFT_OUT_N-1 in order. -/
def shapeMem (compress : Bool) (s : State) : Memory :=
  (List.range s.cfg.fftOutN).foldl (shapeElement compress s) s.mem

/-- perform(LINEAR) and perform(LOG) (45_binners R205, R206). -/
def performShape (compress : Bool) (s : State) : State := s.setMem (shapeMem compress s)

/-- LINEAR (45_binners R205). -/
def execLinear (s : State) : Host.Outcome State Fault Refusal := complete .linear (performShape false) s

/-- LOG (45_binners R206). -/
def execLog (s : State) : Host.Outcome State Fault Refusal := complete .log (performShape true) s

end Sys2Proof.Machine
end

