-- ==== Sys2Proof/Machine/Control.lean ====
section
/-! DEFINITION. The control commands NOP and CLRERR (40_control R104, R105). -/

namespace Sys2Proof.Machine

/-- perform(NOP) (40_control R104): nothing. -/
def performNop (s : State) : State := s

/-- perform(CLRERR) (40_control R105): ERR and OVR become 0. -/
def performClrerr (s : State) : State := s.setStatus { s.status with err := false, ovr := false }

/-- NOP (40_control R104). -/
def execNop (s : State) : Host.Outcome State Fault Refusal := complete .nop performNop s

/-- CLRERR (40_control R105). -/
def execClrerr (s : State) : Host.Outcome State Fault Refusal := complete .clrerr performClrerr s

end Sys2Proof.Machine
end

