-- ==== Sys2Proof/Machine/Extract.lean ====
section
/-! DEFINITION. The Hermitian-symmetry unpacker and EXTRACT (44_extract R181 to R183). -/

namespace Sys2Proof.Machine

/-- `e(i)` (44_extract R181). -/
def unpackSum (c : Config) (td : List (Option Cplx)) (i : Nat) : Cplx :=
  cadd (tdEntry td i) (conj (tdEntry td (c.n - 1 - i)))

/-- `o(i)` (44_extract R181). -/
def unpackDiff (c : Config) (td : List (Option Cplx)) (i : Nat) : Cplx :=
  csub (tdEntry td i) (conj (tdEntry td (c.n - 1 - i)))

/-- The amplitude of an unpacked value (44_extract R182): 0.5·|z| / N · scaleFactor, left to right. -/
def amplitude (c : Config) (sc : F32) (z : Cplx) : F32 := fmul (fdiv (fmul fHalf (cmag z)) (i2f c.n)) sc

/-- The pair of SPEC entries of index `i` (44_extract R182). -/
def extractPair (c : Config) (sc : F32) (td : List (Option Cplx)) (sp : List (Option F32)) (i : Nat) :
    List (Option F32) :=
  specSet (specSet sp (2 * i) (amplitude c sc (unpackSum c td i))) (2 * i + 1) (amplitude c sc (unpackDiff c td i))

/-- The loop over i = 0, ..., N/2-1 (44_extract R182). -/
def extractPairs (c : Config) (sc : F32) (td : List (Option Cplx)) (sp : List (Option F32)) : List (Option F32) :=
  (List.range c.h).foldl (extractPair c sc td) sp

/-- DC halving (44_extract R183). -/
def halveDc (sp : List (Option F32)) : List (Option F32) := specSet sp 0 (fmul (specEntry sp 0) fHalf)

/-- perform(EXTRACT) (44_extract R182). -/
def performExtract (s : State) : State :=
  (s.setSpec (halveDc (extractPairs s.cfg (scaleFactor s) s.td s.spec))).setStatus { s.status with specValid := true }

/-- EXTRACT (44_extract R182). -/
def execExtract (s : State) : Host.Outcome State Fault Refusal := complete .extract performExtract s

end Sys2Proof.Machine
end

