-- ==== Sys2Proof/Machine/Fft.lean ====
section
/-! DEFINITION. The butterfly unit, the in-place decimation-in-time network and TRANSFORM (43_fft R164 to R168). -/

namespace Sys2Proof.Machine

/-- The butterfly unit's first output, `u + w·v` (43_fft R164). -/
def bflySum (u v w : Cplx) : Cplx := cadd u (cmul w v)

/-- The butterfly unit's second output, `u - w·v` (43_fft R164). -/
def bflyDiff (u v w : Cplx) : Cplx := csub u (cmul w v)

/-- One butterfly in place (43_fft R165): entries `a` and `b` are replaced by the two outputs, both from the old ones. -/
def butterfly (td : List (Option Cplx)) (a b : Nat) (w : Cplx) : List (Option Cplx) :=
  tdSet (tdSet td a (bflySum (tdEntry td a) (tdEntry td b) w)) b (bflyDiff (tdEntry td a) (tdEntry td b) w)

/-- The half-size of stage `s` (43_fft R165). -/
def halfSize (s : Nat) : Nat := 2 ^ (s - 1)

/-- The twiddle stride of stage `s` (43_fft R165). -/
def twiddleStride (c : Config) (s : Nat) : Nat := c.n / (2 * halfSize s)

/-- The butterflies of one block, from entry `k` on (43_fft R165, R168), for j = 0, ..., h-1. -/
def fftBlock (c : Config) (s k : Nat) (td : List (Option Cplx)) : List (Option Cplx) :=
  (List.range (halfSize s)).foldl
    (fun t j => butterfly t (k + j) (k + j + halfSize s) (romTw c (j * twiddleStride c s))) td

/-- One stage (43_fft R165, R168): its blocks start at k = 0, 2h, ..., N-2h. -/
def fftStage (c : Config) (s : Nat) (td : List (Option Cplx)) : List (Option Cplx) :=
  (List.range (c.n / (2 * halfSize s))).foldl (fun t b => fftBlock c s (2 * halfSize s * b) t) td

/-- The network (43_fft R168): stages 1, ..., LOG2N. -/
def fftNetwork (c : Config) (td : List (Option Cplx)) : List (Option Cplx) :=
  (List.range c.log2n).foldl (fun t s => fftStage c (s + 1) t) td

/-- perform(TRANSFORM) (43_fft R168). -/
def performTransform (s : State) : State := s.setTd (fftNetwork s.cfg s.td)

/-- TRANSFORM (43_fft R168). -/
def execTransform (s : State) : Host.Outcome State Fault Refusal := complete .transform performTransform s

end Sys2Proof.Machine
end

