-- ==== Sys2Proof/Machine/Load.lean ====
section
/-! DEFINITION. Sample loading: LOAD.L, LOAD.R, LOAD.M and LOAD.X (42_load R140 to R147). -/

namespace Sys2Proof.Machine

/-- The int16 at byte `off` of slot `i` of the raw block (42_load R140): off 0 is L_re, 2 R_re, 4 L_im, 6 R_im. -/
def slotField (s : State) (i off : Nat) : Int := (Memory.read16 s.mem (baseAddr s + 8 * i + off)).toInt

/-- The mean of left and right (42_load R143, Mixed). -/
def stereoMean (l r : Int) : F32 := fmul (fadd (i2f l) (i2f r)) fHalf

/-- `SEL(ch, i)` (42_load R143): the selected real and imaginary samples of slot `i`. -/
def selectSample (ch : Channel) (s : State) (i : Nat) : Cplx :=
  match ch with
  | .left => ⟨i2f (slotField s i 0), i2f (slotField s i 4)⟩
  | .right => ⟨i2f (slotField s i 2), i2f (slotField s i 6)⟩
  | .mixed => ⟨stereoMean (slotField s i 0) (slotField s i 2), stereoMean (slotField s i 4) (slotField s i 6)⟩

/-- The windowed value of slot `i` (42_load R142). -/
def windowed (ch : Channel) (s : State) (i : Nat) : Cplx :=
  ⟨fmul (selectSample ch s i).re (romWin s.cfg (2 * i)), fmul (selectSample ch s i).im (romWin s.cfg (2 * i + 1))⟩

/-- The window loader (42_load R142, R144): slot `i` goes to `TD[BITREV(i)]`, for i = 0, ..., N-1. -/
def loadTd (ch : Channel) (s : State) : List (Option Cplx) :=
  (List.range s.cfg.n).foldl (fun td i => tdSet td (bitrev s.cfg.log2n i) (windowed ch s i)) s.td

/-- perform(LOAD.L), (LOAD.R), (LOAD.M): load all of TD, then TD_VALID becomes 1 (42_load R141, R144). -/
def performLoad (ch : Channel) (s : State) : State :=
  (s.setTd (loadTd ch s)).setStatus { s.status with tdValid := true }

/-- perform(LOAD.X) (42_load R147): nothing. -/
def performLoadX (s : State) : State := s

/-- LOAD.L (42_load R144). -/
def execLoadL (s : State) : Host.Outcome State Fault Refusal := complete .loadL (performLoad .left) s

/-- LOAD.R (42_load R145). -/
def execLoadR (s : State) : Host.Outcome State Fault Refusal := complete .loadR (performLoad .right) s

/-- LOAD.M (42_load R146). -/
def execLoadM (s : State) : Host.Outcome State Fault Refusal := complete .loadM (performLoad .mixed) s

/-- LOAD.X (42_load R147). -/
def execLoadX (s : State) : Host.Outcome State Fault Refusal := complete .loadX performLoadX s

end Sys2Proof.Machine
end

