-- ==== Sys2Proof/Machine/Tables.lean ====
section
/-! DEFINITION. INIT (41_tables R128). The tables themselves are in Machine/Rom.lean. -/

namespace Sys2Proof.Machine

/-- perform(INIT) (41_tables R128): TBL_VALID becomes 1. -/
def performInit (s : State) : State := s.setStatus { s.status with tblValid := true }

/-- INIT (41_tables R128). -/
def execInit (s : State) : Host.Outcome State Fault Refusal := complete .init performInit s

end Sys2Proof.Machine
end

