-- ==== Sys2Proof/Machine/Dispatch.lean ====
section
/-! DEFINITION. The meaning of every command: the completion step of 40_control R101, one arm per constructor. -/

namespace Sys2Proof.Machine

def exec (i : Instr) (s : State) : Host.Outcome State Fault Refusal :=
  match i with
  | .nop => Sys2Proof.Machine.execNop s
  | .init => Sys2Proof.Machine.execInit s
  | .loadL => Sys2Proof.Machine.execLoadL s
  | .loadR => Sys2Proof.Machine.execLoadR s
  | .loadM => Sys2Proof.Machine.execLoadM s
  | .loadX => Sys2Proof.Machine.execLoadX s
  | .transform => Sys2Proof.Machine.execTransform s
  | .extract => Sys2Proof.Machine.execExtract s
  | .linear => Sys2Proof.Machine.execLinear s
  | .log => Sys2Proof.Machine.execLog s
  | .bands => Sys2Proof.Machine.execBands s
  | .clrerr => Sys2Proof.Machine.execClrerr s

end Sys2Proof.Machine
end

