-- ==== Sys2Proof/Machine/HostBus.lean ====
section
/-! DEFINITION. The host's bus: the register block (10_state R22 to R33), host accesses to host memory (30_encoding R90),
and `WAIT` (R91). -/

namespace Sys2Proof.Machine

/-- The registers of the block (10_state R22). -/
inductive Reg where
  | id
  | cmd
  | status
  | argAddr
  | argScale
  | argRange
  | config0
  | config1
  | config2
  | reserved
  deriving DecidableEq, Repr

/-- The register at an offset that is a multiple of 4 (10_state R22). -/
def regAt (off : Nat) : Reg :=
  match off / 4 with
  | 0 => .id
  | 1 => .cmd
  | 2 => .status
  | 3 => .argAddr
  | 4 => .argScale
  | 5 => .argRange
  | 6 => .config0
  | 7 => .config1
  | 8 => .config2
  | _ => .reserved

/-- CONFIG0 (10_state R31): LOG2N in 4:0, FFT_OUT_N in 31:16. -/
def config0Word (c : Config) : Word := BitVec.ofNat 16 c.fftOutN ++ 0#11 ++ BitVec.ofNat 5 c.log2n

/-- CONFIG1 (10_state R32): BAND_N in 15:0, TWDEN_IS_N in 16. -/
def config1Word (c : Config) : Word := 0#15 ++ BitVec.ofBool c.twdenIsN ++ BitVec.ofNat 16 c.bandN

/-- CONFIG2 (10_state R33): BAND_FADE in 15:0, BAND_DELAY in 31:16. -/
def config2Word (c : Config) : Word := c.bandDelay ++ c.bandFade

/-- The value a register reads as (10_state R22, R23): 0 for CMD and for a reserved offset; no side effect. -/
def regRead (s : State) : Reg → Word
  | .id => 0x46535531#32
  | .cmd => 0#32
  | .status => statusWord s
  | .argAddr => s.argAddr
  | .argScale => s.argScale
  | .argRange => s.argRange
  | .config0 => config0Word s.cfg
  | .config1 => config1Word s.cfg
  | .config2 => config2Word s.cfg
  | .reserved => 0#32

/-- A write to CMD (10_state R24): issue while IDLE (40_control R100), overrun while BUSY (R102). -/
def writeCmd (w : Word) (s : State) : State :=
  match s.phase with
  | .idle => issue w s
  | .busy => overrun s

/-- A write to a register (10_state R22, R23): no effect on a read-only register or a reserved offset. -/
def regWrite (s : State) (w : Word) : Reg → State
  | .id => s
  | .cmd => writeCmd w s
  | .status => s
  | .argAddr => { s with argAddr := w }
  | .argScale => { s with argScale := w }
  | .argRange => { s with argRange := w }
  | .config0 => s
  | .config1 => s
  | .config2 => s
  | .reserved => s

/-- The bytes of an access width. -/
def widthBytes : AccessWidth → Nat
  | .byte => 1
  | .half => 2
  | .word => 4

/-- `n` bytes of host memory from `a`, little-endian. -/
def Memory.readLe (m : Memory) : (n a : Nat) → Nat
  | 0, _ => 0
  | n + 1, a => (Memory.read m a).toNat + 256 * Memory.readLe m n (a + 1)

/-- Write the `n` low bytes of `v` from `a` on, little-endian. -/
def Memory.writeLe : (n a v : Nat) → Memory → Memory
  | 0, _, _, m => m
  | n + 1, a, v, m => Memory.writeLe n (a + 1) (v / 256) (Memory.write m a (BitVec.ofNat 8 v))

/-- The access of `n` bytes from `a` touches the register block (10_state R22). -/
def touchesRegBlock (c : Config) (a n : Nat) : Bool :=
  decide (a < c.regBase.toNat + 64) && decide (c.regBase.toNat < a + n)

/-- The one legal form of a register access (10_state R23): 32 bits at an offset that is a multiple of 4. -/
def legalRegAccess (c : Config) (width : AccessWidth) (a : Nat) : Bool :=
  decide (width = .word) && decide (c.regBase.toNat ≤ a) && decide ((a - c.regBase.toNat) % 4 = 0)

/-- The access of `n` bytes from `a` touches the access range of the command in flight (70_reset_and_hazards R291). -/
def touchesInFlight (s : State) (a n : Nat) : Bool := (List.range n).any fun k => inFlight s (a + k)

/-- A host access of `n` bytes at `a` (10_state R23; 30_encoding R90; 70_reset_and_hazards R291): the effect `onReg` on a
register, or `onMem` on host memory; refused in another register form or in the range in flight (log 14, 15), a fault
past the end of the address space (log 16). -/
def busAccess (s : State) (width : AccessWidth) (a : Nat) (onReg : Reg → State) (onMem : State) :
    Host.Outcome State Fault Refusal :=
  if touchesRegBlock s.cfg a (widthBytes width) then
    if legalRegAccess s.cfg width a then .next (onReg (regAt (a - s.cfg.regBase.toNat)))
    else .refused .registerAccessForm
  else if a + widthBytes width > 2 ^ 32 then .fault .outsideAddressSpace
  else if touchesInFlight s a (widthBytes width) then .refused .rangeInFlight
  else .next onMem

/-- A host read (70_reset_and_hazards R298): the value read is handed over in `busData` (log 5). -/
def hostRead (width : AccessWidth) (addr : Word) (s : State) : Host.Outcome State Fault Refusal :=
  busAccess s width addr.toNat (fun r => s.setBusData (regRead s r))
    (s.setBusData (BitVec.ofNat 32 (Memory.readLe s.mem (widthBytes width) addr.toNat)))

/-- A host write (70_reset_and_hazards R298). -/
def hostWrite (width : AccessWidth) (addr value : Word) (s : State) : Host.Outcome State Fault Refusal :=
  busAccess s width addr.toNat (fun r => regWrite s value r)
    (s.setMem (Memory.writeLe (widthBytes width) addr.toNat value.toNat s.mem))

/-- One poll of `WAIT` (30_encoding R91): read STATUS; while BUSY is 1 the sequencer moves and the host polls again
(log 21). -/
def hostPoll (s : State) : State :=
  match s.phase with
  | .idle => s.setBusData (statusWord s)
  | .busy => (s.setBusData (statusWord s)).setTurns (.sequencer :: .host .poll :: s.turns)

end Sys2Proof.Machine
end

