-- ==== Sys2Proof/Machine/Sequencer.lean ====
section
/-! DEFINITION. The two agents' moves (10_state R20): the sequencer's completion step (40_control R101), the host's moves
(70_reset_and_hazards R298), and reset, also while a command is in flight (R280, R281). -/

namespace Sys2Proof.Machine

/-- perform(c) of a command (40_control R101), whatever the checks and the platform say. -/
def perform : Instr → State → State
  | .nop => performNop
  | .init => performInit
  | .loadL => performLoad .left
  | .loadR => performLoad .right
  | .loadM => performLoad .mixed
  | .loadX => performLoadX
  | .transform => performTransform
  | .extract => performExtract
  | .linear => performShape false
  | .log => performShape true
  | .bands => performBands
  | .clrerr => performClrerr

/-- The sequencer's move (40_control R101): complete the command in flight, a reserved word with its error code
(30_encoding R84 to R86); nothing while IDLE. -/
def sequencerTurn (s : State) : Host.Outcome State Fault Refusal :=
  match s.phase with
  | .idle => .next s
  | .busy =>
    match decode s.curCmd with
    | .cmd i => exec i s
    | .reserved k => .next (raiseErr (reservedCode k) s)

/-- Element `k` of an abandoned shaping command (70_reset_and_hazards R281): the value the command would have written
where the draw says so, else the value from before the issue (log 11). -/
def abandonElement (s : State) (written : Memory) (m : Memory) (k : Nat) : Memory :=
  if Config.abandonDraw s.draws k then
    Memory.write16 m (baseAddr s + 2 * k) (Memory.read16 written (baseAddr s + 2 * k))
  else m

/-- Host memory after a command is abandoned (70_reset_and_hazards R281): unchanged but for the elements of a shaping
command whose checks pass. -/
def abandonedMem (i : Instr) (s : State) : Memory :=
  if isShaper i && decide (check i s = .ok) then
    (List.range (accessLen s.cfg i / 2)).foldl (abandonElement s (perform i s).mem) s.mem
  else s.mem

/-- Host memory after a reset (70_reset_and_hazards R280, R281). -/
def memAfterReset (s : State) : Memory :=
  match s.phase with
  | .idle => s.mem
  | .busy =>
    match decode s.curCmd with
    | .cmd i => abandonedMem i s
    | .reserved _ => s.mem

/-- The platform reset (70_reset_and_hazards R280, R281): the FSU at its reset state, the configuration and host memory
kept; the host's own moves go on (log 11). -/
def resetFsu (s : State) : State :=
  { State.resetWith s.cfg with
    mem := memAfterReset s, turns := s.turns, busData := s.busData,
    draws := if busyBit s then s.draws + 1 else s.draws }

/-- A move of the host (70_reset_and_hazards R298). -/
def hostTurn (m : HostMove) (s : State) : Host.Outcome State Fault Refusal :=
  match m with
  | .read width addr => hostRead width addr s
  | .write width addr value => hostWrite width addr value s
  | .poll => .next (hostPoll s)
  | .reset => .next (resetFsu s)

/-- The next move (10_state R20; 40_control R103; log 3): the first of `turns`, or the sequencer's when there is none.
An ill-formed configuration is refused (00_scope R9). -/
def nextTurn (s : State) : Host.Outcome State Fault Refusal :=
  if configWf s.cfg then
    match s.turns with
    | [] => sequencerTurn s
    | .sequencer :: ts => sequencerTurn (s.setTurns ts)
    | .host m :: ts => hostTurn m (s.setTurns ts)
  else .refused .illFormedConfig

/-- The moves left once the sequencer is to move next. -/
def sequencerFirst : List Turn → List Turn
  | [] => []
  | t :: ts => .sequencer :: t :: ts

/-- A command word issued (40_control R100), with the sequencer's move next (log 4). -/
def placeCommand (w : Word) (s : State) : State := (issue w s).setTurns (sequencerFirst s.turns)

end Sys2Proof.Machine
end

