-- ==== Sys2Proof/Machine/Step.lean ====
section
/-! DEFINITION. One step of the machine (00_scope R6): one move of one agent; and the placing of a command to run next. -/

namespace Sys2Proof.Machine

/-- One step: the next move (Machine/Sequencer.lean). -/
def step (s : State) : Host.Outcome State Fault Refusal := nextTurn s

/-- The command word `w` in flight, as the host's CMD write issues it (40_control R100), and the sequencer to move next:
the next step completes it (log 4). A command is one 32-bit word (30_encoding R80). -/
def State.withFetchWord (s : State) (_nbits w : Nat) : State := placeCommand (BitVec.ofNat 32 w) s

end Sys2Proof.Machine
end

