-- ==== Sys2Proof/Machine/HostAsm.lean ====
section
/-! DEFINITION. The host program lines of 30_encoding R90 and the pseudo-instructions of R91, as lists of turns. A line
names a register; its address is REG_BASE + offset (10_state R22). -/

namespace Sys2Proof.Machine

/-- The offset of a register (10_state R22); the first of the reserved ones stands for them. -/
def regOffset : Reg → Nat
  | .id => 0x00
  | .cmd => 0x04
  | .status => 0x08
  | .argAddr => 0x0C
  | .argScale => 0x10
  | .argRange => 0x14
  | .config0 => 0x18
  | .config1 => 0x1C
  | .config2 => 0x20
  | .reserved => 0x24

/-- The host address of a register. -/
def regAddr (c : Config) (r : Reg) : Word := c.regBase + BitVec.ofNat 32 (regOffset r)

/-- `wr REG, v`. -/
def asmWr (c : Config) (r : Reg) (v : Word) : List Turn := [.host (.write .word (regAddr c r) v)]

/-- `rd REG`. -/
def asmRd (c : Config) (r : Reg) : List Turn := [.host (.read .word (regAddr c r))]

/-- `.cmd w`. -/
def asmWord (c : Config) (w : Word) : List Turn := asmWr c .cmd w

/-- A command mnemonic. -/
def asmCmd (c : Config) (i : Instr) : List Turn := asmWord c (encode i)

/-- `mem.h a, v`. -/
def asmMemWrite (a : Word) (v : Half) : List Turn := [.host (.write .half a (v.setWidth 32))]

/-- `mem.h? a`. -/
def asmMemRead (a : Word) : List Turn := [.host (.read .half a)]

/-- `WAIT`. -/
def asmWait : List Turn := [.host .poll]

/-- `DO op`, with `op` one of the twelve command mnemonics. Whether R91 lets a `.cmd` line follow DO is left open; that it
does not here is the model's choice (log 25), and `asmWord` before `asmWait` is that program. -/
def asmDo (c : Config) (i : Instr) : List Turn := asmCmd c i ++ asmWait

/-- `SETADDR a`. -/
def asmSetAddr (c : Config) (a : Word) : List Turn := asmWr c .argAddr a

/-- `SETSCALE x`, the binary32 pattern of x given. -/
def asmSetScale (c : Config) (x : Word) : List Turn := asmWr c .argScale x

/-- `SETRANGE lo, hi`. -/
def asmSetRange (c : Config) (lo hi : Half) : List Turn := asmWr c .argRange (hi ++ lo)

/-- `CHECK`: read STATUS; `checkFails` of Safety.lean reads the value. R91 says only that the program then fails, not whether
its later lines still run; that they do here is the model's choice (log 26). -/
def asmCheck (c : Config) : List Turn := asmRd c .status

/-- The `ch` of `FRAME ch, raw, x`: the last letter of one of the four LOAD mnemonics (30_encoding R90). -/
inductive FrameChannel where
  | l
  | r
  | m
  | x
  deriving DecidableEq, Repr

/-- `LOAD.ch`. -/
def loadOf : FrameChannel → Instr
  | .l => .loadL
  | .r => .loadR
  | .m => .loadM
  | .x => .loadX

/-- `FRAME ch, raw, x`. -/
def asmFrame (c : Config) (ch : FrameChannel) (raw x : Word) : List Turn :=
  asmSetAddr c raw ++ asmDo c (loadOf ch) ++ asmDo c .transform ++ asmSetScale c x ++ asmDo c .extract

end Sys2Proof.Machine
end

