-- ==== Sys2Proof/Safety.lean ====
section
/-! DEFINITION. What claims call a clean start, a finished run and a failed check (70_reset_and_hazards R299, R300;
30_encoding R91), and the invariant of every state the machine can be in. -/

namespace Sys2Proof.Machine

/-- `FSU_CLEAN` (70_reset_and_hazards R300): IDLE, STATUS = 0x00010002, TD and SPEC unwritten, DELAY all 0. -/
def fsuClean (s : State) : Bool :=
  decide (s.phase = .idle) && decide (statusWord s = 0x00010002#32) &&
    decide (s.td = List.replicate s.cfg.n none) && decide (s.spec = List.replicate s.cfg.n none) &&
    decide (s.delay = List.replicate s.cfg.bandN 0)

/-- The turn is a move of the host (10_state R20). -/
def Turn.isHost : Turn → Bool
  | .host _ => true
  | .sequencer => false

/-- The run of a host program is over (70_reset_and_hazards R299): the host has made its last move, so that only turns of
the sequencer may still be listed, and PHASE is IDLE. -/
def runOver (s : State) : Bool := s.turns.all (fun t => !t.isHost) && decide (s.phase = .idle)

/-- The value `CHECK` reads says that the program failed (30_encoding R91): bit 4 (ERR) or bit 5 (OVR) is 1. -/
def checkFails (statusRead : Word) : Bool := statusRead.getLsbD 4 || statusRead.getLsbD 5

/-- The command in flight is stuck (20_memory R62; 60_exceptions R261): it is a command whose checks pass and whose access
range holds a byte the platform does not admit. -/
def stuck (s : State) : Bool :=
  match s.phase, decode s.curCmd with
  | .busy, .cmd i => decide (check i s = .ok) && !accessible i s
  | .busy, .reserved _ => false
  | .idle, _ => false

/-- Every entry of the list has been written. -/
def allWritten {α : Type} (l : List (Option α)) : Bool := l.all Option.isSome

/-- The invariant: TD and SPEC have N entries and DELAY BAND_N (10_state R35 to R37); TD is wholly written once TD_VALID
is 1 and SPEC once SPEC_VALID is 1 (R35, R36: an unwritten entry is never read); every counter of DELAY is at most
BAND_DELAY (R37); a nonzero ERRCODE leaves ERR set (R25); host memory is canonical and within 2^32 (20_memory R60). -/
structure Inv (s : State) : Prop where
  tdLength    : s.td.length = s.cfg.n
  specLength  : s.spec.length = s.cfg.n
  delayLength : s.delay.length = s.cfg.bandN
  tdWritten   : s.status.tdValid = true → allWritten s.td = true
  specWritten : s.status.specValid = true → allWritten s.spec = true
  delayBound  : ∀ d ∈ s.delay, d.toNat ≤ s.cfg.bandDelay.toNat
  errSticky   : s.status.errcode ≠ .ok → s.status.err = true
  memWf       : Memory.wf s.mem = true
  memInSpace  : Memory.inSpace s.mem = true

end Sys2Proof.Machine
end

