-- ==== Sys2Proof/Certificates/Slice0/Obligations.lean ====
section
/-! DEFINITION. The statements for the provers. Each docstring names the rules of spec/ it formalises. The definitions of
Sys2Proof.Claims are the vocabulary of the statements. -/

namespace Sys2Proof.Claims

open Sys2Proof.Machine

/-- The sequencer has the next move. -/
def SequencerMoves (s : State) : Prop := s.turns = [] ∨ ∃ ts, s.turns = .sequencer :: ts

/-- The host has the next move, and it is `m`. -/
def HostMoves (m : HostMove) (s : State) : Prop := ∃ ts, s.turns = .host m :: ts

/-- The next step is the completion step of command `i`. -/
def Completes (i : Instr) (s : State) : Prop :=
  SequencerMoves s ∧ s.phase = .busy ∧ decode s.curCmd = .cmd i

/-- The host is the next to move, with a 32-bit read of offset `off` of the register block. -/
def ReadsRegister (off : Nat) (ts : List Turn) (s : State) : Prop :=
  s.turns = .host (.read .word (s.cfg.regBase + BitVec.ofNat 32 off)) :: ts

/-- The host is the next to move, with a 32-bit write of `w` to offset `off` of the register block. -/
def WritesRegister (off : Nat) (w : Word) (ts : List Turn) (s : State) : Prop :=
  s.turns = .host (.write .word (s.cfg.regBase + BitVec.ofNat 32 off) w) :: ts

/-- No byte of the access of `n` bytes from `a` lies in the access range of a command in flight (20_memory R65). -/
def ClearOfRange (a n : Nat) (s : State) : Prop :=
  ∀ i, s.phase = .busy → decode s.curCmd = .cmd i → ∀ k < n,
    a + k < s.curAddr.toNat ∨ s.curAddr.toNat + accessLen s.cfg i ≤ a + k

/-- The access of `n` bytes from `a` lies in host memory: within the address space and off the register block (20_memory
R60, R61). -/
def InHostMemory (a n : Nat) (s : State) : Prop :=
  a + n ≤ 2 ^ 32 ∧ (a + n ≤ s.cfg.regBase.toNat ∨ s.cfg.regBase.toNat + 64 ≤ a)

/-- CUR_ADDR passes ALIGN and RANGE on a range of `len` bytes (20_memory R65). -/
def AddrOk (len : Nat) (s : State) : Prop := s.curAddr.toNat % 2 = 0 ∧ s.curAddr.toNat + len ≤ 2 ^ 32

/-- HOSTMEM_OK holds for `len` bytes from CUR_ADDR (20_memory R62). -/
def Admitted (len : Nat) (s : State) : Prop := ∀ k < len, hostmemOk s.cfg (s.curAddr.toNat + k) = true

/-- MINVAL and MAXVAL of CUR_RANGE (10_state R30; 30_encoding R89). -/
def MinVal (s : State) : Nat := s.curRange.toNat % 65536
def MaxVal (s : State) : Nat := s.curRange.toNat / 65536

/-- What a success leaves of PHASE and STATUS besides the command's own flags (40_control R101). -/
def Succeeded (s t : State) : Prop := t.phase = .idle ∧ t.status.errcode = .ok ∧ t.status.lastop = s.status.lastop

/-- The commands that name an address, with LEN (60_exceptions R251). -/
def len (c : Config) : Instr → Option Nat
  | .loadL => some (8 * c.n)
  | .loadR => some (8 * c.n)
  | .loadM => some (8 * c.n)
  | .loadX => some (8 * c.n)
  | .linear => some (2 * c.fftOutN)
  | .log => some (2 * c.fftOutN)
  | .bands => some (2 * c.bandN)
  | .nop => none
  | .init => none
  | .transform => none
  | .extract => none
  | .clrerr => none

/-- The code check(c) gives a command, as the list of 60_exceptions R251 reads. -/
def checkList (i : Instr) (s : State) : ErrCode :=
  if i = .nop ∨ i = .init ∨ i = .clrerr then .ok
  else if s.status.tblValid = false then .noinit
  else if (i = .transform ∨ i = .extract) ∧ s.status.tdValid = false then .nodata
  else if (i = .linear ∨ i = .log ∨ i = .bands) ∧ s.status.specValid = false then .nodata
  else if (len s.cfg i).isSome = true ∧ s.curAddr.toNat % 2 = 1 then .align
  else if ((len s.cfg i).getD 0) + s.curAddr.toNat > 2 ^ 32 then .range
  else if (i = .linear ∨ i = .log ∨ i = .bands) ∧ MinVal s > MaxVal s then .minmax
  else .ok

/-- The int16 at byte `off` of slot `i` of the raw block (42_load R140), from its two bytes. -/
def slotInt (s : State) (i off : Nat) : Int :=
  (Memory.read s.mem (s.curAddr.toNat + 8 * i + off + 1) ++ Memory.read s.mem (s.curAddr.toNat + 8 * i + off) :
    BitVec 16).toInt

/-- The selected real sample of slot `i` (42_load R143). -/
def sampleRe (ch : Channel) (s : State) (i : Nat) : F32 :=
  match ch with
  | .left => i2f (slotInt s i 0)
  | .right => i2f (slotInt s i 2)
  | .mixed => fmul (fadd (i2f (slotInt s i 0)) (i2f (slotInt s i 2))) (.ofBits 0x3F000000#32)

/-- The selected imaginary sample of slot `i` (42_load R143). -/
def sampleIm (ch : Channel) (s : State) (i : Nat) : F32 :=
  match ch with
  | .left => i2f (slotInt s i 4)
  | .right => i2f (slotInt s i 6)
  | .mixed => fmul (fadd (i2f (slotInt s i 4)) (i2f (slotInt s i 6))) (.ofBits 0x3F000000#32)

/-- What LOAD.L, LOAD.R or LOAD.M leaves (42_load R141, R142): every slot windowed, at its bit-reversed place. -/
def Loaded (ch : Channel) (s t : State) : Prop :=
  Succeeded s t ∧ t.status.tdValid = true ∧ ∀ i < s.cfg.n,
    t.td[bitrev s.cfg.log2n i]? =
      some (some ⟨fmul (sampleRe ch s i) (romWin s.cfg (2 * i)), fmul (sampleIm ch s i) (romWin s.cfg (2 * i + 1))⟩)

/-- One stage as one simultaneous update (43_fft R165, R166), on the entries of TD by index: entry `k` is a first output
in the lower half of its block and a second output in the upper half, of the OLD entries. -/
def stageAtOnce (c : Config) (s : Nat) (e : Nat → Cplx) (k : Nat) : Cplx :=
  if k % 2 ^ s < 2 ^ (s - 1) then
    cadd (e k) (cmul (romTw c (k % 2 ^ s * (c.n / 2 ^ s))) (e (k + 2 ^ (s - 1))))
  else
    csub (e (k - 2 ^ (s - 1))) (cmul (romTw c ((k % 2 ^ s - 2 ^ (s - 1)) * (c.n / 2 ^ s))) (e k))

/-- The stages 1, ..., LOG2N, each at once. -/
def networkAtOnce (c : Config) (e : Nat → Cplx) : Nat → Cplx :=
  (List.range c.log2n).foldl (fun e s => stageAtOnce c (s + 1) e) e

/-- The amplitude of 44_extract R182: 0.5·|z| / N · scaleFactor. -/
def amplitudeOf (s : State) (z : Cplx) : F32 :=
  fmul (fdiv (fmul (.ofBits 0x3F000000#32) (cmag z)) (i2f s.cfg.n)) (.ofBits s.curScale)

/-- The partner of entry `i` (44_extract R181). -/
def partner (s : State) (i : Nat) : Cplx := conj (tdEntry s.td (s.cfg.n - 1 - i))

/-- What EXTRACT leaves (44_extract R182, R183). -/
def Extracted (s t : State) : Prop :=
  Succeeded s t ∧ t.status.specValid = true ∧ ∀ i < s.cfg.h,
    t.spec[2 * i + 1]? = some (some (amplitudeOf s (csub (tdEntry s.td i) (partner s i)))) ∧
    t.spec[2 * i]? = some (some
      (if i = 0 then fmul (amplitudeOf s (cadd (tdEntry s.td i) (partner s i))) (.ofBits 0x3F000000#32)
       else amplitudeOf s (cadd (tdEntry s.td i) (partner s i))))

/-- What a shaping command leaves of PHASE and STATUS: nothing but a success (45_binners R205; 46_bands R228). -/
def ShaperStatus (s t : State) : Prop := t.phase = .idle ∧ t.status = { s.status with errcode := .ok }

/-- The loop `acc <- fadd(acc, term j)` for `j = 0, ..., n-1`, from `start` on (00_scope R15). -/
def accumulate (start : F32) (term : Nat → F32) : Nat → F32
  | 0 => start
  | n + 1 => fadd (accumulate start term n) (term n)

/-- `M`, and `AVG(k)` over the `M` bins of group `k` (45_binners R200, R201). -/
def groupSize (s : State) : Nat := s.cfg.n / s.cfg.fftOutN
def groupAverage (s : State) (k : Nat) : F32 :=
  fdiv (accumulate (.ofBits 0x00000000#32) (fun j => specEntry s.spec (k * groupSize s + j)) (groupSize s))
    (i2f (groupSize s))

/-- `LOGC(AVG(k))` (45_binners R202). -/
def compressedAverage (s : State) (k : Nat) : F32 :=
  fmul (.ofBits 0x41A00000#32) (log10 s.cfg.log10 (fadd (.ofBits 0x3F800000#32) (groupAverage s k)))

/-- What LINEAR or LOG leaves (45_binners R203, R204): every element from its OLD word, `y` its shaped value. -/
def Shaped (y : Nat → F32) (s t : State) : Prop :=
  ShaperStatus s t ∧ ∀ k < s.cfg.fftOutN,
    Memory.read16 t.mem (s.curAddr.toNat + 2 * k) =
      clampCvt
        (fmul (fadd (i2f (Memory.read16 s.mem (s.curAddr.toNat + 2 * k)).toNat)
          (fdiv (fmul (y k) (i2f (MaxVal s))) (.ofBits 0x42200000#32))) (.ofBits 0x3F000000#32))
        (BitVec.ofNat 16 (MinVal s)) (BitVec.ofNat 16 (MaxVal s))

/-- The word of band `b` before the command, and its decayed value (46_bands R224). -/
def oldWord (s : State) (b : Nat) : Nat := (Memory.read16 s.mem (s.curAddr.toNat + 2 * b)).toNat
def decayedWord (s : State) (b : Nat) : Nat := oldWord s b - (s.cfg.bandFade.toNat - (delayEntry s.delay b).toNat)

/-- The units of 2^-149 of a boundary, and `a = ceil(BND[b])` and `c = floor(BND[b+1])` on them (46_bands R220). -/
def boundaryUnits (c : Config) (b : Nat) : Nat :=
  match romBnd c b with
  | .fin _ x => unitsOf x
  | .inf _ => 0
  | .nan => 0
def bandFirst (c : Config) (b : Nat) : Nat := (boundaryUnits c b + (2 ^ 149 - 1)) / 2 ^ 149
def bandLast (c : Config) (b : Nat) : Nat := boundaryUnits c (b + 1) / 2 ^ 149

/-- `BANDSUM(b)` (46_bands R221, R222): the narrow form where `c < a`, else bin `a-1`, the full bins `a, ..., c-1` and bin
`c`, each added in that order. -/
def bandSumOf (s : State) (b : Nat) : F32 :=
  if bandLast s.cfg b < bandFirst s.cfg b then
    fmul (specEntry s.spec (bandLast s.cfg b)) (fsub (romBnd s.cfg (b + 1)) (romBnd s.cfg b))
  else
    fadd
      (accumulate
        (fmul (specEntry s.spec (bandFirst s.cfg b - 1)) (fsub (i2f (bandFirst s.cfg b)) (romBnd s.cfg b)))
        (fun j => specEntry s.spec (bandFirst s.cfg b + j)) (bandLast s.cfg b - bandFirst s.cfg b))
      (fmul (specEntry s.spec (bandLast s.cfg b)) (fsub (romBnd s.cfg (b + 1)) (i2f (bandLast s.cfg b))))

/-- `BANDVAL(b)` (46_bands R223). -/
def bandValOf (s : State) (b : Nat) : F32 :=
  fmul (.ofBits 0x41A00000#32)
    (log10 s.cfg.log10
      (fdiv (fdiv (fmul (bandSumOf s b) (i2f s.cfg.bandN)) (i2f s.cfg.n)) (.ofBits 0x41400000#32)))

/-- What BANDS leaves (46_bands R225, R226, R227): every band from its OLD word and counter. -/
def Banded (s t : State) : Prop :=
  ShaperStatus s t ∧ ∀ b < s.cfg.bandN,
    if fgt (bandValOf s b) (i2f (decayedWord s b)) then
      Memory.read16 t.mem (s.curAddr.toNat + 2 * b) =
        clampCvt (bandValOf s b) (BitVec.ofNat 16 (MinVal s)) (BitVec.ofNat 16 (MaxVal s)) ∧
      t.delay[b]? = some s.cfg.bandDelay
    else
      Memory.read16 t.mem (s.curAddr.toNat + 2 * b) =
        clampCvt (i2f (decayedWord s b)) (BitVec.ofNat 16 (MinVal s)) (BitVec.ofNat 16 (MaxVal s)) ∧
      t.delay[b]? = some (BitVec.ofNat 16 ((delayEntry s.delay b).toNat - 1))

/-- The conditions under which LINEAR or LOG executes normally (45_binners R205; 20_memory R62). -/
def BinnerReady (s : State) : Prop :=
  s.status.tblValid = true ∧ s.status.specValid = true ∧ AddrOk (2 * s.cfg.fftOutN) s ∧
    Admitted (2 * s.cfg.fftOutN) s ∧ MinVal s ≤ MaxVal s

/-- The conditions under which BANDS executes normally (46_bands R228; 20_memory R62). -/
def BandsReady (s : State) : Prop :=
  s.status.tblValid = true ∧ s.status.specValid = true ∧ AddrOk (2 * s.cfg.bandN) s ∧
    Admitted (2 * s.cfg.bandN) s ∧ MinVal s ≤ MaxVal s

/-- Every entry of SPEC is a zero of some sign. -/
def ZeroSpectrum (s : State) : Prop := ∀ j < s.cfg.n, ∃ a, specEntry s.spec j = .fin a 0

/-- `r` is the real number of sign `neg` and magnitude `n / d` units of 2^-149 rounded to nearest, ties to even (00_scope
R11): an infinity from half a unit in the last place above the greatest finite value on, else a finite value than which no
other is closer, and which is even where another is as close. -/
def IsRounded (neg : Bool) (n d : Nat) (r : F32) : Prop :=
  if (2 ^ 25 - 1) * 2 ^ 252 * d ≤ n then r = .inf neg
  else ∃ x : Fin 0x7F800000, r = .fin neg x ∧ ∀ y : Fin 0x7F800000,
    |(unitsOf x * d : Int) - n| ≤ |(unitsOf y * d : Int) - n| ∧
    (|(unitsOf x * d : Int) - n| = |(unitsOf y * d : Int) - n| → x = y ∨ x.val % 2 = 0)

/-- The sum of two finite values rounds the exact sum; an exact zero sum is +0 unless both are negative (log 20). -/
def IsSum (a : Bool) (x : Fin 0x7F800000) (b : Bool) (y : Fin 0x7F800000) (r : F32) : Prop :=
  let z : Int := (if a then -(unitsOf x : Int) else unitsOf x) + (if b then -(unitsOf y : Int) else unitsOf y)
  if z = 0 then r = .fin (a && b) 0 else IsRounded (decide (z < 0)) z.natAbs 1 r

/-- A word clamped to [minVal, maxVal] as an integer. -/
def clampNat (s : State) (p : Nat) : Nat := max (MinVal s) (min (MaxVal s) p)

end Sys2Proof.Claims

section

open Sys2Proof Sys2Proof.Machine Sys2Proof.Claims

/-! ## Encoding -/

/-- 30_encoding R80, R83: the twelve words, written out bit by bit (RSV, CH, OP), decode to the commands they stand for. -/
def Obligations.WrittenOutWordsDecode : Prop :=
  decode 0b00000000000000000000000000_00_0000#32 = .cmd .nop ∧
  decode 0b00000000000000000000000000_00_0001#32 = .cmd .init ∧
  decode 0b00000000000000000000000000_00_0010#32 = .cmd .loadL ∧
  decode 0b00000000000000000000000000_01_0010#32 = .cmd .loadR ∧
  decode 0b00000000000000000000000000_10_0010#32 = .cmd .loadM ∧
  decode 0b00000000000000000000000000_11_0010#32 = .cmd .loadX ∧
  decode 0b00000000000000000000000000_00_0011#32 = .cmd .transform ∧
  decode 0b00000000000000000000000000_00_0100#32 = .cmd .extract ∧
  decode 0b00000000000000000000000000_00_0101#32 = .cmd .linear ∧
  decode 0b00000000000000000000000000_00_0110#32 = .cmd .log ∧
  decode 0b00000000000000000000000000_00_0111#32 = .cmd .bands ∧
  decode 0b00000000000000000000000000_00_1000#32 = .cmd .clrerr

/-- 30_encoding R88 with R84 to R86: every word is exactly one of a reserved opcode, a reserved-field word, or the word
of a command, decided in that order. -/
def Obligations.DecoderPartitionsAllWords : Prop :=
  ∀ w : Word,
    (9 ≤ w.toNat % 16 → decode w = .reserved .badop) ∧
    (w.toNat % 16 < 9 → w.toNat / 64 ≠ 0 → decode w = .reserved .rsvd) ∧
    (w.toNat % 16 < 9 → w.toNat / 64 = 0 → w.toNat % 16 ≠ 2 → w.toNat / 16 ≠ 0 → decode w = .reserved .rsvd) ∧
    (w.toNat % 16 < 9 → w.toNat / 64 = 0 → (w.toNat % 16 = 2 ∨ w.toNat / 16 = 0) →
      ∃ i, decode w = .cmd i ∧ (opcodeOf i).toNat = w.toNat % 16 ∧ (channelOf i).toNat = w.toNat / 16)

/-- 30_encoding R83, R88: decoding and encoding agree, in both directions, on every word: a word decodes to a command
exactly when it is the command's word. -/
def Obligations.DecodeEncodeAgree : Prop := ∀ (i : Instr) (w : Word), decode w = .cmd i ↔ w = encode i

/-- 30_encoding R80, R81: the three fields are the whole word, and every combination of fields is the word's. -/
def Obligations.FieldsAndWordRoundTrip : Prop :=
  (∀ w : Word, wordOf (fieldsOf w) = w) ∧ (∀ f : CmdFields, fieldsOf (wordOf f) = f)

/-! ## Steps -/

/-- 40_control R101: a step at which the sequencer has the move, with a command in flight, is exec of that command (after
the turn is taken off the list of moves, where it was listed; the list is the model's own field, log 3). -/
def Obligations.StepRunsTheDecodedCommand : Prop :=
  ∀ (s : State) (i : Instr), configWf s.cfg = true → s.phase = .busy → decode s.curCmd = .cmd i →
    (s.turns = [] → step s = exec i s) ∧
    (∀ ts, s.turns = .sequencer :: ts → step s = exec i { s with turns := ts })

/-- 40_control R100, R101; log 4 (the model's choice of how a command is placed): the step after withFetchWord is exec of
the placed command on the issued state. -/
def Obligations.PlacedCommandRunsNext : Prop :=
  ∀ (s : State) (nbits w : Nat) (i : Instr), configWf s.cfg = true → decode (BitVec.ofNat 32 w) = .cmd i →
    step (s.withFetchWord nbits w) =
      exec i { s with
        curCmd := BitVec.ofNat 32 w, curAddr := s.argAddr, curScale := s.argScale, curRange := s.argRange,
        status := { s.status with lastop := BitVec.ofNat 4 w }, phase := .busy }

/-- 00_scope R9: a machine with an ill-formed configuration is refused, whatever else its state. -/
def Obligations.IllFormedConfigurationRefused : Prop :=
  ∀ s : State, configWf s.cfg = false → step s = .refused .illFormedConfig

/-- 40_control R100: a host write of any word to CMD while IDLE latches the word and the operand registers, sets LASTOP
and goes BUSY; nothing else changes (but the host's move, which is used up: log 3). -/
def Obligations.CmdWriteIssues : Prop :=
  ∀ (s : State) (ts : List Turn) (w : Word), configWf s.cfg = true → WritesRegister 0x04 w ts s → s.phase = .idle →
    step s = .next { s with
      turns := ts, curCmd := w, curAddr := s.argAddr, curScale := s.argScale, curRange := s.argRange,
      status := { s.status with lastop := BitVec.ofNat 4 w.toNat }, phase := .busy }

/-- 40_control R102: a host write of any word to CMD while BUSY is discarded and sets OVR; every other field is unchanged
(but the host's move, which is used up: log 3). -/
def Obligations.CmdWriteWhileBusyOverruns : Prop :=
  ∀ (s : State) (ts : List Turn) (w : Word), configWf s.cfg = true → WritesRegister 0x04 w ts s → s.phase = .busy →
    step s = .next { s with turns := ts, status := { s.status with ovr := true } }

/-- 30_encoding R84 to R86: a reserved word in flight completes with its code, ERR set and no other effect, whether the
sequencer's turn is listed (it is then used up: log 3) or not. -/
def Obligations.ReservedWordsCompleteWithTheirCode : Prop :=
  ∀ s : State, configWf s.cfg = true → SequencerMoves s → s.phase = .busy →
    (9 ≤ s.curCmd.toNat % 16 →
      step s = .next { s with
        turns := s.turns.tail, phase := .idle, status := { s.status with errcode := .badop, err := true } }) ∧
    (s.curCmd.toNat % 16 < 9 → (64 ≤ s.curCmd.toNat ∨ (s.curCmd.toNat % 16 ≠ 2 ∧ 16 ≤ s.curCmd.toNat)) →
      step s = .next { s with
        turns := s.turns.tail, phase := .idle, status := { s.status with errcode := .rsvd, err := true } })

/-! ## The register block -/

/-- 10_state R22, R23, R24, R27 to R33: a 32-bit read of each offset hands over the register's value, 0 for CMD and for a
reserved offset, and has no side effect. The value is handed over in the model's own field busData (log 5). -/
def Obligations.RegisterReadsHaveNoSideEffect : Prop :=
  ∀ (s : State) (ts : List Turn) (off : Nat) (v : Word), configWf s.cfg = true → ReadsRegister off ts s →
    (off, v) ∈ [(0x00, 0x46535531#32), (0x04, 0#32), (0x08, statusWord s), (0x0C, s.argAddr), (0x10, s.argScale),
      (0x14, s.argRange), (0x18, config0Word s.cfg), (0x1C, config1Word s.cfg), (0x20, config2Word s.cfg),
      (0x24, 0#32), (0x28, 0#32), (0x2C, 0#32), (0x30, 0#32), (0x34, 0#32), (0x38, 0#32), (0x3C, 0#32)] →
    step s = .next { s with turns := ts, busData := v }

/-- 10_state R22, R23, R28 to R30: a 32-bit write to an operand register stores every bit; a write to a read-only register
or a reserved offset has no effect. -/
def Obligations.RegisterWrites : Prop :=
  ∀ (s : State) (ts : List Turn) (off : Nat) (w : Word), configWf s.cfg = true → WritesRegister off w ts s →
    (off = 0x0C → step s = .next { s with turns := ts, argAddr := w }) ∧
    (off = 0x10 → step s = .next { s with turns := ts, argScale := w }) ∧
    (off = 0x14 → step s = .next { s with turns := ts, argRange := w }) ∧
    (off ∈ [0x00, 0x08, 0x18, 0x1C, 0x20, 0x24, 0x28, 0x2C, 0x30, 0x34, 0x38, 0x3C] →
      step s = .next { s with turns := ts })

/-- 10_state R23: a host access that touches the register block and is not 32 bits wide, or not at an offset that is a
multiple of 4, is refused, also where it only partly touches the block (log 15). -/
def Obligations.OtherRegisterAccessesRefused : Prop :=
  ∀ (s : State) (width : AccessWidth) (a w : Word), configWf s.cfg = true →
    s.cfg.regBase.toNat < a.toNat + widthBytes width → a.toNat < s.cfg.regBase.toNat + 64 →
    (width ≠ .word ∨ a.toNat % 4 ≠ 0) →
    (HostMoves (.read width a) s → step s = .refused .registerAccessForm) ∧
    (HostMoves (.write width a w) s → step s = .refused .registerAccessForm)

/-- 10_state R21, R25; 60_exceptions R250: the STATUS word, as a number: each field at its place, every reserved bit 0. -/
def Obligations.StatusWordLayout : Prop :=
  ∀ s : State, (statusWord s).toNat =
    (if s.phase = .busy then 1 else 0) + 2 * s.status.tblValid.toNat + 4 * s.status.tdValid.toNat +
    8 * s.status.specValid.toNat + 16 * s.status.err.toNat + 32 * s.status.ovr.toNat +
    256 * ([ErrCode.ok, .badop, .rsvd, .noinit, .nodata, .align, .range, .minmax].idxOf s.status.errcode) +
    65536 * s.status.lastop.toNat

/-- 10_state R31 to R33: the CONFIG words of a well-formed configuration, as numbers. -/
def Obligations.ConfigWordLayout : Prop :=
  ∀ c : Config, configWf c = true →
    (config0Word c).toNat = c.log2n + 65536 * c.fftOutN ∧
    (config1Word c).toNat = c.bandN + 65536 * c.twdenIsN.toNat ∧
    (config2Word c).toNat = c.bandFade.toNat + 65536 * c.bandDelay.toNat

/-! ## Checks, errors, stuck commands -/

/-- 60_exceptions R251: the checks of every command, in their order. -/
def Obligations.ChecksInOrder : Prop := ∀ (i : Instr) (s : State), check i s = checkList i s

/-- 60_exceptions R252: a command whose check gives a code other than OK, and a reserved word, complete with that code
and ERR set, and have no other effect (but that a listed turn of the sequencer is used up: log 3). -/
def Obligations.FailedCheckIsAnErrorCompletion : Prop :=
  (∀ (i : Instr) (s : State), checkList i s ≠ .ok →
    exec i s = .next { s with phase := .idle, status := { s.status with errcode := checkList i s, err := true } }) ∧
  (∀ (s : State) (k : ReservedKind), configWf s.cfg = true → SequencerMoves s → s.phase = .busy →
    decode s.curCmd = .reserved k →
    step s = .next { s with
      turns := s.turns.tail, phase := .idle,
      status := { s.status with errcode := (match k with | .badop => .badop | .rsvd => .rsvd), err := true } })

/-- 20_memory R62; 60_exceptions R261: a stuck command stays stuck through every step but a reset: BUSY stays 1, no code
is written, and the four latches and the FSU memories are unchanged. That the sequencer's turn leaves a stuck machine as it is
rests on log 10. -/
def Obligations.StuckUntilReset : Prop :=
  ∀ s t : State, stuck s = true → step s = .next t → ¬ HostMoves .reset s →
    stuck t = true ∧ t.phase = .busy ∧ t.status.errcode = s.status.errcode ∧ t.curCmd = s.curCmd ∧
    t.curAddr = s.curAddr ∧ t.curScale = s.curScale ∧ t.curRange = s.curRange ∧
    t.td = s.td ∧ t.spec = s.spec ∧ t.delay = s.delay

/-! ## Completion of every command -/

/-- 40_control R104, R105; 41_tables R128: NOP, CLRERR and INIT complete in every state, with exactly these effects. -/
def Obligations.NopInitClrerrComplete : Prop :=
  ∀ s : State,
    exec .nop s = .next { s with phase := .idle, status := { s.status with errcode := .ok } } ∧
    exec .init s = .next { s with phase := .idle, status := { s.status with errcode := .ok, tblValid := true } } ∧
    exec .clrerr s =
      .next { s with phase := .idle, status := { s.status with errcode := .ok, err := false, ovr := false } }

/-- 42_load R147: LOAD.X, its checks passed, changes nothing but ERRCODE and PHASE, whatever HOSTMEM_OK says. -/
def Obligations.LoadXCompletes : Prop :=
  ∀ s : State, s.status.tblValid = true → AddrOk (8 * s.cfg.n) s →
    exec .loadX s = .next { s with phase := .idle, status := { s.status with errcode := .ok } }

/-- 42_load R140 to R146: LOAD.L, LOAD.R and LOAD.M complete, and write every windowed slot at its bit-reversed place. -/
def Obligations.LoadsComplete : Prop :=
  ∀ s : State, s.status.tblValid = true → AddrOk (8 * s.cfg.n) s → Admitted (8 * s.cfg.n) s →
    s.td.length = s.cfg.n →
    (∃ t, exec .loadL s = .next t ∧ Loaded .left s t) ∧
    (∃ t, exec .loadR s = .next t ∧ Loaded .right s t) ∧
    (∃ t, exec .loadM s = .next t ∧ Loaded .mixed s t)

/-- 43_fft R164 to R168: TRANSFORM completes, and its loops of butterflies in place compute, stage by stage, the
simultaneous update of R166. -/
def Obligations.TransformIsStagesAtOnce : Prop :=
  ∀ s : State, s.status.tblValid = true → s.status.tdValid = true → s.td.length = s.cfg.n →
    ∃ t, exec .transform s = .next t ∧ t.phase = .idle ∧ t.status = { s.status with errcode := .ok } ∧
      t.td.length = s.cfg.n ∧
      ∀ k < s.cfg.n, tdEntry t.td k = networkAtOnce s.cfg (tdEntry s.td) k

/-- 44_extract R181 to R183: EXTRACT completes, and leaves the sum and difference amplitudes of every pair, with SPEC[0]
halved once more. -/
def Obligations.ExtractCompletes : Prop :=
  ∀ s : State, s.status.tblValid = true → s.status.tdValid = true → 1 ≤ s.cfg.log2n → s.spec.length = s.cfg.n →
    ∃ t, exec .extract s = .next t ∧ Extracted s t

/-- 45_binners R200 to R206: LINEAR and LOG complete, and blend every output word with the average of its group of bins
(LOG: compressed), the average written out as the loop of R201. -/
def Obligations.BinnersComplete : Prop :=
  ∀ s : State, BinnerReady s → Memory.wf s.mem = true →
    (∃ t, exec .linear s = .next t ∧ Shaped (groupAverage s) s t) ∧
    (∃ t, exec .log s = .next t ∧ Shaped (compressedAverage s) s t)

/-- 46_bands R220 to R228: BANDS completes, and steps every band from its old word and counter and the value of the band,
written out as the sum of R222 and the formula of R223. -/
def Obligations.BandsCompletes : Prop :=
  ∀ s : State, BandsReady s → Memory.wf s.mem = true → s.delay.length = s.cfg.bandN →
    ∃ t, exec .bands s = .next t ∧ Banded s t

/-! ## Frames -/

/-- 10_state R28 to R34; 60_exceptions R252, R253: no command (NOP, INIT, LOAD.L, LOAD.R, LOAD.M, LOAD.X, TRANSFORM,
EXTRACT, LINEAR, LOG, BANDS, CLRERR) writes an operand register, a latch, LASTOP, the configuration, or a field of the
model's own (log 3, 5, 11). -/
def Obligations.NoCommandWritesRegisters : Prop :=
  ∀ (i : Instr) (s t : State), exec i s = .next t →
    t.argAddr = s.argAddr ∧ t.argScale = s.argScale ∧ t.argRange = s.argRange ∧ t.curCmd = s.curCmd ∧
    t.curAddr = s.curAddr ∧ t.curScale = s.curScale ∧ t.curRange = s.curRange ∧
    t.status.lastop = s.status.lastop ∧ t.cfg = s.cfg ∧ t.turns = s.turns ∧ t.busData = s.busData ∧ t.draws = s.draws

/-- 10_state R35 to R37; 46_bands R233: only LOAD.L, LOAD.R, LOAD.M and TRANSFORM write TD, only EXTRACT writes SPEC, and
only BANDS writes DELAY. -/
def Obligations.InternalMemoryFrame : Prop :=
  ∀ (i : Instr) (s t : State), exec i s = .next t →
    (i ∉ [Instr.loadL, .loadR, .loadM, .transform] → t.td = s.td) ∧
    (i ≠ .extract → t.spec = s.spec) ∧ (i ≠ .bands → t.delay = s.delay)

/-- 20_memory R60, R65; 45_binners R205; 46_bands R228: LINEAR and LOG store only to the 2·FFT_OUT_N bytes from CUR_ADDR,
BANDS only to the 2·BAND_N bytes from it; NOP, INIT, the LOADs, TRANSFORM, EXTRACT and CLRERR store nothing. -/
def Obligations.HostMemoryFrame : Prop :=
  ∀ (i : Instr) (s t : State), exec i s = .next t → ∀ a : Nat,
    ((i = .linear ∨ i = .log) → (a < s.curAddr.toNat ∨ s.curAddr.toNat + 2 * s.cfg.fftOutN ≤ a) →
      Memory.read t.mem a = Memory.read s.mem a) ∧
    (i = .bands → (a < s.curAddr.toNat ∨ s.curAddr.toNat + 2 * s.cfg.bandN ≤ a) →
      Memory.read t.mem a = Memory.read s.mem a) ∧
    (i ∉ [Instr.linear, .log, .bands] → Memory.read t.mem a = Memory.read s.mem a)

/-- 10_state R25, R26; 60_exceptions R252, R253: what a completion does to STATUS. TBL_VALID changes only by INIT, TD_VALID
only by LOAD.L, LOAD.R or LOAD.M, SPEC_VALID only by EXTRACT, each only to 1; OVR changes only by CLRERR, to 0; ERR is set
only by a failing check and cleared only by CLRERR; ERRCODE is the code of the check, and the FSU is IDLE, unless the
command is stuck (its checks pass and HOSTMEM_OK rejects a byte of its access range: 20_memory R62) and the state stays as
it is (log 10). -/
def Obligations.FlagFrame : Prop :=
  ∀ (i : Instr) (s t : State), exec i s = .next t →
    (t.status.tblValid = s.status.tblValid ∨ (i = .init ∧ t.status.tblValid = true)) ∧
    (t.status.tdValid = s.status.tdValid ∨ (i ∈ [Instr.loadL, .loadR, .loadM] ∧ t.status.tdValid = true)) ∧
    (t.status.specValid = s.status.specValid ∨ (i = .extract ∧ t.status.specValid = true)) ∧
    (t.status.ovr = s.status.ovr ∨ (i = .clrerr ∧ t.status.ovr = false)) ∧
    (t.status.err = s.status.err ∨ (checkList i s ≠ .ok ∧ t.status.err = true) ∨
      (i = .clrerr ∧ t.status.err = false)) ∧
    ((t.status.errcode = checkList i s ∧ t.phase = .idle) ∨
      (checkList i s = .ok ∧ (∃ k < accessLen s.cfg i, hostmemOk s.cfg (s.curAddr.toNat + k) = false) ∧ t = s))

/-! ## Whole-machine rules -/

/-- The invariant holds right after reset, in every configuration (70_reset_and_hazards R280; the configuration of
State.reset is log 2, the empty host memory log 9). -/
def Obligations.InvariantAtReset : Prop := (∀ c : Config, Inv (State.resetWith c)) ∧ Inv State.reset

/-- Every step keeps the invariant `Inv` of Safety.lean (10_state R35 to R37; 20_memory R60): sizes, no unwritten entry
once the valid flag is set, counters within BAND_DELAY, canonical host memory. -/
def Obligations.StepKeepsInvariant : Prop := ∀ s t : State, Inv s → step s = .next t → Inv t

/-- 10_state R31; 00_scope R7: no step changes the configuration. -/
def Obligations.ConfigurationNeverChanges : Prop := ∀ s t : State, step s = .next t → t.cfg = s.cfg

/-- 10_state R25, R26: over all steps, TBL_VALID, TD_VALID and SPEC_VALID are set only by the completion of INIT, of
LOAD.L, LOAD.R or LOAD.M, and of EXTRACT, and cleared only by reset. -/
def Obligations.ValidFlagsOnlyByTheirEvents : Prop :=
  ∀ s t : State, step s = .next t → ¬ HostMoves .reset s →
    (t.status.tblValid ≠ s.status.tblValid → t.status.tblValid = true ∧ Completes .init s) ∧
    (t.status.tdValid ≠ s.status.tdValid →
      t.status.tdValid = true ∧ ∃ i ∈ [Instr.loadL, .loadR, .loadM], Completes i s) ∧
    (t.status.specValid ≠ s.status.specValid → t.status.specValid = true ∧ Completes .extract s)

/-- 10_state R25; 60_exceptions R253: over all steps, ERR and OVR, once 1, stay 1 until CLRERR completes or a reset. -/
def Obligations.StickyFlagsClearedOnlyByClrerrOrReset : Prop :=
  ∀ s t : State, step s = .next t → ¬ HostMoves .reset s → ¬ Completes .clrerr s →
    (s.status.err = true → t.status.err = true) ∧ (s.status.ovr = true → t.status.ovr = true)

/-- 46_bands R233; 10_state R37: over all steps, DELAY is changed only by the completion of BANDS and by reset. -/
def Obligations.DelayChangedOnlyByBandsOrReset : Prop :=
  ∀ s t : State, step s = .next t → t.delay ≠ s.delay → Completes .bands s ∨ HostMoves .reset s

/-- 10_state R34; 70_reset_and_hazards R292: a completion reads only the latched operands: other values in the operand
registers change nothing but those registers. -/
def Obligations.CompletionReadsOnlyTheLatches : Prop :=
  ∀ (i : Instr) (s : State) (a sc r : Word), ∃ t, exec i s = .next t ∧
    exec i { s with argAddr := a, argScale := sc, argRange := r } =
      .next { t with argAddr := a, argScale := sc, argRange := r }

/-- 10_state R35; 60_exceptions R251: while TD_VALID is 0 no command reads TD: other contents of TD change nothing but TD
itself, and not even that once a LOAD has set TD_VALID. -/
def Obligations.UnwrittenTdIsNeverRead : Prop :=
  ∀ (i : Instr) (s : State) (td' : List (Option Cplx)), s.status.tdValid = false → s.td.length = s.cfg.n →
    td'.length = s.cfg.n →
    ∃ t t', exec i s = .next t ∧ exec i { s with td := td' } = .next t' ∧ { t' with td := t.td } = t ∧
      (t.status.tdValid = true → t' = t)

/-- 10_state R36; 60_exceptions R251: while SPEC_VALID is 0 no command reads SPEC: other contents of SPEC change nothing
but SPEC itself, and not even that once an EXTRACT has set SPEC_VALID. -/
def Obligations.UnwrittenSpecIsNeverRead : Prop :=
  ∀ (i : Instr) (s : State) (sp' : List (Option F32)), s.status.specValid = false → 1 ≤ s.cfg.log2n →
    s.spec.length = s.cfg.n → sp'.length = s.cfg.n →
    ∃ t t', exec i s = .next t ∧ exec i { s with spec := sp' } = .next t' ∧ { t' with spec := t.spec } = t ∧
      (t.status.specValid = true → t' = t)

/-- 45_binners R207; 46_bands R229; 00_scope R16: CLAMPCVT case by case (a NaN, the infinities, and a finite value by its
units of 2^-149), and every word LINEAR, LOG or BANDS writes lies in [minVal, maxVal], for any SPEC and any previous
contents. -/
def Obligations.OutputWordsWithinRange : Prop :=
  (∀ lo hi : Half, lo ≤ hi →
    clampCvt .nan lo hi = lo ∧ clampCvt (.inf true) lo hi = lo ∧ clampCvt (.inf false) lo hi = hi ∧
    ∀ (neg : Bool) (x : Fin 0x7F800000), clampCvt (.fin neg x) lo hi =
      if signedUnits neg (unitsOf x) < lo.toNat * 2 ^ 149 then lo
      else if hi.toNat * 2 ^ 149 < signedUnits neg (unitsOf x) then hi
      else BitVec.ofNat 16 (unitsOf x / 2 ^ 149)) ∧
  ∀ s : State, Memory.wf s.mem = true →
    (BinnerReady s → ∀ i ∈ [Instr.linear, .log], ∃ t, exec i s = .next t ∧ ∀ k < s.cfg.fftOutN,
      MinVal s ≤ (Memory.read16 t.mem (s.curAddr.toNat + 2 * k)).toNat ∧
      (Memory.read16 t.mem (s.curAddr.toNat + 2 * k)).toNat ≤ MaxVal s) ∧
    (BandsReady s → ∃ t, exec .bands s = .next t ∧ ∀ k < s.cfg.bandN,
      MinVal s ≤ (Memory.read16 t.mem (s.curAddr.toNat + 2 * k)).toNat ∧
      (Memory.read16 t.mem (s.curAddr.toNat + 2 * k)).toNat ≤ MaxVal s)

/-- 46_bands R224, R230: without a snap the word a band writes is its old word less max(0, BAND_FADE - DELAY[b]), not
below 0, clamped; and a word already within the range never rises. -/
def Obligations.BandWithoutSnapNeverRises : Prop :=
  ∀ (c : Config) (v : F32) (delay cur lo hi : Half), lo.toNat ≤ hi.toNat →
    fgt v (i2f (decayed c delay cur)) = false →
    (bandWord v (decayed c delay cur) lo hi).toNat =
      max lo.toNat (min hi.toNat (cur.toNat - (c.bandFade.toNat - delay.toNat))) ∧
    (lo.toNat ≤ cur.toNat → cur.toNat ≤ hi.toNat →
      (bandWord v (decayed c delay cur) lo hi).toNat ≤ cur.toNat)

/-- 45_binners R208: with a zero spectrum LINEAR and LOG map a previous word p to floor(p/2), clamped. -/
def Obligations.ZeroSpectrumHalvesWords : Prop :=
  ∀ s : State, configWf s.cfg = true → BinnerReady s → ZeroSpectrum s → Memory.wf s.mem = true →
    ∀ i ∈ [Instr.linear, .log], ∃ t, exec i s = .next t ∧ ∀ k < s.cfg.fftOutN,
      (Memory.read16 t.mem (s.curAddr.toNat + 2 * k)).toNat =
        clampNat s ((Memory.read16 s.mem (s.curAddr.toNat + 2 * k)).toNat / 2)

/-- 46_bands R231: with a zero spectrum no band snaps: every counter counts down and every word decays. -/
def Obligations.ZeroSpectrumNeverSnaps : Prop :=
  ∀ s : State, configWf s.cfg = true → BandsReady s → ZeroSpectrum s → Memory.wf s.mem = true →
    s.delay.length = s.cfg.bandN →
    ∃ t, exec .bands s = .next t ∧ ∀ b < s.cfg.bandN,
      (Memory.read16 t.mem (s.curAddr.toNat + 2 * b)).toNat = clampNat s (decayedWord s b) ∧
      t.delay[b]? = some (BitVec.ofNat 16 ((delayEntry s.delay b).toNat - 1))

/-! ## Arithmetic and tables -/

/-- 00_scope R11, R12: rounding to nearest with ties to even, and to an infinity where the magnitude is too large; and
fadd, fsub, fmul and fdiv of finite operands are that rounding of the exact result. The units of a pattern are those of
binary32. An exact zero sum and a division by zero are the special cases of IEEE 754 (log 20). -/
def Obligations.RoundingIsNearestEven : Prop :=
  (∀ x : Fin 0x7F800000, unitsOf x =
    if x.val < 2 ^ 23 then x.val else (2 ^ 23 + x.val % 2 ^ 23) * 2 ^ (x.val / 2 ^ 23 - 1)) ∧
  (∀ (neg : Bool) (n d : Nat), 0 < d → IsRounded neg n d (roundUnits neg n d)) ∧
  (∀ (a b : Bool) (x y : Fin 0x7F800000),
    IsSum a x b y (fadd (.fin a x) (.fin b y)) ∧
    IsSum a x (!b) y (fsub (.fin a x) (.fin b y)) ∧
    IsRounded (a != b) (unitsOf x * unitsOf y) (2 ^ 149) (fmul (.fin a x) (.fin b y)) ∧
    (y.val ≠ 0 → IsRounded (a != b) (unitsOf x * 2 ^ 149) (unitsOf y) (fdiv (.fin a x) (.fin b y))) ∧
    (y.val = 0 → fdiv (.fin a x) (.fin b y) = if x.val = 0 then .nan else .inf (a != b)))

/-- 00_scope R11: the integer square root under fsqrt is the floor of the root. -/
def Obligations.IntegerSquareRoot : Prop := ∀ x : Nat, isqrt x * isqrt x ≤ x ∧ x < (isqrt x + 1) * (isqrt x + 1)

/-- 00_scope R11: the square root of every non-negative finite value is a nearest finite value: the real root lies at or
below the midpoint to every greater value, at or above the midpoint to every smaller one, and on a midpoint only where the
pattern given is even. -/
def Obligations.SquareRootIsNearestEven : Prop :=
  ∀ z : Fin 0x7F800000, ∃ x : Fin 0x7F800000, fsqrt (.fin false z) = .fin false x ∧ ∀ y : Fin 0x7F800000,
    (x < y → 4 * (unitsOf z * 2 ^ 149) ≤ (unitsOf x + unitsOf y) ^ 2) ∧
    (y < x → (unitsOf x + unitsOf y) ^ 2 ≤ 4 * (unitsOf z * 2 ^ 149)) ∧
    (x ≠ y → (unitsOf x + unitsOf y) ^ 2 = 4 * (unitsOf z * 2 ^ 149) → x.val % 2 = 0)

/-- 43_fft R160 to R163; 44_extract R180: the formulas of the complex sum, difference, product, conjugate and magnitude,
the product's commuting (the rule's own inference; all NaNs are one value, log 8), and the rules' examples. -/
def Obligations.ComplexProductCommutes : Prop :=
  (∀ x y : Cplx, cadd x y = ⟨fadd x.re y.re, fadd x.im y.im⟩ ∧ csub x y = ⟨fsub x.re y.re, fsub x.im y.im⟩) ∧
  (∀ w x : Cplx, cmul w x =
    ⟨fsub (fmul w.re x.re) (fmul w.im x.im), fadd (fmul w.re x.im) (fmul w.im x.re)⟩) ∧
  (∀ x : Cplx, conj x = ⟨x.re, fneg x.im⟩ ∧ cmag x = fsqrt (fadd (fmul x.re x.re) (fmul x.im x.im))) ∧
  (∀ (a : Bool) (x : Fin 0x7F800000), fneg (.fin a x) = .fin (!a) x ∧ fneg (.inf a) = .inf (!a)) ∧ fneg .nan = .nan ∧
  (∀ w x : Cplx, cmul w x = cmul x w) ∧
  cmul (.ofBits 0x3F000000#32 0xBE800000#32) (.ofBits 0x40400000#32 0x40800000#32) =
    .ofBits 0x40200000#32 0x3FA00000#32 ∧
  conj (.ofBits 0x3F800000#32 0x00000000#32) = .ofBits 0x3F800000#32 0x80000000#32 ∧
  cmag (.ofBits 0x40400000#32 0xC0800000#32) = .ofBits 0x40A00000#32

/-- 42_load R143: the Mixed channel is the exact mean of two int16 samples, a half-integer where the sum is odd. -/
def Obligations.StereoMeanIsExact : Prop :=
  ∀ l r : Int, -32768 ≤ l → l ≤ 32767 → -32768 ≤ r → r ≤ 32767 →
    ∃ x : Fin 0x7F800000, stereoMean l r = .fin (decide (l + r < 0)) x ∧ unitsOf x = (l + r).natAbs * 2 ^ 148

/-- 41_tables R120: BITREV as the sum of the rule. -/
def Obligations.BitReversalSum : Prop :=
  ∀ l x : Nat, bitrev l x = ((List.range l).map fun k => (x.testBit k).toNat * 2 ^ (l - 1 - k)).sum

/-- 41_tables R121 (the spec's inference from R120): BITREV is a self-inverse bijection on 0..N-1, fixes 0 and N-1, and
the table for N = 8. -/
def Obligations.BitReversalIsSelfInverse : Prop :=
  (∀ l x : Nat, x < 2 ^ l → bitrev l x < 2 ^ l ∧ bitrev l (bitrev l x) = x) ∧
  (∀ l : Nat, bitrev l 0 = 0 ∧ bitrev l (2 ^ l - 1) = 2 ^ l - 1) ∧
  (∀ l y : Nat, y < 2 ^ l → ∃ x, x < 2 ^ l ∧ bitrev l x = y) ∧
  (∀ l x y : Nat, x < 2 ^ l → y < 2 ^ l → bitrev l x = bitrev l y → x = y) ∧
  (List.range 8).map (bitrev 3) = [0, 4, 2, 6, 1, 5, 3, 7]

/-- 41_tables R123 (a): the window is symmetric, bit for bit (the ROM's computation is log 13). -/
def Obligations.WindowIsSymmetric : Prop :=
  ∀ (c : Config) (i : Nat), i < 2 * c.n → romWin c i = romWin c (2 * c.n - 1 - i)

/-- 41_tables R125: the first boundary is 0.5 and the last N - 0.5, exactly (the latter as units of 2^-149). -/
def Obligations.BoundaryEndsAreExact : Prop :=
  ∀ c : Config, configWf c = true →
    romBnd c 0 = .ofBits 0x3F000000#32 ∧
    ∃ x : Fin 0x7F800000, romBnd c c.bandN = .fin false x ∧ unitsOf x = (2 * c.n - 1) * 2 ^ 148

/-- 41_tables R124; 00_scope R12: every boundary is the binary32 value nearest to N^(b/BAND_N) - 0.5: that real lies
strictly below the midpoint to every greater value and strictly above the midpoint to every smaller one (the two sides
raised to the power BAND_N, in units of 2^-150). -/
def Obligations.BoundaryIsNearest : Prop :=
  ∀ c : Config, configWf c = true → ∀ b ≤ c.bandN, ∃ x : Fin 0x7F800000, romBnd c b = .fin false x ∧
    ∀ y : Fin 0x7F800000,
      (x < y → c.n ^ b * (2 ^ 150) ^ c.bandN < (unitsOf x + unitsOf y + 2 ^ 149) ^ c.bandN) ∧
      (y < x → (unitsOf x + unitsOf y + 2 ^ 149) ^ c.bandN < c.n ^ b * (2 ^ 150) ^ c.bandN)

/-- 46_bands R220, R221: the bins of every band of a well-formed configuration lie within the spectrum, and a narrow band
has c = a - 1. -/
def Obligations.BandBinsWithinSpectrum : Prop :=
  ∀ c : Config, configWf c = true → ∀ b < c.bandN,
    1 ≤ bandLow c b ∧ bandHigh c b ≤ c.n - 1 ∧ (bandHigh c b < bandLow c b → bandHigh c b = bandLow c b - 1)

/-- 00_scope R14: P1 to P4 for every logarithm unit, P5 and P6 for every unit given by steps (log 12). -/
def Obligations.LogarithmProperties : Prop :=
  (∀ u a, log10 u (.fin a 0) = .inf true) ∧
  (∀ u x, (x = .nan ∨ fgt fZero x = true) → log10 u x = .nan) ∧
  (∀ u, log10 u (.inf false) = .inf false) ∧
  (∀ u, ∀ k : Nat, k ≤ 10 → log10 u (i2f ((10 : Int) ^ k)) = i2f k) ∧
  (∀ l x y, fge x fZero = true → fge y x = true → fge (log10 (.steps l) y) (log10 (.steps l) x) = true) ∧
  (∀ l (x : Fin 0x7F800000), 0 < x.val → ∃ a z, log10 (.steps l) (.fin false x) = .fin a z)

/-! ## Reset, clean entry, host duties -/

/-- 70_reset_and_hazards R280: a reset leaves every register and internal memory at its reset value, keeps the
configuration, and, with no command in flight, host memory. -/
def Obligations.ResetState : Prop :=
  ∀ (s : State) (ts : List Turn), configWf s.cfg = true → s.turns = .host .reset :: ts →
    ∃ t, step s = .next t ∧ t.phase = .idle ∧ statusWord t = 0#32 ∧ t.argAddr = 0#32 ∧ t.argScale = 0#32 ∧
      t.argRange = 0#32 ∧ t.td = List.replicate s.cfg.n none ∧ t.spec = List.replicate s.cfg.n none ∧
      t.delay = List.replicate s.cfg.bandN 0 ∧ t.cfg = s.cfg ∧ t.turns = ts ∧
      (s.phase = .idle → t.mem = s.mem)

/-- 70_reset_and_hazards R281: a step in which the host resets the FSU while a command is in flight completes nothing and
writes no code. It leaves each element of the command's access range as it was or as the command would have written it, and
every byte outside the range as it was. All of host memory is kept where the word is reserved, a check fails, or the command
is no LINEAR, LOG or BANDS. Which elements hold which is a free value (log 11). -/
def Obligations.ResetAbandonsTheCommand : Prop :=
  ∀ s : State, configWf s.cfg = true → HostMoves .reset s → s.phase = .busy → Memory.wf s.mem = true →
    ∃ t, step s = .next t ∧ t.phase = .idle ∧ statusWord t = 0#32 ∧
      (∀ k, decode s.curCmd = .reserved k → t.mem = s.mem) ∧
      (∀ i, decode s.curCmd = .cmd i →
        (checkList i s ≠ .ok ∨ i ∉ [Instr.linear, .log, .bands] → t.mem = s.mem) ∧
        (∀ k, 2 * k < accessLen s.cfg i →
          Memory.read16 t.mem (s.curAddr.toNat + 2 * k) = Memory.read16 s.mem (s.curAddr.toNat + 2 * k) ∨
          Memory.read16 t.mem (s.curAddr.toNat + 2 * k) =
            Memory.read16 (perform i s).mem (s.curAddr.toNat + 2 * k)) ∧
        (∀ a, (a < s.curAddr.toNat ∨ s.curAddr.toNat + accessLen s.cfg i ≤ a) →
          Memory.read t.mem a = Memory.read s.mem a))

/-- 70_reset_and_hazards R300: after reset, INIT issued and completed leaves FSU_CLEAN. -/
def Obligations.InitAfterResetIsClean : Prop :=
  ∀ c : Config, configWf c = true →
    ∃ t, step ((State.resetWith c).withFetchWord 32 0x00000001) = .next t ∧ fsuClean t = true

/-- 70_reset_and_hazards R291; log 14: a host access to a byte of the access range of the command in flight, outside the
register block and within the address space, is refused. -/
def Obligations.HostKeptOffTheRangeInFlight : Prop :=
  ∀ (s : State) (i : Instr) (width : AccessWidth) (a w : Word) (k : Nat), configWf s.cfg = true → s.phase = .busy →
    decode s.curCmd = .cmd i → k < widthBytes width → s.curAddr.toNat ≤ a.toNat + k →
    a.toNat + k < s.curAddr.toNat + accessLen s.cfg i → a.toNat + widthBytes width ≤ 2 ^ 32 →
    (a.toNat + widthBytes width ≤ s.cfg.regBase.toNat ∨ s.cfg.regBase.toNat + 64 ≤ a.toNat) →
    (HostMoves (.read width a) s → step s = .refused .rangeInFlight) ∧
    (HostMoves (.write width a w) s → step s = .refused .rangeInFlight)

/-! ## The first ROM entries; the host's other moves -/

/-- 41_tables R123, R126: in every legal configuration WIN[0] = WIN[2N-1] = 0x3D9D1F60 (R123's (b)), and TW[0] = (1.0, +0.0)
in both settings of TWIDDLE_DEN (the ROMs' computation is log 13). -/
def Obligations.FirstRomEntries : Prop :=
  ∀ c : Config, configWf c = true →
    romWin c 0 = .ofBits 0x3D9D1F60#32 ∧ romWin c (2 * c.n - 1) = .ofBits 0x3D9D1F60#32 ∧
    ∀ b : Bool, romTw { c with twdenIsN := b } 0 = ⟨.ofBits 0x3F800000#32, .ofBits 0x00000000#32⟩

/-- 30_encoding R90, R91; 20_memory R63: the host's write and read of host memory off the range in flight (`mem.h` and
`mem.h?` at the width of 16 bits; the other widths are log 16): little-endian, every other byte kept, and the value read
handed over in the model's own field busData (log 5). While IDLE every address is off the range, also where the host has not
read BUSY = 0 since the last completion: that such an access sees and changes the completed memory is the model's choice
(log 24). A poll of WAIT reads STATUS; it ends while IDLE, and while BUSY gives
the sequencer the turn and polls again (log 21), so that WAIT on a command that is not stuck ends. -/
def Obligations.HostMemoryMovesAndWait : Prop :=
  ∀ (s : State) (ts : List Turn), configWf s.cfg = true →
    (∀ (width : AccessWidth) (a v : Word), InHostMemory a.toNat (widthBytes width) s →
      ClearOfRange a.toNat (widthBytes width) s →
      (s.turns = .host (.write width a v) :: ts → Memory.wf s.mem = true →
        ∃ m, step s = .next { s with turns := ts, mem := m } ∧
          (∀ k < widthBytes width, Memory.read m (a.toNat + k) = v.extractLsb' (8 * k) 8) ∧
          (∀ x, (x < a.toNat ∨ a.toNat + widthBytes width ≤ x) → Memory.read m x = Memory.read s.mem x)) ∧
      (s.turns = .host (.read width a) :: ts →
        ∃ w : Word, step s = .next { s with turns := ts, busData := w } ∧ w.toNat < 2 ^ (8 * widthBytes width) ∧
          ∀ k < widthBytes width, w.extractLsb' (8 * k) 8 = Memory.read s.mem (a.toNat + k))) ∧
    (s.turns = .host .poll :: ts → s.phase = .idle →
      step s = .next { s with turns := ts, busData := statusWord s }) ∧
    (s.turns = .host .poll :: ts → s.phase = .busy →
      step s = .next { s with turns := .sequencer :: .host .poll :: ts, busData := statusWord s } ∧
      (stuck s = false → ∃ t u, step s = .next t ∧ step t = .next u ∧ u.phase = .idle ∧
        step u = .next { u with turns := ts, busData := statusWord u }))

end
end

