-- ==== Sys2Proof/Laws/State.lean ====
section
/-! SUPPORT. One lemma per field per update of State, true by rfl, so that no later proof unfolds a record update. -/

namespace Sys2Proof.Machine

section
variable (s : State) (st : Status)
@[simp] theorem State.setStatus_phase : (s.setStatus st).phase = s.phase := rfl
@[simp] theorem State.setStatus_status : (s.setStatus st).status = st := rfl
@[simp] theorem State.setStatus_argAddr : (s.setStatus st).argAddr = s.argAddr := rfl
@[simp] theorem State.setStatus_argScale : (s.setStatus st).argScale = s.argScale := rfl
@[simp] theorem State.setStatus_argRange : (s.setStatus st).argRange = s.argRange := rfl
@[simp] theorem State.setStatus_curCmd : (s.setStatus st).curCmd = s.curCmd := rfl
@[simp] theorem State.setStatus_curAddr : (s.setStatus st).curAddr = s.curAddr := rfl
@[simp] theorem State.setStatus_curScale : (s.setStatus st).curScale = s.curScale := rfl
@[simp] theorem State.setStatus_curRange : (s.setStatus st).curRange = s.curRange := rfl
@[simp] theorem State.setStatus_td : (s.setStatus st).td = s.td := rfl
@[simp] theorem State.setStatus_spec : (s.setStatus st).spec = s.spec := rfl
@[simp] theorem State.setStatus_delay : (s.setStatus st).delay = s.delay := rfl
@[simp] theorem State.setStatus_mem : (s.setStatus st).mem = s.mem := rfl
@[simp] theorem State.setStatus_cfg : (s.setStatus st).cfg = s.cfg := rfl
@[simp] theorem State.setStatus_turns : (s.setStatus st).turns = s.turns := rfl
@[simp] theorem State.setStatus_busData : (s.setStatus st).busData = s.busData := rfl
@[simp] theorem State.setStatus_draws : (s.setStatus st).draws = s.draws := rfl
end

section
variable (s : State) (td : List (Option Cplx))
@[simp] theorem State.setTd_phase : (s.setTd td).phase = s.phase := rfl
@[simp] theorem State.setTd_status : (s.setTd td).status = s.status := rfl
@[simp] theorem State.setTd_argAddr : (s.setTd td).argAddr = s.argAddr := rfl
@[simp] theorem State.setTd_argScale : (s.setTd td).argScale = s.argScale := rfl
@[simp] theorem State.setTd_argRange : (s.setTd td).argRange = s.argRange := rfl
@[simp] theorem State.setTd_curCmd : (s.setTd td).curCmd = s.curCmd := rfl
@[simp] theorem State.setTd_curAddr : (s.setTd td).curAddr = s.curAddr := rfl
@[simp] theorem State.setTd_curScale : (s.setTd td).curScale = s.curScale := rfl
@[simp] theorem State.setTd_curRange : (s.setTd td).curRange = s.curRange := rfl
@[simp] theorem State.setTd_td : (s.setTd td).td = td := rfl
@[simp] theorem State.setTd_spec : (s.setTd td).spec = s.spec := rfl
@[simp] theorem State.setTd_delay : (s.setTd td).delay = s.delay := rfl
@[simp] theorem State.setTd_mem : (s.setTd td).mem = s.mem := rfl
@[simp] theorem State.setTd_cfg : (s.setTd td).cfg = s.cfg := rfl
@[simp] theorem State.setTd_turns : (s.setTd td).turns = s.turns := rfl
@[simp] theorem State.setTd_busData : (s.setTd td).busData = s.busData := rfl
@[simp] theorem State.setTd_draws : (s.setTd td).draws = s.draws := rfl
end

section
variable (s : State) (sp : List (Option F32))
@[simp] theorem State.setSpec_phase : (s.setSpec sp).phase = s.phase := rfl
@[simp] theorem State.setSpec_status : (s.setSpec sp).status = s.status := rfl
@[simp] theorem State.setSpec_argAddr : (s.setSpec sp).argAddr = s.argAddr := rfl
@[simp] theorem State.setSpec_argScale : (s.setSpec sp).argScale = s.argScale := rfl
@[simp] theorem State.setSpec_argRange : (s.setSpec sp).argRange = s.argRange := rfl
@[simp] theorem State.setSpec_curCmd : (s.setSpec sp).curCmd = s.curCmd := rfl
@[simp] theorem State.setSpec_curAddr : (s.setSpec sp).curAddr = s.curAddr := rfl
@[simp] theorem State.setSpec_curScale : (s.setSpec sp).curScale = s.curScale := rfl
@[simp] theorem State.setSpec_curRange : (s.setSpec sp).curRange = s.curRange := rfl
@[simp] theorem State.setSpec_td : (s.setSpec sp).td = s.td := rfl
@[simp] theorem State.setSpec_spec : (s.setSpec sp).spec = sp := rfl
@[simp] theorem State.setSpec_delay : (s.setSpec sp).delay = s.delay := rfl
@[simp] theorem State.setSpec_mem : (s.setSpec sp).mem = s.mem := rfl
@[simp] theorem State.setSpec_cfg : (s.setSpec sp).cfg = s.cfg := rfl
@[simp] theorem State.setSpec_turns : (s.setSpec sp).turns = s.turns := rfl
@[simp] theorem State.setSpec_busData : (s.setSpec sp).busData = s.busData := rfl
@[simp] theorem State.setSpec_draws : (s.setSpec sp).draws = s.draws := rfl
end

section
variable (s : State) (d : List Half)
@[simp] theorem State.setDelay_phase : (s.setDelay d).phase = s.phase := rfl
@[simp] theorem State.setDelay_status : (s.setDelay d).status = s.status := rfl
@[simp] theorem State.setDelay_argAddr : (s.setDelay d).argAddr = s.argAddr := rfl
@[simp] theorem State.setDelay_argScale : (s.setDelay d).argScale = s.argScale := rfl
@[simp] theorem State.setDelay_argRange : (s.setDelay d).argRange = s.argRange := rfl
@[simp] theorem State.setDelay_curCmd : (s.setDelay d).curCmd = s.curCmd := rfl
@[simp] theorem State.setDelay_curAddr : (s.setDelay d).curAddr = s.curAddr := rfl
@[simp] theorem State.setDelay_curScale : (s.setDelay d).curScale = s.curScale := rfl
@[simp] theorem State.setDelay_curRange : (s.setDelay d).curRange = s.curRange := rfl
@[simp] theorem State.setDelay_td : (s.setDelay d).td = s.td := rfl
@[simp] theorem State.setDelay_spec : (s.setDelay d).spec = s.spec := rfl
@[simp] theorem State.setDelay_delay : (s.setDelay d).delay = d := rfl
@[simp] theorem State.setDelay_mem : (s.setDelay d).mem = s.mem := rfl
@[simp] theorem State.setDelay_cfg : (s.setDelay d).cfg = s.cfg := rfl
@[simp] theorem State.setDelay_turns : (s.setDelay d).turns = s.turns := rfl
@[simp] theorem State.setDelay_busData : (s.setDelay d).busData = s.busData := rfl
@[simp] theorem State.setDelay_draws : (s.setDelay d).draws = s.draws := rfl
end

section
variable (s : State) (m : Memory)
@[simp] theorem State.setMem_phase : (s.setMem m).phase = s.phase := rfl
@[simp] theorem State.setMem_status : (s.setMem m).status = s.status := rfl
@[simp] theorem State.setMem_argAddr : (s.setMem m).argAddr = s.argAddr := rfl
@[simp] theorem State.setMem_argScale : (s.setMem m).argScale = s.argScale := rfl
@[simp] theorem State.setMem_argRange : (s.setMem m).argRange = s.argRange := rfl
@[simp] theorem State.setMem_curCmd : (s.setMem m).curCmd = s.curCmd := rfl
@[simp] theorem State.setMem_curAddr : (s.setMem m).curAddr = s.curAddr := rfl
@[simp] theorem State.setMem_curScale : (s.setMem m).curScale = s.curScale := rfl
@[simp] theorem State.setMem_curRange : (s.setMem m).curRange = s.curRange := rfl
@[simp] theorem State.setMem_td : (s.setMem m).td = s.td := rfl
@[simp] theorem State.setMem_spec : (s.setMem m).spec = s.spec := rfl
@[simp] theorem State.setMem_delay : (s.setMem m).delay = s.delay := rfl
@[simp] theorem State.setMem_mem : (s.setMem m).mem = m := rfl
@[simp] theorem State.setMem_cfg : (s.setMem m).cfg = s.cfg := rfl
@[simp] theorem State.setMem_turns : (s.setMem m).turns = s.turns := rfl
@[simp] theorem State.setMem_busData : (s.setMem m).busData = s.busData := rfl
@[simp] theorem State.setMem_draws : (s.setMem m).draws = s.draws := rfl
end

section
variable (s : State) (ts : List Turn)
@[simp] theorem State.setTurns_phase : (s.setTurns ts).phase = s.phase := rfl
@[simp] theorem State.setTurns_status : (s.setTurns ts).status = s.status := rfl
@[simp] theorem State.setTurns_argAddr : (s.setTurns ts).argAddr = s.argAddr := rfl
@[simp] theorem State.setTurns_argScale : (s.setTurns ts).argScale = s.argScale := rfl
@[simp] theorem State.setTurns_argRange : (s.setTurns ts).argRange = s.argRange := rfl
@[simp] theorem State.setTurns_curCmd : (s.setTurns ts).curCmd = s.curCmd := rfl
@[simp] theorem State.setTurns_curAddr : (s.setTurns ts).curAddr = s.curAddr := rfl
@[simp] theorem State.setTurns_curScale : (s.setTurns ts).curScale = s.curScale := rfl
@[simp] theorem State.setTurns_curRange : (s.setTurns ts).curRange = s.curRange := rfl
@[simp] theorem State.setTurns_td : (s.setTurns ts).td = s.td := rfl
@[simp] theorem State.setTurns_spec : (s.setTurns ts).spec = s.spec := rfl
@[simp] theorem State.setTurns_delay : (s.setTurns ts).delay = s.delay := rfl
@[simp] theorem State.setTurns_mem : (s.setTurns ts).mem = s.mem := rfl
@[simp] theorem State.setTurns_cfg : (s.setTurns ts).cfg = s.cfg := rfl
@[simp] theorem State.setTurns_turns : (s.setTurns ts).turns = ts := rfl
@[simp] theorem State.setTurns_busData : (s.setTurns ts).busData = s.busData := rfl
@[simp] theorem State.setTurns_draws : (s.setTurns ts).draws = s.draws := rfl
end

section
variable (s : State) (w : Word)
@[simp] theorem State.setBusData_phase : (s.setBusData w).phase = s.phase := rfl
@[simp] theorem State.setBusData_status : (s.setBusData w).status = s.status := rfl
@[simp] theorem State.setBusData_argAddr : (s.setBusData w).argAddr = s.argAddr := rfl
@[simp] theorem State.setBusData_argScale : (s.setBusData w).argScale = s.argScale := rfl
@[simp] theorem State.setBusData_argRange : (s.setBusData w).argRange = s.argRange := rfl
@[simp] theorem State.setBusData_curCmd : (s.setBusData w).curCmd = s.curCmd := rfl
@[simp] theorem State.setBusData_curAddr : (s.setBusData w).curAddr = s.curAddr := rfl
@[simp] theorem State.setBusData_curScale : (s.setBusData w).curScale = s.curScale := rfl
@[simp] theorem State.setBusData_curRange : (s.setBusData w).curRange = s.curRange := rfl
@[simp] theorem State.setBusData_td : (s.setBusData w).td = s.td := rfl
@[simp] theorem State.setBusData_spec : (s.setBusData w).spec = s.spec := rfl
@[simp] theorem State.setBusData_delay : (s.setBusData w).delay = s.delay := rfl
@[simp] theorem State.setBusData_mem : (s.setBusData w).mem = s.mem := rfl
@[simp] theorem State.setBusData_cfg : (s.setBusData w).cfg = s.cfg := rfl
@[simp] theorem State.setBusData_turns : (s.setBusData w).turns = s.turns := rfl
@[simp] theorem State.setBusData_busData : (s.setBusData w).busData = w := rfl
@[simp] theorem State.setBusData_draws : (s.setBusData w).draws = s.draws := rfl
end

section
variable  (s : State)
@[simp] theorem succeed_phase : (succeed s).phase = .idle := rfl
@[simp] theorem succeed_status : (succeed s).status = { s.status with errcode := .ok } := rfl
@[simp] theorem succeed_argAddr : (succeed s).argAddr = s.argAddr := rfl
@[simp] theorem succeed_argScale : (succeed s).argScale = s.argScale := rfl
@[simp] theorem succeed_argRange : (succeed s).argRange = s.argRange := rfl
@[simp] theorem succeed_curCmd : (succeed s).curCmd = s.curCmd := rfl
@[simp] theorem succeed_curAddr : (succeed s).curAddr = s.curAddr := rfl
@[simp] theorem succeed_curScale : (succeed s).curScale = s.curScale := rfl
@[simp] theorem succeed_curRange : (succeed s).curRange = s.curRange := rfl
@[simp] theorem succeed_td : (succeed s).td = s.td := rfl
@[simp] theorem succeed_spec : (succeed s).spec = s.spec := rfl
@[simp] theorem succeed_delay : (succeed s).delay = s.delay := rfl
@[simp] theorem succeed_mem : (succeed s).mem = s.mem := rfl
@[simp] theorem succeed_cfg : (succeed s).cfg = s.cfg := rfl
@[simp] theorem succeed_turns : (succeed s).turns = s.turns := rfl
@[simp] theorem succeed_busData : (succeed s).busData = s.busData := rfl
@[simp] theorem succeed_draws : (succeed s).draws = s.draws := rfl
end

section
variable (e : ErrCode) (s : State)
@[simp] theorem raiseErr_phase : (raiseErr e s).phase = .idle := rfl
@[simp] theorem raiseErr_status : (raiseErr e s).status = { s.status with errcode := e, err := true } := rfl
@[simp] theorem raiseErr_argAddr : (raiseErr e s).argAddr = s.argAddr := rfl
@[simp] theorem raiseErr_argScale : (raiseErr e s).argScale = s.argScale := rfl
@[simp] theorem raiseErr_argRange : (raiseErr e s).argRange = s.argRange := rfl
@[simp] theorem raiseErr_curCmd : (raiseErr e s).curCmd = s.curCmd := rfl
@[simp] theorem raiseErr_curAddr : (raiseErr e s).curAddr = s.curAddr := rfl
@[simp] theorem raiseErr_curScale : (raiseErr e s).curScale = s.curScale := rfl
@[simp] theorem raiseErr_curRange : (raiseErr e s).curRange = s.curRange := rfl
@[simp] theorem raiseErr_td : (raiseErr e s).td = s.td := rfl
@[simp] theorem raiseErr_spec : (raiseErr e s).spec = s.spec := rfl
@[simp] theorem raiseErr_delay : (raiseErr e s).delay = s.delay := rfl
@[simp] theorem raiseErr_mem : (raiseErr e s).mem = s.mem := rfl
@[simp] theorem raiseErr_cfg : (raiseErr e s).cfg = s.cfg := rfl
@[simp] theorem raiseErr_turns : (raiseErr e s).turns = s.turns := rfl
@[simp] theorem raiseErr_busData : (raiseErr e s).busData = s.busData := rfl
@[simp] theorem raiseErr_draws : (raiseErr e s).draws = s.draws := rfl
end

section
variable  (s : State)
@[simp] theorem overrun_phase : (overrun s).phase = s.phase := rfl
@[simp] theorem overrun_status : (overrun s).status = { s.status with ovr := true } := rfl
@[simp] theorem overrun_argAddr : (overrun s).argAddr = s.argAddr := rfl
@[simp] theorem overrun_argScale : (overrun s).argScale = s.argScale := rfl
@[simp] theorem overrun_argRange : (overrun s).argRange = s.argRange := rfl
@[simp] theorem overrun_curCmd : (overrun s).curCmd = s.curCmd := rfl
@[simp] theorem overrun_curAddr : (overrun s).curAddr = s.curAddr := rfl
@[simp] theorem overrun_curScale : (overrun s).curScale = s.curScale := rfl
@[simp] theorem overrun_curRange : (overrun s).curRange = s.curRange := rfl
@[simp] theorem overrun_td : (overrun s).td = s.td := rfl
@[simp] theorem overrun_spec : (overrun s).spec = s.spec := rfl
@[simp] theorem overrun_delay : (overrun s).delay = s.delay := rfl
@[simp] theorem overrun_mem : (overrun s).mem = s.mem := rfl
@[simp] theorem overrun_cfg : (overrun s).cfg = s.cfg := rfl
@[simp] theorem overrun_turns : (overrun s).turns = s.turns := rfl
@[simp] theorem overrun_busData : (overrun s).busData = s.busData := rfl
@[simp] theorem overrun_draws : (overrun s).draws = s.draws := rfl
end

section
variable (w : Word) (s : State)
@[simp] theorem issue_phase : (issue w s).phase = .busy := rfl
@[simp] theorem issue_status : (issue w s).status = { s.status with lastop := w.extractLsb' 0 4 } := rfl
@[simp] theorem issue_argAddr : (issue w s).argAddr = s.argAddr := rfl
@[simp] theorem issue_argScale : (issue w s).argScale = s.argScale := rfl
@[simp] theorem issue_argRange : (issue w s).argRange = s.argRange := rfl
@[simp] theorem issue_curCmd : (issue w s).curCmd = w := rfl
@[simp] theorem issue_curAddr : (issue w s).curAddr = s.argAddr := rfl
@[simp] theorem issue_curScale : (issue w s).curScale = s.argScale := rfl
@[simp] theorem issue_curRange : (issue w s).curRange = s.argRange := rfl
@[simp] theorem issue_td : (issue w s).td = s.td := rfl
@[simp] theorem issue_spec : (issue w s).spec = s.spec := rfl
@[simp] theorem issue_delay : (issue w s).delay = s.delay := rfl
@[simp] theorem issue_mem : (issue w s).mem = s.mem := rfl
@[simp] theorem issue_cfg : (issue w s).cfg = s.cfg := rfl
@[simp] theorem issue_turns : (issue w s).turns = s.turns := rfl
@[simp] theorem issue_busData : (issue w s).busData = s.busData := rfl
@[simp] theorem issue_draws : (issue w s).draws = s.draws := rfl
end

section
variable (s : State)
@[simp] theorem resetFsu_phase : (resetFsu s).phase = .idle := rfl
@[simp] theorem resetFsu_status : (resetFsu s).status = .reset := rfl
@[simp] theorem resetFsu_argAddr : (resetFsu s).argAddr = 0 := rfl
@[simp] theorem resetFsu_argScale : (resetFsu s).argScale = 0 := rfl
@[simp] theorem resetFsu_argRange : (resetFsu s).argRange = 0 := rfl
@[simp] theorem resetFsu_curCmd : (resetFsu s).curCmd = 0 := rfl
@[simp] theorem resetFsu_curAddr : (resetFsu s).curAddr = 0 := rfl
@[simp] theorem resetFsu_curScale : (resetFsu s).curScale = 0 := rfl
@[simp] theorem resetFsu_curRange : (resetFsu s).curRange = 0 := rfl
@[simp] theorem resetFsu_td : (resetFsu s).td = List.replicate s.cfg.n none := rfl
@[simp] theorem resetFsu_spec : (resetFsu s).spec = List.replicate s.cfg.n none := rfl
@[simp] theorem resetFsu_delay : (resetFsu s).delay = List.replicate s.cfg.bandN 0 := rfl
@[simp] theorem resetFsu_mem : (resetFsu s).mem = memAfterReset s := rfl
@[simp] theorem resetFsu_cfg : (resetFsu s).cfg = s.cfg := rfl
@[simp] theorem resetFsu_turns : (resetFsu s).turns = s.turns := rfl
@[simp] theorem resetFsu_busData : (resetFsu s).busData = s.busData := rfl
@[simp] theorem resetFsu_draws : (resetFsu s).draws = (if busyBit s then s.draws + 1 else s.draws) := rfl
end

end Sys2Proof.Machine
end

