-- ==== Sys2Proof/Laws/Complete.lean ====
section
/-! SUPPORT. Completion (40_control R101): exec is one shared step over the command's perform step, and everything that
step can answer. -/

namespace Sys2Proof.Machine

/-- Every meaning is the shared completion step over its perform step. -/
theorem exec_eq_complete (i : Instr) (s : State) : exec i s = complete i (perform i) s := by
  cases i <;> rfl

/-- Everything completion can answer: an error completion, a success, or the stuck state. -/
theorem complete_cases {i : Instr} {p : State → State} {s t : State} (h : complete i p s = .next t) :
    (check i s ≠ .ok ∧ t = raiseErr (check i s) s) ∨
    (check i s = .ok ∧ accessible i s = true ∧ t = succeed (p s)) ∨
    (check i s = .ok ∧ accessible i s = false ∧ t = s) := by
  unfold complete at h
  split at h
  · rename_i hc
    exact .inl ⟨hc, by injection h with h; exact h.symm⟩
  · rename_i hc
    have hc : check i s = .ok := by simpa using hc
    split at h
    · rename_i ha
      exact .inr (.inl ⟨hc, ha, by injection h with h; exact h.symm⟩)
    · rename_i ha
      exact .inr (.inr ⟨hc, by simpa using ha, by injection h with h; exact h.symm⟩)

theorem exec_cases {i : Instr} {s t : State} (h : exec i s = .next t) :
    (check i s ≠ .ok ∧ t = raiseErr (check i s) s) ∨
    (check i s = .ok ∧ accessible i s = true ∧ t = succeed (perform i s)) ∨
    (check i s = .ok ∧ accessible i s = false ∧ t = s) :=
  complete_cases (exec_eq_complete i s ▸ h)

/-- A command whose checks pass, on a range the platform admits, succeeds. -/
theorem exec_of_ok {i : Instr} {s : State} (hc : check i s = .ok) (ha : accessible i s = true) :
    exec i s = .next (succeed (perform i s)) := by
  simp [exec_eq_complete, complete, hc, ha]

/-- A command whose check fails completes with its code. -/
theorem exec_of_err {i : Instr} {s : State} (hc : check i s ≠ .ok) : exec i s = .next (raiseErr (check i s) s) := by
  simp [exec_eq_complete, complete, hc]

/-- A stuck command leaves the state as it is. -/
theorem exec_of_stuck {i : Instr} {s : State} (hc : check i s = .ok) (ha : accessible i s = false) :
    exec i s = .next s := by
  simp [exec_eq_complete, complete, hc, ha]

/-- The address checks pass exactly on an even address whose range ends within the address space. -/
theorem checkAddr_ok_iff {s : State} {len : Nat} :
    checkAddr s len = .ok ↔ baseAddr s % 2 = 0 ∧ baseAddr s + len ≤ 2 ^ 32 := by
  unfold checkAddr
  split
  · simp; omega
  · split
    · simp; omega
    · simp; omega

/-- When the checks of a command pass (60_exceptions R251). -/
theorem check_ok_iff {i : Instr} {s : State} :
    check i s = .ok ↔ needsTables i = false ∨
      (s.status.tblValid = true ∧ (needsTd i = true → s.status.tdValid = true) ∧
        (isShaper i = true → s.status.specValid = true) ∧ checkRange i s = .ok ∧
        (isShaper i = true → minVal s ≤ maxVal s)) := by
  unfold check
  by_cases h1 : needsTables i = true <;> by_cases h2 : s.status.tblValid = true <;>
  by_cases h3 : needsTd i = true <;> by_cases h4 : s.status.tdValid = true <;>
  by_cases h5 : isShaper i = true <;> by_cases h6 : s.status.specValid = true <;>
  by_cases h7 : checkRange i s = .ok <;> simp [h1, h2, h3, h4, h5, h6, h7]

/-- The accessibility of a range, byte by byte. -/
theorem accessible_iff {i : Instr} {s : State} :
    accessible i s = true ↔ ∀ k < accessLen s.cfg i, hostmemOk s.cfg (baseAddr s + k) = true := by
  simp [accessible]

/-- A command that accesses no host memory is never stuck. -/
theorem accessible_of_len_zero {i : Instr} {s : State} (h : accessLen s.cfg i = 0) : accessible i s = true := by
  simp [accessible, h]

end Sys2Proof.Machine
end

