-- ==== Sys2Proof/Laws/Float.lean ====
section
/-! SUPPORT. Binary32 (00_scope R11, R12): the units of a pattern and their order, what rounding gives, and the values on
which it is exact. -/

namespace Sys2Proof.Machine

/-- A magnitude pattern split into its binade and its significand: its units. -/
theorem unitsOf_pack {s r : Nat} (h0 : r ≤ 2 ^ 24) (h1 : 0 < s → 2 ^ 23 ≤ r) :
    unitsOf (s * 2 ^ 23 + r) = r * 2 ^ s := by
  unfold unitsOf
  by_cases hr : r < 2 ^ 23
  · obtain rfl : s = 0 := by by_contra h; exact absurd (h1 (by omega)) (by omega)
    rw [Nat.zero_mul, Nat.zero_add, if_pos hr, pow_zero, Nat.mul_one]
  · rw [if_neg (by omega)]
    by_cases h24 : r = 2 ^ 24
    · subst h24
      have e1 : (s * 2 ^ 23 + 2 ^ 24) % 2 ^ 23 = 0 := by omega
      have e2 : (s * 2 ^ 23 + 2 ^ 24) / 2 ^ 23 - 1 = s + 1 := by omega
      rw [e1, e2, pow_succ]; ring
    · have e1 : (s * 2 ^ 23 + r) % 2 ^ 23 = r - 2 ^ 23 := by omega
      have e2 : (s * 2 ^ 23 + r) / 2 ^ 23 - 1 = s := by omega
      rw [e1, e2, Nat.add_sub_cancel' (Nat.le_of_not_lt hr)]

/-- Every pattern is such a pack. -/
theorem pack_of (x : Nat) : ∃ s r, x = s * 2 ^ 23 + r ∧ r < 2 ^ 24 ∧ (0 < s → 2 ^ 23 ≤ r) := by
  by_cases h : x < 2 ^ 24
  · exact ⟨0, x, by omega, h, fun h => absurd h (lt_irrefl 0)⟩
  · have hd := Nat.div_add_mod x (2 ^ 23)
    have hm := Nat.mod_lt x (show 0 < 2 ^ 23 by omega)
    have hq : 1 ≤ x / 2 ^ 23 := by omega
    refine ⟨x / 2 ^ 23 - 1, 2 ^ 23 + x % 2 ^ 23, ?_, by omega, by omega⟩
    generalize x / 2 ^ 23 = q at *
    generalize x % 2 ^ 23 = r at *
    omega

/-- The pattern above is at least one unit of the binade larger. -/
theorem unitsOf_succ {s r : Nat} (h0 : r < 2 ^ 24) (h1 : 0 < s → 2 ^ 23 ≤ r) :
    unitsOf (s * 2 ^ 23 + r + 1) = (r + 1) * 2 ^ s := by
  rw [Nat.add_assoc]
  exact unitsOf_pack (by omega) fun h => by have := h1 h; omega

/-- Every pattern is below the next one. -/
theorem unitsOf_lt_succ (x : Nat) : unitsOf x < unitsOf (x + 1) := by
  obtain ⟨s, r, rfl, h0, h1⟩ := pack_of x
  rw [unitsOf_succ h0 h1, unitsOf_pack h0.le h1]
  exact Nat.mul_lt_mul_of_pos_right (Nat.lt_succ_self r) (Nat.two_pow_pos s)

/-- The order of the finite magnitudes is that of their patterns. -/
theorem unitsOf_strictMono : StrictMono unitsOf := strictMono_nat_of_lt_succ unitsOf_lt_succ

/-- The nearest integer is within half a unit, and even where it is half a unit away. -/
theorem roundEven_spec (n : Nat) {u : Nat} (hu : 0 < u) :
    2 * (roundEven n u * u) ≤ 2 * n + u ∧ 2 * n ≤ 2 * (roundEven n u * u) + u ∧
    (2 * (roundEven n u * u) = 2 * n + u ∨ 2 * n = 2 * (roundEven n u * u) + u → roundEven n u % 2 = 0) := by
  have hd := Nat.div_add_mod n u
  have hm := Nat.mod_lt n hu
  rw [Nat.mul_comm] at hd
  unfold roundEven
  split
  · rename_i h
    simp only [Bool.or_eq_true, Bool.and_eq_true, decide_eq_true_eq, beq_iff_eq] at h
    rw [Nat.add_mul]
    refine ⟨by omega, by omega, fun h' => by omega⟩
  · rename_i h
    simp only [Bool.or_eq_true, Bool.and_eq_true, decide_eq_true_eq, beq_iff_eq] at h
    refine ⟨by omega, by omega, fun h' => by omega⟩

/-- Rounding to an integer is exact on the integers. -/
theorem roundEven_exact (k : Nat) {u : Nat} (hu : 0 < u) : roundEven (k * u) u = k := by
  have h1 : k * u % u = 0 := Nat.mul_mod_left k u
  have h2 : k * u / u = k := Nat.mul_div_cancel k hu
  simp only [roundEven, h1, h2]
  rw [if_neg]
  simp; omega

/-- The rounded significand of roundUnits fits its binade. -/
theorem roundEven_bounds (n : Nat) {d : Nat} (hd : 0 < d) :
    roundEven n (d * 2 ^ binadeShift (n / d)) ≤ 2 ^ 24 ∧
    (0 < binadeShift (n / d) → 2 ^ 23 ≤ roundEven n (d * 2 ^ binadeShift (n / d)) ∧
      2 ^ 23 * (d * 2 ^ binadeShift (n / d)) ≤ n) := by
  have hu : 0 < d * 2 ^ binadeShift (n / d) := Nat.mul_pos hd (Nat.two_pow_pos _)
  obtain ⟨h1, h2, _⟩ := roundEven_spec n hu
  have hlt : n / d < 2 ^ ((n / d).log2 + 1) := Nat.lt_log2_self
  have hn : n < 2 ^ 24 * (d * 2 ^ binadeShift (n / d)) := by
    have : n / d < 2 ^ 24 * 2 ^ binadeShift (n / d) := by
      rw [← pow_add]
      exact hlt.trans_le (Nat.pow_le_pow_right (by omega) (by unfold binadeShift; omega))
    rw [Nat.div_lt_iff_lt_mul hd] at this
    calc n < _ := this
      _ = _ := by ring
  generalize roundEven n (d * 2 ^ binadeShift (n / d)) = R at *
  generalize hU : d * 2 ^ binadeShift (n / d) = U at *
  constructor
  · by_contra h
    have : (2 ^ 24 + 1) * U ≤ R * U := Nat.mul_le_mul_right _ (by omega)
    omega
  · intro hs
    have hle : 2 ^ 23 * U ≤ n := by
      have h0 : n / d ≠ 0 := by
        intro h; rw [h] at hs; simp [binadeShift] at hs
      have := Nat.log2_self_le h0
      have e : 2 ^ 23 * 2 ^ binadeShift (n / d) ≤ n / d := by
        rw [← pow_add]
        refine le_trans (Nat.pow_le_pow_right (by omega) ?_) this
        unfold binadeShift at *; omega
      rw [Nat.le_div_iff_mul_le hd] at e
      rw [← hU]
      calc _ = _ := by ring
        _ ≤ n := e
    refine ⟨?_, hle⟩
    by_contra h
    have : R * U + U ≤ 2 ^ 23 * U := by
      calc R * U + U = (R + 1) * U := by ring
        _ ≤ _ := Nat.mul_le_mul_right _ (by omega)
    omega

/-- Rounding is exact on a value that a pattern has. -/
theorem roundUnits_exact (neg : Bool) (x : Fin 0x7F800000) {d : Nat} (hd : 0 < d) :
    roundUnits neg (unitsOf x.val * d) d = .fin neg x := by
  obtain ⟨s, r, hx, h0, h1⟩ := pack_of x.val
  have hu : unitsOf x.val = r * 2 ^ s := by rw [hx]; exact unitsOf_pack h0.le h1
  have hq : unitsOf x.val * d / d = r * 2 ^ s := by rw [Nat.mul_div_cancel _ hd, hu]
  have hb : binadeShift (r * 2 ^ s) = s := by
    unfold binadeShift
    by_cases hs : 0 < s
    · have hr := h1 hs
      have : (r * 2 ^ s).log2 = 23 + s := by
        rw [Nat.log2_eq_iff (by have := Nat.two_pow_pos s; exact (Nat.mul_pos (by omega) this).ne')]
        constructor
        · rw [pow_add]; exact Nat.mul_le_mul_right _ hr
        · rw [show 23 + s + 1 = 24 + s by omega, pow_add]; exact Nat.mul_lt_mul_of_pos_right h0 (Nat.two_pow_pos s)
      omega
    · obtain rfl : s = 0 := by omega
      have : (r * 2 ^ 0).log2 < 24 := by
        by_cases h : r = 0
        · subst h; simp
        · rw [Nat.log2_lt (by simpa using h)]; simpa using h0
      omega
  unfold roundUnits
  rw [hq, hb, hu, show r * 2 ^ s * d = r * (d * 2 ^ s) by ring, roundEven_exact _ (Nat.mul_pos hd (Nat.two_pow_pos s)), ← hx]
  simp [F32.ofMag]

/-- A small significand at a place of the exponent range has a pattern. -/
theorem exists_pattern {m e : Nat} (hm : m ≤ 2 ^ 24) (he : e ≤ 250) : ∃ x : Fin 0x7F800000, unitsOf x.val = m * 2 ^ e := by
  induction e generalizing m with
  | zero => exact ⟨⟨m, by omega⟩, by simpa using unitsOf_pack (s := 0) hm (by omega)⟩
  | succ e ih =>
    by_cases h : m < 2 ^ 23
    · obtain ⟨x, hx⟩ := ih (m := 2 * m) (by omega) (by omega)
      exact ⟨x, by rw [hx, pow_succ]; ring⟩
    · exact ⟨⟨(e + 1) * 2 ^ 23 + m, by omega⟩, unitsOf_pack hm (by omega)⟩

/-- Rounding is exact on every small significand at a place of the exponent range. -/
theorem roundUnits_small (neg : Bool) {m e d : Nat} (hm : m ≤ 2 ^ 24) (he : e ≤ 250) (hd : 0 < d) :
    ∃ x : Fin 0x7F800000, roundUnits neg (m * 2 ^ e * d) d = .fin neg x ∧ unitsOf x.val = m * 2 ^ e := by
  obtain ⟨x, hx⟩ := exists_pattern hm he
  exact ⟨x, by rw [← hx]; exact roundUnits_exact neg x hd, hx⟩

/-- `i2f` is exact up to 2^24 (00_scope R11). -/
theorem i2f_exact {k : Int} (h : k.natAbs ≤ 2 ^ 24) :
    ∃ x : Fin 0x7F800000, i2f k = .fin (decide (k < 0)) x ∧ unitsOf x.val = k.natAbs * 2 ^ 149 := by
  simpa [i2f] using roundUnits_small (decide (k < 0)) h (e := 149) (d := 1) (by omega) (by omega)

/-- A pattern is known by its units. -/
theorem unitsOf_inj {x y : Fin 0x7F800000} (h : unitsOf x.val = unitsOf y.val) : x = y :=
  Fin.ext (unitsOf_strictMono.injective h)

/-- Only the zero pattern has no units. -/
theorem unitsOf_eq_zero {x : Nat} : unitsOf x = 0 ↔ x = 0 := by
  have : unitsOf 0 = 0 := by decide
  rw [← this]; exact unitsOf_strictMono.injective.eq_iff

/-- `i2f` of a natural number up to 2^24 (00_scope R11). -/
theorem i2f_nat {k : Nat} (h : k ≤ 2 ^ 24) :
    ∃ x : Fin 0x7F800000, i2f k = .fin false x ∧ unitsOf x.val = k * 2 ^ 149 := by
  obtain ⟨x, h1, h2⟩ := i2f_exact (k := (k : Int)) (by simpa using h)
  rw [show decide ((k : Int) < 0) = false by simp] at h1
  exact ⟨x, h1, by simpa using h2⟩

/-- The comparison `≥` by the places of the order (00_scope R11). -/
theorem fge_of_key {a b : F32} {i j : Int} (ha : orderKey a = some i) (hb : orderKey b = some j) :
    fge a b = decide (j ≤ i) := by simp only [fge, ha, hb]

/-- The comparison `>` by the places of the order (00_scope R11). -/
theorem fgt_of_key {a b : F32} {i j : Int} (ha : orderKey a = some i) (hb : orderKey b = some j) :
    fgt a b = decide (j < i) := by simp only [fgt, ha, hb]

/-! The place of the overflow threshold, by the binade a value lies in: below the last one, in it, above it. -/

theorem overflow_below {n D U Q : Nat} (h1 : U ≤ D) (h0 : 0 < D) (h2 : Q ≤ 2 ^ 24 * D) (r : 2 * n ≤ 2 * Q + U) :
    n < (2 ^ 25 - 1) * D := by omega

theorem overflow_at {n U R : Nat} (hU : 0 < U) (b : R ≤ 2 ^ 24) (r1 : 2 * (R * U) ≤ 2 * n + U)
    (r2 : 2 * n ≤ 2 * (R * U) + U) (r3 : 2 * (R * U) = 2 * n + U ∨ 2 * n = 2 * (R * U) + U → R % 2 = 0) :
    2 ^ 24 ≤ R ↔ (2 ^ 25 - 1) * U ≤ 2 * n := by
  constructor
  · intro h
    obtain rfl : R = 2 ^ 24 := by omega
    omega
  · intro h
    by_contra hn
    have h1 : R * U ≤ (2 ^ 24 - 1) * U := Nat.mul_le_mul_right U (by omega)
    have he : R % 2 = 0 := r3 (by omega)
    have h2 : R * U ≤ (2 ^ 24 - 2) * U := Nat.mul_le_mul_right U (by omega)
    omega

theorem overflow_above {n U D : Nat} (h : D ≤ U) (b : 2 ^ 23 * U ≤ n) : (2 ^ 25 - 1) * D ≤ 4 * n := by omega

/-- Rounding gives an infinity from half a unit in the last place above the greatest finite value on. -/
theorem roundUnits_inf_iff (neg : Bool) (n : Nat) {d : Nat} (hd : 0 < d) :
    roundUnits neg n d = .inf neg ↔ (2 ^ 25 - 1) * 2 ^ 252 * d ≤ n := by
  obtain ⟨b1, b2⟩ := roundEven_bounds n hd
  have hu : 0 < d * 2 ^ binadeShift (n / d) := Nat.mul_pos hd (Nat.two_pow_pos _)
  obtain ⟨r1, r2, r3⟩ := roundEven_spec n hu
  have hinf : roundUnits neg n d = .inf neg ↔
      0x7F800000 ≤ binadeShift (n / d) * 2 ^ 23 + roundEven n (d * 2 ^ binadeShift (n / d)) := by
    unfold roundUnits F32.ofMag
    split <;> simp <;> omega
  rw [hinf]
  generalize roundEven n (d * 2 ^ binadeShift (n / d)) = R at *
  generalize binadeShift (n / d) = s at *
  have pow253 : (2 : Nat) ^ 253 = 2 * 2 ^ 252 := Nat.pow_succ'
  have pow254 : (2 : Nat) ^ 254 = 2 * 2 ^ 253 := Nat.pow_succ'
  rcases lt_trichotomy s 253 with hs | rfl | hs
  · have h1 : d * 2 ^ s ≤ d * 2 ^ 252 := Nat.mul_le_mul_left d (Nat.pow_le_pow_right (by omega) (by omega))
    have h2 : R * (d * 2 ^ s) ≤ 2 ^ 24 * (d * 2 ^ 252) := Nat.mul_le_mul b1 h1
    have h3 : 0 < d * 2 ^ 252 := Nat.mul_pos hd (Nat.two_pow_pos _)
    have e : (2 ^ 25 - 1) * 2 ^ 252 * d = (2 ^ 25 - 1) * (d * 2 ^ 252) := by rw [Nat.mul_assoc, Nat.mul_comm d]
    rw [e]
    refine ⟨fun h => absurd h ?_, fun h => absurd h ?_⟩
    · clear * - b1 hs
      omega
    · exact Nat.not_le.2 (overflow_below h1 h3 h2 r2)
  · have h := overflow_at hu b1 r1 r2 r3
    have e : (2 ^ 25 - 1) * (d * 2 ^ 253) = 2 * ((2 ^ 25 - 1) * 2 ^ 252 * d) := by
      rw [pow253]
      ring
    rw [e] at h
    refine ⟨fun h' => Nat.le_of_mul_le_mul_left (h.1 ?_) Nat.two_pos, fun h' => ?_⟩
    · clear * - h'
      omega
    · have := h.2 (Nat.mul_le_mul_left 2 h')
      clear * - this
      omega
  · obtain ⟨h0, h1⟩ := b2 (by omega)
    have h2 : d * 2 ^ 254 ≤ d * 2 ^ s := Nat.mul_le_mul_left d (Nat.pow_le_pow_right (by omega) (by omega))
    have h := overflow_above h2 h1
    have e : (2 ^ 25 - 1) * (d * 2 ^ 254) = 4 * ((2 ^ 25 - 1) * 2 ^ 252 * d) := by
      rw [pow254, pow253]
      ring
    rw [e] at h
    refine ⟨fun _ => Nat.le_of_mul_le_mul_left h (by decide), fun _ => ?_⟩
    clear * - h0 hs
    omega

end Sys2Proof.Machine
end

