-- ==== Sys2Proof/Laws/Memory.lean ====
section
/-! SUPPORT. Host memory: what a read gives after a write, and that every memory operation keeps the canonical form and
the address space. -/

namespace Sys2Proof.Machine

theorem Memory.wfFrom_cons {lo a : Nat} {v : Byte} {rest : Memory} :
    Memory.wfFrom lo ((a, v) :: rest) = true ↔ lo ≤ a ∧ v ≠ 0#8 ∧ Memory.wfFrom (a + 1) rest = true := by
  simp [Memory.wfFrom, and_assoc]

theorem Memory.wfFrom_mono {lo lo' : Nat} (h : lo' ≤ lo) {m : Memory} (hm : Memory.wfFrom lo m = true) :
    Memory.wfFrom lo' m = true := by
  cases m with
  | nil => rfl
  | cons c rest =>
    obtain ⟨a, v⟩ := c
    rw [Memory.wfFrom_cons] at hm ⊢
    exact ⟨h.trans hm.1, hm.2⟩

/-- Below its first listed address a canonical memory reads as an unlisted address does. -/
theorem Memory.read_below {m : Memory} {lo a : Nat} (hm : Memory.wfFrom lo m = true) (ha : a < lo) :
    Memory.read m a = 0#8 := by
  induction m generalizing lo with
  | nil => rfl
  | cons c rest ih =>
    obtain ⟨b, w⟩ := c
    rw [Memory.wfFrom_cons] at hm
    have hne : a ≠ b := by omega
    simp only [Memory.read, if_neg hne]
    exact ih hm.2.2 (by omega)

theorem Memory.read_write_ne (m : Memory) {a x : Nat} (v : Byte) (h : x ≠ a) :
    Memory.read (Memory.write m a v) x = Memory.read m x := by
  induction m with
  | nil => by_cases hv : v = 0#8 <;> simp [Memory.write, Memory.read, hv, h]
  | cons c rest ih =>
    obtain ⟨b, w⟩ := c
    by_cases hab : a < b
    · by_cases hv : v = 0#8 <;> simp [Memory.write, Memory.read, hab, hv, h]
    · by_cases hb : a = b
      · subst hb
        by_cases hv : v = 0#8 <;> simp [Memory.write, Memory.read, hv, h]
      · simp only [Memory.write, if_neg hab, if_neg hb, Memory.read, ih]

theorem Memory.read_write_same {m : Memory} {lo : Nat} (hm : Memory.wfFrom lo m = true) (a : Nat) (v : Byte) :
    Memory.read (Memory.write m a v) a = v := by
  induction m generalizing lo with
  | nil => by_cases hv : v = 0#8 <;> simp [Memory.write, Memory.read, hv]
  | cons c rest ih =>
    obtain ⟨b, w⟩ := c
    rw [Memory.wfFrom_cons] at hm
    by_cases hab : a < b
    · by_cases hv : v = 0#8
      · have hr := Memory.read_below hm.2.2 (show a < b + 1 by omega)
        simp [Memory.write, Memory.read, hab, hv, hab.ne, hr]
      · simp [Memory.write, Memory.read, hab, hv]
    · by_cases hb : a = b
      · subst hb
        have hr := Memory.read_below hm.2.2 (show a < a + 1 by omega)
        by_cases hv : v = 0#8 <;> simp [Memory.write, Memory.read, hv, hr]
      · simp only [Memory.write, if_neg hab, if_neg hb, Memory.read]
        exact ih hm.2.2

theorem Memory.wfFrom_write {m : Memory} {lo a : Nat} (hm : Memory.wfFrom lo m = true) (ha : lo ≤ a) (v : Byte) :
    Memory.wfFrom lo (Memory.write m a v) = true := by
  induction m generalizing lo with
  | nil => by_cases hv : v = 0#8 <;> simp [Memory.write, Memory.wfFrom, hv, ha]
  | cons c rest ih =>
    obtain ⟨b, w⟩ := c
    have hc := hm
    rw [Memory.wfFrom_cons] at hm
    by_cases hab : a < b
    · by_cases hv : v = 0#8
      · simpa [Memory.write, hab, hv] using hc
      · simp only [Memory.write, if_pos hab, if_neg hv, Memory.wfFrom_cons]
        exact ⟨ha, hv, by omega, hm.2⟩
    · by_cases hb : a = b
      · subst hb
        by_cases hv : v = 0#8
        · simpa [Memory.write, hv] using Memory.wfFrom_mono (show lo ≤ a + 1 by omega) hm.2.2
        · simp only [Memory.write, if_neg hab, if_neg hv, if_true, Memory.wfFrom_cons]
          exact ⟨ha, hv, hm.2.2⟩
      · simp only [Memory.write, if_neg hab, if_neg hb, Memory.wfFrom_cons]
        exact ⟨hm.1, hm.2.1, ih hm.2.2 (by omega)⟩

theorem Memory.wf_write {m : Memory} (hm : Memory.wf m = true) (a : Nat) (v : Byte) :
    Memory.wf (Memory.write m a v) = true := Memory.wfFrom_write hm (Nat.zero_le a) v

theorem Memory.read_write {m : Memory} (hm : Memory.wf m = true) (a x : Nat) (v : Byte) :
    Memory.read (Memory.write m a v) x = if x = a then v else Memory.read m x := by
  by_cases h : x = a
  · subst h; simpa using Memory.read_write_same hm x v
  · simpa [h] using Memory.read_write_ne m v h

theorem Memory.inSpace_cons {a : Nat} {v : Byte} {rest : Memory} :
    Memory.inSpace ((a, v) :: rest) = true ↔ a < 2 ^ 32 ∧ Memory.inSpace rest = true := by
  simp [Memory.inSpace]

theorem Memory.inSpace_write {m : Memory} {a : Nat} (hm : Memory.inSpace m = true) (ha : a < 2 ^ 32) (v : Byte) :
    Memory.inSpace (Memory.write m a v) = true := by
  induction m with
  | nil =>
    by_cases hv : v = 0#8
    · simp [Memory.write, Memory.inSpace, hv]
    · simp only [Memory.write, if_neg hv, Memory.inSpace_cons]
      exact ⟨ha, rfl⟩
  | cons c rest ih =>
    obtain ⟨b, w⟩ := c
    have hc := hm
    rw [Memory.inSpace_cons] at hm
    by_cases hab : a < b
    · by_cases hv : v = 0#8
      · simpa [Memory.write, hab, hv] using hc
      · simp only [Memory.write, if_pos hab, if_neg hv, Memory.inSpace_cons]
        exact ⟨ha, hm⟩
    · by_cases hb : a = b
      · subst hb
        by_cases hv : v = 0#8
        · simpa [Memory.write, hv] using hm.2
        · simp only [Memory.write, if_neg hab, if_neg hv, if_true, Memory.inSpace_cons]
          exact hm
      · simp only [Memory.write, if_neg hab, if_neg hb, Memory.inSpace_cons]
        exact ⟨hm.1, ih hm.2⟩

/-! The 16-bit access of the FSU (20_memory R63). -/

theorem Memory.wf_write16 {m : Memory} (hm : Memory.wf m = true) (a : Nat) (v : Half) :
    Memory.wf (Memory.write16 m a v) = true := Memory.wf_write (Memory.wf_write hm _ _) _ _

theorem Memory.inSpace_write16 {m : Memory} {a : Nat} (hm : Memory.inSpace m = true) (ha : a + 1 < 2 ^ 32) (v : Half) :
    Memory.inSpace (Memory.write16 m a v) = true :=
  Memory.inSpace_write (Memory.inSpace_write hm (by omega) _) ha _

theorem Memory.read_write16_ne (m : Memory) {a x : Nat} (v : Half) (h : x ≠ a) (h' : x ≠ a + 1) :
    Memory.read (Memory.write16 m a v) x = Memory.read m x := by
  rw [Memory.write16, Memory.read_write_ne _ _ h', Memory.read_write_ne _ _ h]

theorem Memory.read16_write16_same {m : Memory} (hm : Memory.wf m = true) (a : Nat) (v : Half) :
    Memory.read16 (Memory.write16 m a v) a = v := by
  have h1 := Memory.read_write_same (Memory.wf_write hm a (v.extractLsb' 0 8)) (a + 1) (v.extractLsb' 8 8)
  have h0 := Memory.read_write_same hm a (v.extractLsb' 0 8)
  rw [Memory.read16, Memory.write16, h1, Memory.read_write_ne _ _ (by omega), h0]
  ext i hi
  simp only [BitVec.getElem_append, BitVec.getElem_extractLsb']
  split <;> simp [← BitVec.getLsbD_eq_getElem]
  congr 1
  omega

theorem Memory.read16_write16_ne (m : Memory) {a x : Nat} (v : Half) (h : x + 1 < a ∨ a + 1 < x) :
    Memory.read16 (Memory.write16 m a v) x = Memory.read16 m x := by
  rw [Memory.read16, Memory.read16, Memory.read_write16_ne _ _ (by omega) (by omega),
    Memory.read_write16_ne _ _ (by omega) (by omega)]

/-! The host's accesses of any width (30_encoding R90). -/

theorem Memory.wf_writeLe (n a v : Nat) {m : Memory} (hm : Memory.wf m = true) :
    Memory.wf (Memory.writeLe n a v m) = true := by
  induction n generalizing a v m with
  | zero => exact hm
  | succ n ih => exact ih (a + 1) (v / 256) (Memory.wf_write hm _ _)

theorem Memory.inSpace_writeLe {n a : Nat} (v : Nat) {m : Memory} (hm : Memory.inSpace m = true) (h : a + n ≤ 2 ^ 32) :
    Memory.inSpace (Memory.writeLe n a v m) = true := by
  induction n generalizing a v m with
  | zero => exact hm
  | succ n ih => exact ih (v / 256) (Memory.inSpace_write hm (by omega) _) (by omega)

theorem Memory.read_writeLe_ne {n a x : Nat} (v : Nat) (m : Memory) (h : x < a ∨ a + n ≤ x) :
    Memory.read (Memory.writeLe n a v m) x = Memory.read m x := by
  induction n generalizing a v m with
  | zero => rfl
  | succ n ih =>
    rw [Memory.writeLe, ih (v / 256) _ (by omega)]
    exact Memory.read_write_ne _ _ (by omega)

/-- Byte `k` of a host write reads back as byte `k` of the value. -/
theorem Memory.read_writeLe {n k : Nat} (a v : Nat) {m : Memory} (hm : Memory.wf m = true) (hk : k < n) :
    Memory.read (Memory.writeLe n a v m) (a + k) = BitVec.ofNat 8 (v / 256 ^ k) := by
  induction n generalizing a v m k with
  | zero => omega
  | succ n ih =>
    rw [Memory.writeLe]
    rcases k with _ | k
    · rw [Memory.read_writeLe_ne _ _ (by omega), Nat.add_zero, Memory.read_write hm, if_pos rfl, Nat.pow_zero,
        Nat.div_one]
    · rw [show a + (k + 1) = a + 1 + k by omega, ih _ _ (Memory.wf_write hm _ _) (by omega), Nat.div_div_eq_div_mul,
        Nat.pow_succ']

/-- A host read of `n` bytes gives a value of `n` bytes. -/
theorem Memory.readLe_lt (m : Memory) (n a : Nat) : Memory.readLe m n a < 2 ^ (8 * n) := by
  induction n generalizing a with
  | zero => exact Nat.one_pos
  | succ n ih =>
    have h := (Memory.read m a).isLt
    have := ih (a + 1)
    rw [Memory.readLe, Nat.mul_succ, Nat.pow_add]
    omega

/-- Byte `k` of a host read. -/
theorem Memory.readLe_byte {n k : Nat} (m : Memory) (a : Nat) (hk : k < n) :
    Memory.readLe m n a / 256 ^ k % 256 = (Memory.read m (a + k)).toNat := by
  induction n generalizing a k with
  | zero => omega
  | succ n ih =>
    have h := (Memory.read m a).isLt
    rw [Memory.readLe]
    rcases k with _ | k
    · rw [Nat.pow_zero, Nat.div_one, Nat.add_zero a]
      omega
    · rw [Nat.pow_succ', ← Nat.div_div_eq_div_mul, show a + (k + 1) = a + 1 + k by omega, ← ih (a + 1) (by omega)]
      congr 2
      omega

end Sys2Proof.Machine
end

