-- ==== Sys2Proof/Laws/Perform.lean ====
section
/-! SUPPORT. The perform steps: which fields each one leaves alone, and that the loops keep the sizes of the internal
memories, the written entries and the canonical form of host memory. -/

namespace Sys2Proof.Machine

/-- No perform step touches a register, a latch, the configuration, PHASE or a field of the model's own. -/
theorem perform_frame (i : Instr) (s : State) :
    (perform i s).phase = s.phase ∧ (perform i s).argAddr = s.argAddr ∧ (perform i s).argScale = s.argScale ∧
    (perform i s).argRange = s.argRange ∧ (perform i s).curCmd = s.curCmd ∧ (perform i s).curAddr = s.curAddr ∧
    (perform i s).curScale = s.curScale ∧ (perform i s).curRange = s.curRange ∧ (perform i s).cfg = s.cfg ∧
    (perform i s).turns = s.turns ∧ (perform i s).busData = s.busData ∧ (perform i s).draws = s.draws := by
  cases i <;> exact ⟨rfl, rfl, rfl, rfl, rfl, rfl, rfl, rfl, rfl, rfl, rfl, rfl⟩

/-- A loop whose body keeps a property keeps it. -/
theorem foldl_keeps {α β : Type} {P : α → Prop} {f : α → β → α} (hf : ∀ a b, P a → P (f a b)) (l : List β) (a : α)
    (ha : P a) : P (l.foldl f a) := by
  induction l generalizing a with
  | nil => exact ha
  | cons b l ih => exact ih (f a b) (hf a b ha)

/-- A loop over the indices below `n` whose body keeps a property at those indices keeps it. -/
theorem foldl_range_keeps {α : Type} {P : α → Prop} {f : α → Nat → α} {n : Nat} (hf : ∀ a k, k < n → P a → P (f a k))
    {a : α} (ha : P a) : P ((List.range n).foldl f a) := by
  induction n with
  | zero => exact ha
  | succ n ih =>
    rw [List.range_succ, List.foldl_append]
    exact hf _ n (Nat.lt_succ_self n) (ih fun a k hk => hf a k (by omega))

theorem tdSet_length (td : List (Option Cplx)) (i : Nat) (v : Cplx) : (tdSet td i v).length = td.length := by
  simp [tdSet]

theorem specSet_length (sp : List (Option F32)) (i : Nat) (v : F32) : (specSet sp i v).length = sp.length := by
  simp [specSet]

theorem tdSet_get {td : List (Option Cplx)} {i : Nat} (h : i < td.length) (v : Cplx) (k : Nat) :
    (tdSet td i v)[k]? = if i = k then some (some v) else td[k]? := by
  by_cases hk : i = k
  · subst hk; simp [tdSet, h]
  · simp [tdSet, hk]

theorem specSet_get {sp : List (Option F32)} {i : Nat} (h : i < sp.length) (v : F32) (k : Nat) :
    (specSet sp i v)[k]? = if i = k then some (some v) else sp[k]? := by
  by_cases hk : i = k
  · subst hk; simp [specSet, h]
  · simp [specSet, hk]

theorem tdEntry_of_get {td : List (Option Cplx)} {i : Nat} {v : Cplx} (h : td[i]? = some (some v)) :
    tdEntry td i = v := by
  simp [tdEntry, List.getD, h]

theorem specEntry_of_get {sp : List (Option F32)} {i : Nat} {v : F32} (h : sp[i]? = some (some v)) :
    specEntry sp i = v := by
  simp [specEntry, List.getD, h]

theorem loadTd_length (ch : Channel) (s : State) : (loadTd ch s).length = s.td.length :=
  foldl_keeps (P := fun td : List (Option Cplx) => td.length = s.td.length) (fun _ _ h => (tdSet_length _ _ _).trans h) _ _ rfl

theorem butterfly_length (td : List (Option Cplx)) (a b : Nat) (w : Cplx) :
    (butterfly td a b w).length = td.length := by
  simp [butterfly, tdSet_length]

theorem fftBlock_length (c : Config) (n k : Nat) (td : List (Option Cplx)) : (fftBlock c n k td).length = td.length :=
  foldl_keeps (P := fun t : List (Option Cplx) => t.length = td.length) (fun _ _ h => (butterfly_length _ _ _ _).trans h) _ _ rfl

theorem fftStage_length (c : Config) (n : Nat) (td : List (Option Cplx)) : (fftStage c n td).length = td.length :=
  foldl_keeps (P := fun t : List (Option Cplx) => t.length = td.length) (fun _ _ h => (fftBlock_length _ _ _ _).trans h) _ _ rfl

theorem fftNetwork_length (c : Config) (td : List (Option Cplx)) : (fftNetwork c td).length = td.length :=
  foldl_keeps (P := fun t : List (Option Cplx) => t.length = td.length) (fun _ _ h => (fftStage_length _ _ _).trans h) _ _ rfl

theorem extractPairs_length (c : Config) (sc : F32) (td : List (Option Cplx)) (sp : List (Option F32)) :
    (extractPairs c sc td sp).length = sp.length :=
  foldl_keeps (P := fun t : List (Option F32) => t.length = sp.length)
    (fun _ _ h => by simp only [extractPair, specSet_length]; exact h) _ _ rfl

theorem halveDc_length (sp : List (Option F32)) : (halveDc sp).length = sp.length := specSet_length _ _ _

theorem bandLoop_delay_length (s : State) : (bandLoop s).delay.length = s.delay.length :=
  foldl_keeps (P := fun x : BandState => x.delay.length = s.delay.length)
    (fun _ _ h => by simp only [bandStep, List.length_set]; exact h) _ _ rfl

/-- Writing an entry keeps what is written. -/
theorem allWritten_set {α : Type} {l : List (Option α)} (h : allWritten l = true) (i : Nat) (v : α) :
    allWritten (l.set i (some v)) = true := by
  rw [allWritten, List.all_eq_true] at h ⊢
  intro x hx
  rcases List.mem_or_eq_of_mem_set hx with hx | rfl
  · exact h x hx
  · rfl

theorem allWritten_butterfly {td : List (Option Cplx)} (h : allWritten td = true) (a b : Nat) (w : Cplx) :
    allWritten (butterfly td a b w) = true := allWritten_set (allWritten_set h _ _) _ _

theorem allWritten_fftNetwork (c : Config) {td : List (Option Cplx)} (h : allWritten td = true) :
    allWritten (fftNetwork c td) = true := by
  refine foldl_keeps (P := fun t => allWritten t = true) (fun t n ht => ?_) _ _ h
  refine foldl_keeps (P := fun t => allWritten t = true) (fun t k ht => ?_) _ _ ht
  exact foldl_keeps (P := fun t => allWritten t = true) (fun t j ht => allWritten_butterfly ht _ _ _) _ _ ht

/-- The shaper keeps the canonical form of host memory. -/
theorem wf_shapeMem (b : Bool) {s : State} (h : Memory.wf s.mem = true) : Memory.wf (shapeMem b s) = true :=
  foldl_keeps (P := fun m => Memory.wf m = true) (fun _ _ hm => Memory.wf_write16 hm _ _) _ _ h

/-- BANDS keeps the canonical form of host memory. -/
theorem wf_bandLoop {s : State} (h : Memory.wf s.mem = true) : Memory.wf (bandLoop s).mem = true :=
  foldl_keeps (P := fun x : BandState => Memory.wf x.mem = true) (fun _ _ hm => Memory.wf_write16 hm _ _) _ _ h

/-- Within a legal range the shaper keeps host memory within the address space. -/
theorem inSpace_shapeMem (b : Bool) {s : State} (h : Memory.inSpace s.mem = true)
    (hr : baseAddr s + 2 * s.cfg.fftOutN ≤ 2 ^ 32) : Memory.inSpace (shapeMem b s) = true :=
  foldl_range_keeps (P := fun m => Memory.inSpace m = true)
    (fun _ _ hk hm => Memory.inSpace_write16 hm (by omega) _) h

/-- Within a legal range BANDS keeps host memory within the address space. -/
theorem inSpace_bandLoop {s : State} (h : Memory.inSpace s.mem = true)
    (hr : baseAddr s + 2 * s.cfg.bandN ≤ 2 ^ 32) : Memory.inSpace (bandLoop s).mem = true :=
  foldl_range_keeps (P := fun x : BandState => Memory.inSpace x.mem = true)
    (fun _ _ hk hm => Memory.inSpace_write16 hm (by omega) _) h

/-- Outside its array the shaper changes no byte of host memory. -/
theorem read_shapeMem_outside (b : Bool) (s : State) {x : Nat}
    (h : x < baseAddr s ∨ baseAddr s + 2 * s.cfg.fftOutN ≤ x) :
    Memory.read (shapeMem b s) x = Memory.read s.mem x :=
  foldl_range_keeps (P := fun m => Memory.read m x = Memory.read s.mem x)
    (fun _ _ hk hm => (Memory.read_write16_ne _ _ (by omega) (by omega)).trans hm) rfl

/-- Outside its array BANDS changes no byte of host memory. -/
theorem read_bandLoop_outside (s : State) {x : Nat} (h : x < baseAddr s ∨ baseAddr s + 2 * s.cfg.bandN ≤ x) :
    Memory.read (bandLoop s).mem x = Memory.read s.mem x :=
  foldl_range_keeps (P := fun y : BandState => Memory.read y.mem x = Memory.read s.mem x)
    (fun _ _ hk hm => (Memory.read_write16_ne _ _ (by omega) (by omega)).trans hm) rfl

/-- A counter stays within BAND_DELAY (46_bands R226). -/
theorem nextDelay_le {c : Config} {d : Half} (h : d.toNat ≤ c.bandDelay.toNat) (b : Bool) :
    (nextDelay c d b).toNat ≤ c.bandDelay.toNat := by
  cases b
  · simp [nextDelay]; omega
  · simp [nextDelay]

end Sys2Proof.Machine
end

