-- ==== Sys2Proof/Laws/Loops.lean ====
section
/-! SUPPORT. The loops of the perform steps, element by element: what each one leaves, from what was there before it. -/

namespace Sys2Proof.Machine

/-- A loop that writes distinct entries of TD leaves each of them written (42_load R142). -/
theorem foldl_tdSet_get {n : Nat} {f : Nat → Nat} (v : Nat → Cplx) (hf : ∀ i < n, ∀ j < n, f i = f j → i = j)
    {td : List (Option Cplx)} (hl : ∀ i < n, f i < td.length) :
    ∀ i < n, ((List.range n).foldl (fun td i => tdSet td (f i) (v i)) td)[f i]? = some (some (v i)) := by
  suffices key : ∀ m ≤ n, ((List.range m).foldl (fun td i => tdSet td (f i) (v i)) td).length = td.length ∧
      ∀ i < m, ((List.range m).foldl (fun td i => tdSet td (f i) (v i)) td)[f i]? = some (some (v i)) from
    (key n le_rfl).2
  intro m
  induction m with
  | zero => simp
  | succ m ih =>
    intro hm
    obtain ⟨h1, h2⟩ := ih (by omega)
    rw [List.range_succ, List.foldl_append]
    refine ⟨by simpa [tdSet] using h1, fun i hi => ?_⟩
    simp only [List.foldl_cons, List.foldl_nil]
    rw [tdSet_get (by rw [h1]; exact hl m (by omega))]
    split
    · rename_i h
      obtain rfl := hf m (by omega) i (by omega) h
      rfl
    · rename_i h
      refine h2 i ?_
      rcases Nat.lt_succ_iff_lt_or_eq.1 hi with h' | rfl
      · exact h'
      · exact absurd rfl h

/-- The unpacker's loop leaves the two amplitudes of every pair (44_extract R182). -/
theorem extractPairs_get (c : Config) (sc : F32) (td : List (Option Cplx)) {sp : List (Option F32)} {n : Nat}
    (h : 2 * n ≤ sp.length) :
    ((List.range n).foldl (extractPair c sc td) sp).length = sp.length ∧ ∀ i < n,
      ((List.range n).foldl (extractPair c sc td) sp)[2 * i]? =
        some (some (amplitude c sc (unpackSum c td i))) ∧
      ((List.range n).foldl (extractPair c sc td) sp)[2 * i + 1]? =
        some (some (amplitude c sc (unpackDiff c td i))) := by
  induction n with
  | zero => simp
  | succ n ih =>
    obtain ⟨h1, h2⟩ := ih (by omega)
    rw [List.range_succ, List.foldl_append]
    generalize (List.range n).foldl (extractPair c sc td) sp = sp' at *
    simp only [List.foldl_cons, List.foldl_nil, extractPair]
    refine ⟨by simp [specSet, h1], fun i hi => ?_⟩
    rw [specSet_get (by simp [specSet]; omega), specSet_get (by omega), specSet_get (by simp [specSet]; omega),
      specSet_get (by omega)]
    rcases Nat.lt_succ_iff_lt_or_eq.1 hi with h | rfl
    · rw [if_neg (by omega), if_neg (by omega), if_neg (by omega), if_neg (by omega)]
      exact h2 i h
    · simp

/-- A loop that rewrites the 16-bit elements from `base` on, each from its own old word (20_memory R68). -/
theorem foldl_write16_read16 (g : Nat → Half → Half) (base n : Nat) {m : Memory} (hm : Memory.wf m = true) :
    Memory.wf ((List.range n).foldl
      (fun m k => Memory.write16 m (base + 2 * k) (g k (Memory.read16 m (base + 2 * k)))) m) = true ∧
    ∀ k, Memory.read16 ((List.range n).foldl
      (fun m k => Memory.write16 m (base + 2 * k) (g k (Memory.read16 m (base + 2 * k)))) m) (base + 2 * k) =
      if k < n then g k (Memory.read16 m (base + 2 * k)) else Memory.read16 m (base + 2 * k) := by
  induction n with
  | zero => simp [hm]
  | succ n ih =>
    rw [List.range_succ, List.foldl_append]
    generalize (List.range n).foldl
      (fun m k => Memory.write16 m (base + 2 * k) (g k (Memory.read16 m (base + 2 * k)))) m = r at *
    obtain ⟨h1, h2⟩ := ih
    simp only [List.foldl_cons, List.foldl_nil]
    refine ⟨Memory.wf_write16 h1 _ _, fun k => ?_⟩
    by_cases hk : k = n
    · subst hk
      rw [Memory.read16_write16_same h1, h2]
      simp
    · rw [Memory.read16_write16_ne _ _ (by omega), h2]
      by_cases h : k < n
      · rw [if_pos h, if_pos (by omega)]
      · rw [if_neg h, if_neg (by omega)]

/-- The shaper's element `k`, from its old word (45_binners R203, R204). -/
theorem read16_shapeMem (b : Bool) {s : State} (hm : Memory.wf s.mem = true) {k : Nat} (hk : k < s.cfg.fftOutN) :
    Memory.read16 (shapeMem b s) (baseAddr s + 2 * k) =
      blendWord (shaped b s.cfg s.spec k) (Memory.read16 s.mem (baseAddr s + 2 * k)) (minVal s) (maxVal s) := by
  have h := (foldl_write16_read16 (fun k v => blendWord (shaped b s.cfg s.spec k) v (minVal s) (maxVal s))
    (baseAddr s) s.cfg.fftOutN hm).2 k
  rwa [if_pos hk] at h

/-- The band loop's word and counter of band `k`, from its old word and counter (46_bands R227). -/
theorem bandLoop_get {s : State} {n : Nat} (hm : Memory.wf s.mem = true) (hl : n ≤ s.delay.length) :
    Memory.wf ((List.range n).foldl (bandStep s) { mem := s.mem, delay := s.delay }).mem = true ∧
    ((List.range n).foldl (bandStep s) { mem := s.mem, delay := s.delay }).delay.length = s.delay.length ∧
    ∀ k,
      Memory.read16 ((List.range n).foldl (bandStep s) { mem := s.mem, delay := s.delay }).mem (baseAddr s + 2 * k) =
        (if k < n then
          bandWord (bandVal s.cfg s.spec k)
            (decayed s.cfg (delayEntry s.delay k) (Memory.read16 s.mem (baseAddr s + 2 * k))) (minVal s) (maxVal s)
        else Memory.read16 s.mem (baseAddr s + 2 * k)) ∧
      ((List.range n).foldl (bandStep s) { mem := s.mem, delay := s.delay }).delay[k]? =
        if k < n then
          some (nextDelay s.cfg (delayEntry s.delay k)
            (snaps (bandVal s.cfg s.spec k)
              (decayed s.cfg (delayEntry s.delay k) (Memory.read16 s.mem (baseAddr s + 2 * k)))))
        else s.delay[k]? := by
  induction n with
  | zero => simp [hm]
  | succ n ih =>
    rw [List.range_succ, List.foldl_append]
    obtain ⟨h1, h0, h2⟩ := ih (by omega)
    generalize (List.range n).foldl (bandStep s) { mem := s.mem, delay := s.delay } = r at *
    simp only [List.foldl_cons, List.foldl_nil, bandStep]
    have e : delayEntry r.delay n = delayEntry s.delay n := by simp [delayEntry, List.getD, (h2 n).2]
    have e2 := (h2 n).1
    rw [if_neg (by omega)] at e2
    refine ⟨Memory.wf_write16 h1 _ _, by simp [h0], fun k => ?_⟩
    by_cases hk : k = n
    · subst hk
      rw [Memory.read16_write16_same h1, e, e2, List.getElem?_set_self (by omega)]
      simp
    · rw [Memory.read16_write16_ne _ _ (by omega), (h2 k).1, List.getElem?_set_ne (by omega), (h2 k).2]
      by_cases h : k < n
      · rw [if_pos h, if_pos (by omega), if_pos h, if_pos (by omega)]
        exact ⟨rfl, rfl⟩
      · rw [if_neg h, if_neg (by omega), if_neg h, if_neg (by omega)]
        exact ⟨rfl, rfl⟩

theorem tdEntry_tdSet {td : List (Option Cplx)} {i : Nat} (h : i < td.length) (v : Cplx) (k : Nat) :
    tdEntry (tdSet td i v) k = if i = k then v else tdEntry td k := by
  by_cases hk : i = k
  · subst hk
    rw [if_pos rfl]
    exact tdEntry_of_get (by rw [tdSet_get h, if_pos rfl])
  · rw [if_neg hk]
    unfold tdEntry List.getD
    rw [tdSet_get h, if_neg hk]

/-- One butterfly, entry by entry (43_fft R165). -/
theorem tdEntry_butterfly {td : List (Option Cplx)} {a b : Nat} (ha : a < td.length) (hb : b < td.length) (w : Cplx)
    (x : Nat) :
    tdEntry (butterfly td a b w) x =
      if b = x then bflyDiff (tdEntry td a) (tdEntry td b) w
      else if a = x then bflySum (tdEntry td a) (tdEntry td b) w
      else tdEntry td x := by
  unfold butterfly
  rw [tdEntry_tdSet (by rw [tdSet_length]; exact hb), tdEntry_tdSet ha]

end Sys2Proof.Machine
end

