-- ==== Sys2Proof/Laws/PerInstr.lean ====
section
/-! SUPPORT. Statements made once per constructor of Instr (LAWS.json): the encoding of a command has the fields of a
valid word (30_encoding R83). -/

namespace Sys2Proof.Laws.EncodingShape

/-- The fields of the command's word are well-formed: OP at most 8, RSV = 0, and CH = 0 unless OP = 2. -/
def Statement (i : Instr) : Prop := (fieldsOf (encode i)).wellFormed = true

theorem nop : Statement .nop := by unfold Statement; decide
theorem init : Statement .init := by unfold Statement; decide
theorem loadL : Statement .loadL := by unfold Statement; decide
theorem loadR : Statement .loadR := by unfold Statement; decide
theorem loadM : Statement .loadM := by unfold Statement; decide
theorem loadX : Statement .loadX := by unfold Statement; decide
theorem transform : Statement .transform := by unfold Statement; decide
theorem extract : Statement .extract := by unfold Statement; decide
theorem linear : Statement .linear := by unfold Statement; decide
theorem log : Statement .log := by unfold Statement; decide
theorem bands : Statement .bands := by unfold Statement; decide
theorem clrerr : Statement .clrerr := by unfold Statement; decide

end Sys2Proof.Laws.EncodingShape
end

