-- ==== Sys2Proof/Laws/Turns.lean ====
section
/-! SUPPORT. The moves of the two agents: everything a bus access, a turn of the sequencer and a step can answer. -/

namespace Sys2Proof.Machine

/-- Everything a host access can answer. -/
theorem busAccess_cases {s t : State} {width : AccessWidth} {a : Nat} {onReg : Reg → State} {onMem : State}
    (h : busAccess s width a onReg onMem = .next t) :
    (touchesRegBlock s.cfg a (widthBytes width) = true ∧ legalRegAccess s.cfg width a = true ∧
      t = onReg (regAt (a - s.cfg.regBase.toNat))) ∨
    (touchesRegBlock s.cfg a (widthBytes width) = false ∧ a + widthBytes width ≤ 2 ^ 32 ∧
      touchesInFlight s a (widthBytes width) = false ∧ t = onMem) := by
  unfold busAccess at h
  by_cases h1 : touchesRegBlock s.cfg a (widthBytes width) = true
  · by_cases h2 : legalRegAccess s.cfg width a = true
    · simp [h1, h2] at h
      exact .inl ⟨h1, h2, h.symm⟩
    · simp [h1, h2] at h
  · by_cases h3 : a + widthBytes width > 2 ^ 32
    · rw [if_neg h1, if_pos h3] at h
      cases h
    · by_cases h4 : touchesInFlight s a (widthBytes width) = true
      · rw [if_neg h1, if_neg h3, if_pos h4] at h
        cases h
      · rw [if_neg h1, if_neg h3, if_neg h4] at h
        injection h with h
        exact .inr ⟨by simpa using h1, by omega, by simpa using h4, h.symm⟩

/-- A write to a register changes at most the operand registers, and, through CMD, issues or overruns. -/
theorem regWrite_cases (s : State) (w : Word) (r : Reg) :
    regWrite s w r = s ∨ regWrite s w r = { s with argAddr := w } ∨ regWrite s w r = { s with argScale := w } ∨
    regWrite s w r = { s with argRange := w } ∨ (s.phase = .idle ∧ regWrite s w r = issue w s) ∨
    (s.phase = .busy ∧ regWrite s w r = overrun s) := by
  cases r <;> simp [regWrite, writeCmd]
  cases hp : s.phase <;> simp

/-- Everything a turn of the sequencer can answer. -/
theorem sequencerTurn_cases {s t : State} (h : sequencerTurn s = .next t) :
    (s.phase = .idle ∧ t = s) ∨
    (s.phase = .busy ∧ ∃ i, decode s.curCmd = .cmd i ∧ exec i s = .next t) ∨
    (s.phase = .busy ∧ ∃ k, decode s.curCmd = .reserved k ∧ t = raiseErr (reservedCode k) s) := by
  unfold sequencerTurn at h
  cases hp : s.phase <;> simp only [hp] at h
  · injection h with h
    exact .inl ⟨rfl, h.symm⟩
  · cases hd : decode s.curCmd with
    | cmd i => exact .inr (.inl ⟨rfl, i, rfl, by simpa [hd] using h⟩)
    | reserved k =>
      simp only [hd] at h
      injection h with h
      exact .inr (.inr ⟨rfl, k, rfl, h.symm⟩)

/-- Everything a step can answer: the configuration is well-formed, and the sequencer or the host moved. -/
theorem step_cases {s t : State} (h : step s = .next t) :
    configWf s.cfg = true ∧
    ((s.turns = [] ∧ sequencerTurn s = .next t) ∨
      (∃ ts, s.turns = .sequencer :: ts ∧ sequencerTurn (s.setTurns ts) = .next t) ∨
      (∃ m ts, s.turns = .host m :: ts ∧ hostTurn m (s.setTurns ts) = .next t)) := by
  unfold step nextTurn at h
  by_cases hw : configWf s.cfg = true
  · simp only [hw, if_true] at h
    refine ⟨hw, ?_⟩
    cases hts : s.turns with
    | nil => exact .inl ⟨rfl, by simpa [hts] using h⟩
    | cons u ts =>
      cases u with
      | sequencer => exact .inr (.inl ⟨ts, rfl, by simpa [hts] using h⟩)
      | host m => exact .inr (.inr ⟨m, ts, rfl, by simpa [hts] using h⟩)
  · simp [hw] at h

/-- A host access to host memory, clear of the register block and of the range in flight, has its effect. -/
theorem busAccess_of_memory {s : State} {width : AccessWidth} {a : Nat} (onReg : Reg → State) (onMem : State)
    (hr : touchesRegBlock s.cfg a (widthBytes width) = false) (ha : a + widthBytes width ≤ 2 ^ 32)
    (hf : touchesInFlight s a (widthBytes width) = false) : busAccess s width a onReg onMem = .next onMem := by
  rw [busAccess, hr, hf, if_neg Bool.false_ne_true, if_neg (by omega), if_neg Bool.false_ne_true]

/-- With the sequencer to move, its turn listed or not, a step is its turn. -/
theorem step_of_sequencer {s : State} (hw : configWf s.cfg = true)
    (h : s.turns = [] ∨ ∃ ts, s.turns = .sequencer :: ts) : step s = sequencerTurn (s.setTurns s.turns.tail) := by
  rcases h with h | ⟨ts, h⟩
  · rw [step, nextTurn, if_pos hw, h]
    cases s
    subst h
    rfl
  · rw [step, nextTurn, if_pos hw, h]
    rfl

/-- With the host to move, a step is its move. -/
theorem step_of_host {s : State} {m : HostMove} {ts : List Turn} (hw : configWf s.cfg = true)
    (h : s.turns = .host m :: ts) : step s = hostTurn m (s.setTurns ts) := by
  rw [step, nextTurn, if_pos hw, h]

end Sys2Proof.Machine
end

