-- ==== Sys2Proof/Tests/Slice0.lean ====
section
/-! SUPPORT. Tests of the model. Every expected value is the spec's own: a row of its encoding tables or a vector of
95_test_vectors, named at each test. The second half shows, for every statement with hypotheses, a state and operands that
meet all of them together. -/

namespace Sys2Proof.Tests

/- One theorem after the other: each one waiting on the kernel would hold a thread. -/
set_option Elab.async false

open Sys2Proof Sys2Proof.Machine

/-! ## Helpers -/

/-- A configuration with LOG2N, FFT_OUT_N and BAND_N given, the rest as the common one. -/
def cfg (l o b : Nat) : Config := { Config.common with log2n := l, fftOutN := o, bandN := b }

/-- A machine with the three valid flags given, TD and SPEC given, and its operand registers set to an admitted address,
the scale 4.0 and the range 0 to 400. -/
def machine (c : Config) (flags : Bool × Bool × Bool) (td : List Cplx) (spec : List F32) : State :=
  { State.resetWith c with
    status := { Status.reset with tblValid := flags.1, tdValid := flags.2.1, specValid := flags.2.2 }
    td := td.map some, spec := spec.map some
    argAddr := 0x10000#32, argScale := 0x40800000#32, argRange := 0x01900000#32 }

/-- Host memory with int16 or uint16 elements from address 0x10000 on. -/
def elements (l : List Int) : Memory :=
  (l.zip (List.range l.length)).foldl (fun m x => Memory.write16 m (0x10000 + 2 * x.2) (BitVec.ofInt 16 x.1)) []

/-- The state after the command word has been issued and completed. -/
def after (w : Nat) (s : State) : Option State :=
  match step (s.withFetchWord 32 w) with
  | .next t => some t
  | .fault _ => none
  | .refused _ => none

/-- STATUS after the command word. -/
def statusAfter (w : Nat) (s : State) : Option Word := (after w s).map statusWord

/-- TD after the command word, SPEC after it, and the first output words with DELAY. -/
def tdAfter (w : Nat) (s : State) : Option (List (Option Cplx)) := (after w s).map State.td
def specAfter (w : Nat) (s : State) : Option (List (Option F32)) := (after w s).map State.spec
def wordsAfter (w n : Nat) (s : State) : Option (List Nat) :=
  (after w s).map fun t => (List.range n).map fun k => (Memory.read16 t.mem (0x10000 + 2 * k)).toNat
def delayAfter (w : Nat) (s : State) : Option (List Half) := (after w s).map State.delay

/-- A state whose STATUS word (with BUSY = 0 and a code given) has the flags, LASTOP and sticky bits given. -/
def withStatus (tbl td sp err ovr : Bool) (e : ErrCode) (op : BitVec 4) (s : State) : State :=
  { s with status := ⟨tbl, td, sp, err, ovr, e, op⟩ }

/-- Integer complex values. -/
def ints (l : List (Int × Int)) : List Cplx := l.map fun x => ⟨i2f x.1, i2f x.2⟩

/-! ## Well-formedness of command fields and of configurations -/

/-- 30_encoding R84: opcode 9. -/
theorem test_wf_op : CmdFields.opValid ⟨9, 0, 0⟩ = false ∧ CmdFields.wellFormed ⟨9, 0, 0⟩ = false := by decide
/-- 30_encoding R85: a reserved bit set. -/
theorem test_wf_rsv : CmdFields.rsvZero ⟨2, 0, 1⟩ = false ∧ CmdFields.wellFormed ⟨2, 0, 1⟩ = false := by decide
/-- 30_encoding R86: CH set outside LOAD. -/
theorem test_wf_ch : CmdFields.chValid ⟨3, 1, 0⟩ = false ∧ CmdFields.wellFormed ⟨3, 1, 0⟩ = false := by decide
/-- 30_encoding R83: LOAD.X is a valid word. -/
theorem test_wf_ok : CmdFields.wellFormed ⟨2, 3, 0⟩ = true := by decide
/-- 00_scope R7, R9: one ill-formed configuration for each row. -/
theorem test_configWf : configWf Config.common = true ∧ log2nOk (cfg 0 1 1) = false ∧ log2nOk (cfg 16 1 1) = false ∧
    fftOutNOk (cfg 2 3 2) = false ∧ fftOutNOk (cfg 2 8 2) = false ∧ bandNOk (cfg 2 2 0) = false ∧
    bandNOk (cfg 2 2 5) = false ∧ regBaseOk { Config.common with regBase := 0x40000020#32 } = false := by
  decide +kernel

/-! ## Decoding, by words written out bit by bit (RSV, CH, OP) from 30_encoding R83 -/

theorem test_decode_nop : decode 0b00000000000000000000000000_00_0000#32 = .cmd .nop := by decide
theorem test_decode_init : decode 0b00000000000000000000000000_00_0001#32 = .cmd .init := by decide
theorem test_decode_loadL : decode 0b00000000000000000000000000_00_0010#32 = .cmd .loadL := by decide
theorem test_decode_loadR : decode 0b00000000000000000000000000_01_0010#32 = .cmd .loadR := by decide
theorem test_decode_loadM : decode 0b00000000000000000000000000_10_0010#32 = .cmd .loadM := by decide
theorem test_decode_loadX : decode 0b00000000000000000000000000_11_0010#32 = .cmd .loadX := by decide
theorem test_decode_transform : decode 0b00000000000000000000000000_00_0011#32 = .cmd .transform := by decide
theorem test_decode_extract : decode 0b00000000000000000000000000_00_0100#32 = .cmd .extract := by decide
theorem test_decode_linear : decode 0b00000000000000000000000000_00_0101#32 = .cmd .linear := by decide
theorem test_decode_log : decode 0b00000000000000000000000000_00_0110#32 = .cmd .log := by decide
theorem test_decode_bands : decode 0b00000000000000000000000000_00_0111#32 = .cmd .bands := by decide
theorem test_decode_clrerr : decode 0b00000000000000000000000000_00_1000#32 = .cmd .clrerr := by decide
/-- 30_encoding R84 to R86, and 95_test_vectors V8, V1.5: reserved words. -/
theorem test_decode_reserved : decode 0x9#32 = .reserved .badop ∧ decode 0x1F#32 = .reserved .badop ∧
    decode 0xFFFFFFFF#32 = .reserved .badop ∧ decode 0x42#32 = .reserved .rsvd ∧ decode 0x11#32 = .reserved .rsvd ∧
    decode 0x48#32 = .reserved .rsvd := by decide
/-- 30_encoding R83: the words of the twelve commands. -/
theorem test_encode : [Instr.nop, .init, .loadL, .loadR, .loadM, .loadX, .transform, .extract, .linear, .log, .bands,
    .clrerr].map encode = [0x0#32, 0x1#32, 0x2#32, 0x12#32, 0x22#32, 0x32#32, 0x3#32, 0x4#32, 0x5#32, 0x6#32, 0x7#32,
    0x8#32] := by decide

/-! ## The commands -/

/-- 95_test_vectors V2: NOP from STATUS 0x00030312. -/
theorem test_nop :
    statusAfter 0x0 (withStatus true false false true false .noinit 3 State.reset) = some 0x00000012#32 := by
  decide +kernel
/-- 95_test_vectors V1.5: INIT from STATUS 0x0005071E. -/
theorem test_init :
    statusAfter 0x1 (withStatus true true true true false .minmax 5 State.reset) = some 0x0001001E#32 := by
  decide +kernel
/-- 95_test_vectors V1.5: INIT with CH = 1, after reset. -/
theorem test_init_rsvd : statusAfter 0x11 State.reset = some 0x00010210#32 := by decide +kernel
/-- 95_test_vectors V2: CLRERR from STATUS 0x00000332. -/
theorem test_clrerr :
    statusAfter 0x8 (withStatus true false false true true .noinit 0 State.reset) = some 0x00080002#32 := by
  decide +kernel
/-- 95_test_vectors V2: CLRERR with a reserved bit. -/
theorem test_clrerr_rsvd : statusAfter 0x48 State.reset = some 0x00080210#32 := by decide +kernel

/-- The raw block of 95_test_vectors V3.1, first row, with left and right as given. -/
def raw (l : List Int) : State := { machine (cfg 1 1 1) (true, false, false) [] [] with
  mem := elements l, td := [none, none], spec := [none, none] }
/-- The TD of V3.1's first row. -/
def tdV31 : List (Option Cplx) :=
  [some (.ofBits 0x40F58106#32 0xC319D604#32), some (.ofBits 0x44404B85#32 0x3E6BAF10#32)]

/-- 95_test_vectors V3.1: LOAD.L. -/
theorem test_loadL : tdAfter 0x02 (raw [100, 0, -200, 0, 1000, 0, 3, 0]) = some tdV31 := by decide +kernel
/-- 95_test_vectors V3.1: LOAD.R. -/
theorem test_loadR : tdAfter 0x12 (raw [0, 100, 0, -200, 0, 1000, 0, 3]) = some tdV31 := by decide +kernel
/-- 95_test_vectors V3.1: LOAD.M. -/
theorem test_loadM : tdAfter 0x22 (raw [100, -100, -200, 7, 1000, -1000, 3, -4]) =
    some [some (.ofBits 0x00000000#32 0xC29473A5#32), some (.ofBits 0x00000000#32 0xBD1D1F60#32)] := by decide +kernel
/-- 95_test_vectors V3.2, LOAD.L at N = 4: slot 1 lands in TD[2], with the extreme inputs. -/
theorem test_loadL_bitrev :
    tdAfter 0x02 { machine Config.common (true, false, false) [] [] with
      mem := elements [1000, -1000, 0, 50, 2000, 0, -1, 0, -32768, 32767, 32767, 32767, 7, 9, 0, 0]
      td := List.replicate 4 none } =
    some [some (.ofBits 0x429970A4#32 0#32), some (.ofBits 0xC6F44BE9#32 0x46A41CD6#32),
      some (.ofBits 0x44A04569#32 0xBF744BE9#32), some (.ofBits 0x3FE07A12#32 0#32)] := by decide +kernel
/-- 95_test_vectors V3.3: means before windowing. -/
theorem test_stereoMean : stereoMean 32767 (-32768) = .ofBits 0xBF000000#32 ∧ stereoMean (-1) 1 = .ofBits 0#32 ∧
    stereoMean (-3) 0 = .ofBits 0xBFC00000#32 := by decide +kernel
/-- 95_test_vectors V3.4: LOAD.X after reset and INIT. -/
theorem test_loadX : statusAfter 0x32 (machine Config.common (true, false, false) [] []) = some 0x00020002#32 := by
  decide +kernel
/-- 95_test_vectors V3.4: LOAD.X at the last addresses, in range and out of it; HOSTMEM_OK admits none of them. -/
theorem test_loadX_range :
    statusAfter 0x32 { machine Config.common (true, false, false) [] [] with argAddr := 0xFFFFFFE0#32 } =
      some 0x00020002#32 ∧
    statusAfter 0x32 { machine Config.common (true, false, false) [] [] with argAddr := 0xFFFFFFE2#32 } =
      some 0x00020612#32 := by decide +kernel

/-- 95_test_vectors V4.1. -/
theorem test_transform : tdAfter 0x3 (machine (cfg 1 1 1) (true, true, false) (ints [(1, 2), (3, 4)]) []) =
    some ((ints [(4, 6), (-2, -2)]).map some) := by decide +kernel
/-- The output of 95_test_vectors V4.2, in the normative configuration. -/
def tdV42 : List Cplx :=
  [.ofBits 0x41200000#32 0#32, .ofBits 0xBF800000#32 0x3FDDB3D7#32, .ofBits 0xC0000000#32 0#32,
    .ofBits 0xC0400000#32 0xBFDDB3D7#32]
/-- 95_test_vectors V4.2, in bit-reversed slot order. -/
theorem test_transform_n4 :
    tdAfter 0x3 (machine Config.common (true, true, false) (ints [(1, 0), (3, 0), (2, 0), (4, 0)]) []) =
      some (tdV42.map some) := by decide +kernel

/-- 95_test_vectors V5.1. -/
theorem test_extract :
    specAfter 0x4 { machine (cfg 1 1 1) (true, true, false) (ints [(3, 0), (0, 4)]) [] with
      spec := [none, none] } =
    some [some (.ofBits 0x40200000#32), some (.ofBits 0x40A00000#32)] := by decide +kernel
/-- 95_test_vectors V5.2, TWIDDLE_DEN 3. -/
theorem test_extract_n4 :
    specAfter 0x4 { machine Config.common (true, true, false) tdV42 [] with
      spec := List.replicate 4 none, argScale := 0x3F800000#32 } =
    some [some (.ofBits 0x3EE6C15A#32), some (.ofBits 0x3FD1D689#32), some (.ofBits 0x3EDDB3D7#32),
      some (.ofBits 0x3E800000#32)] := by decide +kernel

/-- A spectrum and previous words, for the shapers. -/
def shaping (c : Config) (spec : List F32) (prev : List Int) : State :=
  { machine c (true, false, true) [] spec with mem := elements prev }
/-- The spectrum of 95_test_vectors V6.1. -/
def specV61 : List F32 := [i2f 1, i2f 3, i2f 10, i2f 30]

/-- 95_test_vectors V6.1. -/
theorem test_linear : wordsAfter 0x5 2 (shaping Config.common specV61 [0, 100]) = some [10, 150] := by decide +kernel
/-- 95_test_vectors V6.6: a NaN and an infinity, range 10 to 60. -/
theorem test_linear_nan :
    wordsAfter 0x5 2 { shaping Config.common [.nan, i2f 1, .inf false, i2f 1] [30, 30] with
      argRange := 0x003C000A#32 } = some [10, 60] := by decide +kernel
/-- 95_test_vectors V6.2. -/
theorem test_log :
    wordsAfter 0x6 2 (shaping Config.common [i2f 9, i2f 9, i2f 99, i2f 99] [0, 100]) = some [100, 250] := by
  decide +kernel
/-- 95_test_vectors V6.5, the reference logarithm. -/
theorem test_log_reference : wordsAfter 0x6 4 (shaping (cfg 2 4 2) specV61 [0, 0, 0, 0]) = some [30, 60, 104, 149] := by
  decide +kernel

/-- 95_test_vectors V7.1. -/
theorem test_bands :
    wordsAfter 0x7 2 { shaping Config.common [i2f 240, i2f 240, i2f 2000, i2f 560] [0, 50] with
      argRange := 0x00640000#32 } = some [20, 46] ∧
    delayAfter 0x7 { shaping Config.common [i2f 240, i2f 240, i2f 2000, i2f 560] [0, 50] with
      argRange := 0x00640000#32 } = some [2, 0] := by decide +kernel
/-- 95_test_vectors V7.3: narrow and wide bands, the reference logarithm. -/
theorem test_bands_narrow :
    wordsAfter 0x7 4 { shaping (cfg 2 2 4) [i2f 12, i2f 24, i2f 36, i2f 48] [] with argRange := 0x00640000#32 } =
      some [0, 0, 5, 12] ∧
    delayAfter 0x7 { shaping (cfg 2 2 4) [i2f 12, i2f 24, i2f 36, i2f 48] [] with argRange := 0x00640000#32 } =
      some [0, 2, 2, 2] := by decide +kernel

/-! ## Errors, overrun, reset -/

/-- 95_test_vectors V8: which check comes first, by STATUS after the command. -/
theorem test_check_order :
    statusAfter 0x7 { State.reset with argAddr := 0x00010001#32 } = some 0x00070310#32 ∧
    statusAfter 0x5 { machine Config.common (true, false, false) [] [] with argRange := 0x000A0032#32 } =
      some 0x00050412#32 ∧
    statusAfter 0x4 (machine Config.common (true, false, false) [] []) = some 0x00040412#32 ∧
    statusAfter 0x6 (machine Config.common (true, true, false) [] []) = some 0x00060416#32 ∧
    statusAfter 0x5 { machine Config.common (true, false, true) [] [] with
      argAddr := 0x00010001#32, argRange := 0x000A0032#32 } = some 0x0005051A#32 ∧
    statusAfter 0x7 { machine Config.common (true, true, true) [] [] with argAddr := 0xFFFFFFFF#32 } =
      some 0x0007051E#32 ∧
    statusAfter 0x7 { machine Config.common (true, true, true) [] [] with argAddr := 0xFFFFFFFE#32 } =
      some 0x0007061E#32 := by decide +kernel
/-- 95_test_vectors V8: reserved words after reset. -/
theorem test_reserved_status : statusAfter 0x1F State.reset = some 0x000F0110#32 ∧
    statusAfter 0xFFFFFFFF State.reset = some 0x000F0110#32 ∧ statusAfter 0x42 State.reset = some 0x00020210#32 := by
  decide +kernel
/-- 60_exceptions R252: an error leaves host memory as it was (LINEAR, min 50 above max 10). -/
theorem test_error_keeps_memory :
    wordsAfter 0x5 2 { shaping Config.common specV61 [77, 88] with argRange := 0x000A0032#32 } = some [77, 88] := by
  decide +kernel

/-- A machine with one host move to make. -/
def hostMoves (m : HostMove) (s : State) : State := { s with turns := [.host m] }
/-- LOAD.L in flight after reset and INIT (STATUS 0x00020003). -/
def loading : State := issue 0x2#32 (machine Config.common (true, false, false) [] [])
/-- What a step leaves, where it answers a next state. -/
def next (s : State) : Option State :=
  match step s with
  | .next t => some t
  | .fault _ => none
  | .refused _ => none

/-- A next state found by `next` is the step's. -/
theorem step_of_next {s t : State} (h : next s = some t) : step s = .next t := by
  unfold next at h
  cases hs : step s with
  | next u =>
    rw [hs] at h
    injection h with h
    rw [h]
  | fault f =>
    rw [hs] at h
    cases h
  | refused r =>
    rw [hs] at h
    cases h
/-- With no host move to come there is no reset to come. -/
theorem no_reset {s : State} (h : s.turns = []) : ¬ Claims.HostMoves .reset s := by
  rintro ⟨ts, hts⟩
  rw [h] at hts
  cases hts
/-- Why a step is refused, and why it faults. -/
def refusal (s : State) : Option Refusal :=
  match step s with
  | .next _ => none
  | .fault _ => none
  | .refused r => some r
def fault (s : State) : Option Fault :=
  match step s with
  | .next _ => none
  | .fault f => some f
  | .refused _ => none

/-- 95_test_vectors V2: a CMD write of TRANSFORM while LOAD.L is in flight. -/
theorem test_overrun : statusWord loading = 0x00020003#32 ∧
    (next (hostMoves (.write .word 0x40000004#32 3#32) loading)).map statusWord = some 0x00020023#32 := by
  decide +kernel
/-- 10_state R27, R23: the ID register, and a reserved offset. -/
theorem test_read_id : (next (hostMoves (.read .word 0x40000000#32) State.reset)).map State.busData =
    some 0x46535531#32 ∧
    (next (hostMoves (.read .word 0x4000003C#32) State.reset)).map State.busData = some 0#32 := by decide +kernel
/-- 10_state R23: a register access of another form is refused. -/
theorem test_register_form :
    refusal (hostMoves (.read .half 0x40000000#32) State.reset) = some .registerAccessForm ∧
    refusal (hostMoves (.write .word 0x40000002#32 0#32) State.reset) = some .registerAccessForm := by decide +kernel
/-- 20_memory R60: no address follows 2^32 - 1. -/
theorem test_outside :
    fault (hostMoves (.read .word 0xFFFFFFFE#32) State.reset) = some .outsideAddressSpace := by decide +kernel
/-- 70_reset_and_hazards R291: the raw block of the LOAD in flight, its last byte and the first one after it. -/
theorem test_range_in_flight : refusal (hostMoves (.read .byte 0x1001F#32) loading) = some .rangeInFlight ∧
    (next (hostMoves (.read .byte 0x10020#32) loading)).map State.busData = some 0#32 := by decide +kernel
/-- 20_memory R62: a LOAD from addresses that HOSTMEM_OK rejects stays BUSY. -/
theorem test_stuck : statusAfter 0x2 { machine Config.common (true, false, false) [] [] with argAddr := 0#32 } =
    some 0x00020003#32 := by decide +kernel
/-- 70_reset_and_hazards R280. -/
theorem test_reset : (next (hostMoves .reset loading)).map statusWord = some 0#32 := by decide +kernel
/-- 00_scope R9: an ill-formed configuration is refused. -/
theorem test_ill_formed : refusal (State.resetWith (cfg 2 3 2)) = some .illFormedConfig := by decide +kernel
/-- Step is exec of the decoded command (40_control R101). -/
theorem test_step_exec : step (State.reset.withFetchWord 32 0x1) = exec .init (issue 0x1#32 State.reset) := by
  rfl
/-- 30_encoding R83, R84: decodeTableWord on a valid and on a reserved word. -/
theorem test_decodeTableWord : decodeTableWord 32 0x32 = some .loadX ∧ decodeTableWord 32 0x9 = none := by decide
/-- A host program of 30_encoding R90, R91, `SETADDR` then `DO LOAD.X`: its moves after reset, to the end of the run
(20_memory R65: NOINIT, and CHECK fails). -/
theorem test_program_moves :
    asmSetAddr Config.common 0x10000#32 ++ asmDo Config.common .loadX ++ asmCheck Config.common =
      [.host (.write .word 0x4000000C#32 0x10000#32), .host (.write .word 0x40000004#32 0x32#32), .host .poll,
        .host (.read .word 0x40000008#32)] ∧ checkFails 0x00020310#32 = true ∧ checkFails 0x00020002#32 = false := by
  decide +kernel

/-- 30_encoding R91: `FRAME X`, whose LOAD is R90's mnemonic LOAD.X (word 0x32, R83). -/
theorem test_frame_x : asmFrame Config.common .x 0x10000#32 0x3F800000#32 =
    [.host (.write .word 0x4000000C#32 0x10000#32), .host (.write .word 0x40000004#32 0x32#32), .host .poll,
      .host (.write .word 0x40000004#32 0x3#32), .host .poll, .host (.write .word 0x40000010#32 0x3F800000#32),
      .host (.write .word 0x40000004#32 0x4#32), .host .poll] := by decide +kernel
/-- 70_reset_and_hazards R299: over with only the sequencer's turns left, not with a host move left, and not while BUSY. -/
theorem test_runOver : runOver { State.reset with turns := [.sequencer, .sequencer] } = true ∧
    runOver { State.reset with turns := [.sequencer, .host .poll] } = false ∧ runOver loading = false := by decide
/-- 30_encoding R90, 20_memory R63: `mem.h`, then `mem.h?` of the bytes beside it (little-endian). -/
theorem test_mem_h : (next (hostMoves (.write .half 0x20001#32 0x1234#32) State.reset)).map State.mem =
      some [(0x20001, 0x34#8), (0x20002, 0x12#8)] ∧
    (next (hostMoves (.read .half 0x20002#32) { State.reset with mem := [(0x20001, 0x34#8), (0x20002, 0x12#8)] })).map
      State.busData = some 0x12#32 := by decide +kernel

/-! ## Arithmetic and tables -/

/-- 95_test_vectors V1.1, N = 4. -/
theorem test_win : (List.range 4).map (romWin Config.common) =
    [.ofBits 0x3D9D1F60#32, .ofBits 0x3E8045C1#32, .ofBits 0x3F241E1E#32, .ofBits 0x3F744BE9#32] := by decide +kernel
/-- 95_test_vectors V1.2, N = 8, TWIDDLE_DEN 7 and 8. -/
theorem test_tw : romTw (cfg 3 1 1) 1 = .ofBits 0x3F1F9D07#32 0xBF48261C#32 ∧
    romTw (cfg 3 1 1) 3 = .ofBits 0xBF66A5E5#32 0xBEDE2602#32 ∧
    romTw { cfg 3 1 1 with twdenIsN := true } 2 = .ofBits 0x00000000#32 0xBF800000#32 := by decide +kernel
/-- 95_test_vectors V1.3, N = 64, BAND_N = 8. -/
theorem test_bnd : [0, 1, 5, 8].map (romBnd (cfg 6 1 8)) =
    [.ofBits 0x3F000000#32, .ofBits 0x3F9744FD#32, .ofBits 0x414F44FD#32, .ofBits 0x427E0000#32] := by decide +kernel
/-- 95_test_vectors V1.4. -/
theorem test_bitrev : (List.range 16).map (bitrev 4) = [0, 8, 4, 12, 2, 10, 6, 14, 1, 9, 5, 13, 3, 11, 7, 15] := by
  decide
/-- 00_scope R16: a NaN, a value below, a value above, and truncation of 5.5. -/
theorem test_clampCvt : clampCvt .nan 3 9 = 3 ∧ clampCvt (i2f (-1)) 0 9 = 0 ∧ clampCvt (.inf false) 0 9 = 9 ∧
    clampCvt (.ofBits 0x40B00000#32) 0 9 = 5 := by decide +kernel
/-- 43_fft R162's example. -/
theorem test_cmul : cmul (.ofBits 0x3F000000#32 0xBE800000#32) (.ofBits 0x40400000#32 0x40800000#32) =
    .ofBits 0x40200000#32 0x3FA00000#32 := by decide +kernel

/-! ## Witnesses: for every statement with hypotheses, values that meet all of them -/

open Sys2Proof.Claims

/-- A machine with every flag set, TD and SPEC written, two counters running and an admitted address, latched. -/
def ready : State := issue 0#32
  { machine Config.common (true, true, true) (ints [(1, 0), (3, 0), (2, 0), (4, 0)]) specV61 with
    mem := elements [20, 46], delay := [2, 0] }
/-- The same with an all-zero spectrum. -/
def silent : State := { ready with spec := List.replicate 4 (some (.fin false 0)) }

theorem witness_DecoderPartitionsAllWords :
    (∃ w : Word, 9 ≤ w.toNat % 16) ∧ (∃ w : Word, w.toNat % 16 < 9 ∧ w.toNat / 64 ≠ 0) ∧
    (∃ w : Word, w.toNat % 16 < 9 ∧ w.toNat / 64 = 0 ∧ w.toNat % 16 ≠ 2 ∧ w.toNat / 16 ≠ 0) ∧
    (∃ w : Word, w.toNat % 16 < 9 ∧ w.toNat / 64 = 0 ∧ (w.toNat % 16 = 2 ∨ w.toNat / 16 = 0)) :=
  ⟨⟨0xFFFFFFF9#32, by decide⟩, ⟨0x48#32, by decide⟩, ⟨0x18#32, by decide⟩, ⟨0x32#32, by decide⟩⟩
theorem witness_StepRunsTheDecodedCommand : ∃ s t : State, ∃ i : Instr, configWf s.cfg = true ∧ s.phase = .busy ∧
    decode s.curCmd = .cmd i ∧ s.turns = [] ∧ t = { s with turns := [.sequencer] } :=
  ⟨loading, _, .loadL, by decide +kernel, rfl, by decide, rfl, rfl⟩
theorem witness_PlacedCommandRunsNext : configWf State.reset.cfg = true ∧ decode (BitVec.ofNat 32 0x22) = .cmd .loadM :=
  ⟨by decide +kernel, by decide⟩
theorem witness_IllFormedConfigurationRefused :
    configWf (State.resetWith (cfg 0 1 1)).cfg = false ∧ configWf (State.resetWith (cfg 2 2 5)).cfg = false := by
  decide +kernel
theorem witness_CmdWriteIssues : ∃ s ts w, configWf s.cfg = true ∧ WritesRegister 0x04 w ts s ∧ s.phase = .idle :=
  ⟨hostMoves (.write .word 0x40000004#32 9#32) State.reset, [], 9#32, by decide +kernel, rfl, rfl⟩
theorem witness_CmdWriteWhileBusyOverruns :
    ∃ s ts w, configWf s.cfg = true ∧ WritesRegister 0x04 w ts s ∧ s.phase = .busy :=
  ⟨hostMoves (.write .word 0x40000004#32 3#32) loading, [], 3#32, by decide +kernel, rfl, rfl⟩
theorem witness_ReservedWordsCompleteWithTheirCode : ∀ w ∈ [0x9, 0xF, 0xFFFFFFFF, 0x40, 0x48, 0x10, 0x38],
    configWf (issue (BitVec.ofNat 32 w) State.reset).cfg = true ∧ (issue (BitVec.ofNat 32 w) State.reset).turns = [] ∧
    (issue (BitVec.ofNat 32 w) State.reset).phase = .busy ∧
    (9 ≤ w % 16 ∨ (w % 16 < 9 ∧ (64 ≤ w ∨ (w % 16 ≠ 2 ∧ 16 ≤ w)))) := by decide +kernel
/-- The same with the sequencer's turn listed, as a poll of `WAIT` leaves it. -/
def awaiting (s : State) : State := { s with turns := [.sequencer, .host .poll] }
theorem witness_ReservedWordsCompleteWithTheirCode_listed : SequencerMoves (awaiting (issue 0x48#32 State.reset)) ∧
    SequencerMoves (issue 0x48#32 State.reset) ∧ configWf (awaiting (issue 0x48#32 State.reset)).cfg = true ∧
    (awaiting (issue 0x48#32 State.reset)).phase = .busy :=
  ⟨.inr ⟨_, rfl⟩, .inl rfl, by decide +kernel, rfl⟩
theorem witness_RegisterReadsHaveNoSideEffect :
    configWf State.reset.cfg = true ∧ ∀ off ∈ [0x00, 0x04, 0x08, 0x0C, 0x10, 0x14, 0x18, 0x1C, 0x20, 0x24, 0x3C],
      ReadsRegister off [] (hostMoves (.read .word (0x40000000#32 + BitVec.ofNat 32 off)) State.reset) :=
  ⟨by decide +kernel, fun _ _ => rfl⟩
theorem witness_RegisterWrites :
    configWf State.reset.cfg = true ∧ ∀ off ∈ [0x00, 0x08, 0x0C, 0x10, 0x14, 0x18, 0x20, 0x24, 0x3C],
      WritesRegister off 5#32 [] (hostMoves (.write .word (0x40000000#32 + BitVec.ofNat 32 off) 5#32) State.reset) :=
  ⟨by decide +kernel, fun _ _ => rfl⟩
/-- Boundary accesses: the half word one byte below the block, its last byte, and a word at offset 2. -/
theorem witness_OtherRegisterAccessesRefused :
    ∀ x ∈ [(AccessWidth.half, 0x3FFFFFFF#32), (.byte, 0x4000003F#32), (.word, 0x40000002#32)],
      configWf State.reset.cfg = true ∧ State.reset.cfg.regBase.toNat < x.2.toNat + widthBytes x.1 ∧
      x.2.toNat < State.reset.cfg.regBase.toNat + 64 ∧ (x.1 ≠ .word ∨ x.2.toNat % 4 ≠ 0) := by decide +kernel
theorem witness_OtherRegisterAccessesRefused_moves :
    HostMoves (.read .half 0x3FFFFFFF#32) (hostMoves (.read .half 0x3FFFFFFF#32) State.reset) ∧
    HostMoves (.write .word 0x40000002#32 1#32) (hostMoves (.write .word 0x40000002#32 1#32) State.reset) :=
  ⟨⟨[], rfl⟩, ⟨[], rfl⟩⟩
theorem witness_ConfigWordLayout : configWf Config.common = true ∧ configWf (cfg 3 8 8) = true := by decide +kernel
theorem witness_FailedCheckIsAnErrorCompletion : checkList .loadL State.reset = .noinit ∧
    checkList .transform loading = .nodata ∧
    checkList .loadX { loading with curAddr := 0xFFFFFFE2#32 } = .range ∧
    checkList .bands { ready with curRange := 0x000A0032#32 } = .minmax ∧
    configWf (issue 0x18#32 State.reset).cfg = true ∧ (issue 0x18#32 State.reset).turns = [] ∧
    (issue 0x18#32 State.reset).phase = .busy ∧ decode (issue 0x18#32 State.reset).curCmd = .reserved .rsvd := by
  decide +kernel
theorem witness_FailedCheckIsAnErrorCompletion_listed : SequencerMoves (awaiting (issue 0x18#32 State.reset)) ∧
    configWf (awaiting (issue 0x18#32 State.reset)).cfg = true ∧ (awaiting (issue 0x18#32 State.reset)).phase = .busy ∧
    decode (awaiting (issue 0x18#32 State.reset)).curCmd = .reserved .rsvd :=
  ⟨.inr ⟨_, rfl⟩, by decide +kernel⟩
theorem witness_StuckUntilReset : ∃ s t, stuck s = true ∧ step s = .next t ∧ ¬ HostMoves .reset s :=
  ⟨{ loading with curAddr := 0#32 }, { loading with curAddr := 0#32 }, by decide +kernel,
    step_of_next (by decide +kernel), no_reset rfl⟩
theorem witness_LoadXCompletes : ∃ s : State, s.status.tblValid = true ∧ AddrOk (8 * s.cfg.n) s :=
  ⟨{ loading with curAddr := 0xFFFFFFE0#32 }, rfl, by unfold AddrOk; decide⟩
theorem witness_LoadsComplete : ready.status.tblValid = true ∧ AddrOk (8 * ready.cfg.n) ready ∧
    Admitted (8 * ready.cfg.n) ready ∧ ready.td.length = ready.cfg.n := by
  unfold AddrOk Admitted
  decide +kernel
theorem witness_TransformIsStagesAtOnce : ready.status.tblValid = true ∧ ready.status.tdValid = true ∧
    ready.td.length = ready.cfg.n := by decide
theorem witness_ExtractCompletes : ready.status.tblValid = true ∧ ready.status.tdValid = true ∧
    1 ≤ ready.cfg.log2n ∧ ready.spec.length = ready.cfg.n := by decide
theorem witness_BinnersComplete : BinnerReady ready ∧ Memory.wf ready.mem = true := by
  unfold BinnerReady AddrOk Admitted
  decide +kernel
theorem witness_BandsCompletes : BandsReady ready ∧ Memory.wf ready.mem = true ∧
    ready.delay.length = ready.cfg.bandN := by
  unfold BandsReady AddrOk Admitted
  decide +kernel
/-- NoCommandWritesRegisters, InternalMemoryFrame, FlagFrame: a next state of every command. -/
theorem witness_frames : ∀ i ∈ [Instr.nop, .init, .loadL, .loadR, .loadM, .loadX, .transform, .extract, .linear, .log,
    .bands, .clrerr], ∃ t, exec i ready = .next t := by
  intro i _
  cases i <;> exact ⟨_, rfl⟩
/-- FlagFrame's stuck case: a LOAD from addresses that HOSTMEM_OK rejects. -/
theorem witness_FlagFrame_stuck : ∃ s : State, exec .loadL s = .next s ∧ checkList .loadL s = .ok ∧
    hostmemOk s.cfg (s.curAddr.toNat + 0) = false :=
  ⟨{ loading with curAddr := 0#32 }, by rfl, by decide, by decide⟩
/-- HostMemoryFrame: the byte below and the byte after each array. -/
theorem witness_HostMemoryFrame :
    ∀ a ∈ [0xFFFF, 0x10004], (a < ready.curAddr.toNat ∨ ready.curAddr.toNat + 2 * ready.cfg.fftOutN ≤ a) ∧
      (a < ready.curAddr.toNat ∨ ready.curAddr.toNat + 2 * ready.cfg.bandN ≤ a) := by decide
theorem witness_StepKeepsInvariant_inv : Inv ready where
  tdLength := by decide
  specLength := by decide
  delayLength := by decide
  tdWritten _ := by decide +kernel
  specWritten _ := by decide +kernel
  delayBound d hd := by
    rcases List.mem_cons.1 hd with rfl | hd
    · decide
    · rcases List.mem_cons.1 hd with rfl | hd
      · decide
      · cases hd
  errSticky h := absurd rfl h
  memWf := by decide +kernel
  memInSpace := by decide +kernel
theorem witness_StepKeepsInvariant : ∃ s t, Inv s ∧ step s = .next t :=
  ⟨ready, succeed ready, witness_StepKeepsInvariant_inv, step_of_next (by decide +kernel)⟩
theorem witness_ConfigurationNeverChanges : ∃ s t, step s = .next t := ⟨State.reset, _, rfl⟩
/-- EXTRACT in flight, with SPEC_VALID 0. -/
def extracting : State := issue 0x4#32 (machine Config.common (true, true, false) tdV42 [])
/-- Each clause: INIT, LOAD.L and EXTRACT set their flag, by a step that is no reset. -/
theorem witness_ValidFlagsOnlyByTheirEvents :
    (∃ s t, step s = .next t ∧ ¬ HostMoves .reset s ∧ t.status.tblValid ≠ s.status.tblValid) ∧
    (∃ s t, step s = .next t ∧ ¬ HostMoves .reset s ∧ t.status.tdValid ≠ s.status.tdValid) ∧
    (∃ s t, step s = .next t ∧ ¬ HostMoves .reset s ∧ t.status.specValid ≠ s.status.specValid) :=
  ⟨⟨issue 0x1#32 State.reset, _, step_of_next (t := succeed (performInit (issue 0x1#32 State.reset))) (by decide +kernel),
      no_reset rfl, by decide⟩,
    ⟨loading, _, step_of_next (t := succeed (performLoad .left loading)) (by decide +kernel),
      no_reset rfl, by decide⟩,
    ⟨extracting, _, step_of_next (t := succeed (performExtract extracting)) (by decide +kernel),
      no_reset rfl, by decide⟩⟩
theorem witness_StickyFlagsClearedOnlyByClrerrOrReset : ∃ s t : State, step s = .next t ∧ ¬ HostMoves .reset s ∧
    ¬ Completes .clrerr s ∧ s.status.err = true ∧ s.status.ovr = true :=
  ⟨withStatus true false false true true .range 2 State.reset, withStatus true false false true true .range 2 State.reset,
    step_of_next (by decide +kernel), no_reset rfl,
    fun (h : Completes .clrerr _) => Phase.noConfusion h.2.1, rfl, rfl⟩
/-- BANDS in flight. -/
def banding : State := { ready with curCmd := 0x7#32 }
theorem witness_DelayChangedOnlyByBandsOrReset : ∃ s t, step s = .next t ∧ t.delay ≠ s.delay :=
  ⟨banding, _, step_of_next (t := succeed (performBands banding)) (by decide +kernel), by decide +kernel⟩
theorem witness_UnwrittenTdIsNeverRead : loading.status.tdValid = false ∧ State.reset.td.length = State.reset.cfg.n ∧
    State.reset.status.tdValid = false ∧ (tdV42.map some).length = State.reset.cfg.n := by decide
/-- UnwrittenTdIsNeverRead, the clause after a LOAD: TD of length N, TD_VALID 0 before and 1 after. -/
theorem witness_UnwrittenTdIsNeverRead_load : ∃ s t : State, s.status.tdValid = false ∧ s.td.length = s.cfg.n ∧
    (tdV42.map some).length = s.cfg.n ∧ exec .loadL s = .next t ∧ t.status.tdValid = true :=
  ⟨{ loading with td := List.replicate 4 none }, _, rfl, rfl, rfl,
    exec_of_ok (by decide +kernel) (by decide +kernel), rfl⟩
theorem witness_UnwrittenSpecIsNeverRead : State.reset.status.specValid = false ∧ 1 ≤ State.reset.cfg.log2n ∧
    State.reset.spec.length = State.reset.cfg.n ∧ (specV61.map some).length = State.reset.cfg.n := by decide
/-- UnwrittenSpecIsNeverRead, the clause after an EXTRACT: SPEC of length N, SPEC_VALID 0 before and 1 after. -/
theorem witness_UnwrittenSpecIsNeverRead_extract : ∃ s t : State, s.status.specValid = false ∧ 1 ≤ s.cfg.log2n ∧
    s.spec.length = s.cfg.n ∧ (specV61.map some).length = s.cfg.n ∧ exec .extract s = .next t ∧
    t.status.specValid = true :=
  ⟨{ extracting with spec := List.replicate 4 none }, _, rfl, by decide, rfl, rfl,
    exec_of_ok (by decide +kernel) (by decide +kernel), rfl⟩
/-- OutputWordsWithinRange, CLAMPCVT on the range 3 to 9: a value below it, above it, and at its two ends. -/
theorem witness_OutputWordsWithinRange_clamp : (3#16 : Half) ≤ 9#16 ∧ ∃ a b c d : Fin 0x7F800000,
    unitsOf a < 3 * 2 ^ 149 ∧ 9 * 2 ^ 149 < unitsOf b ∧ unitsOf c = 3 * 2 ^ 149 ∧ unitsOf d = 9 * 2 ^ 149 :=
  ⟨by decide, ⟨0x403FFFFF, by omega⟩, ⟨0x41100001, by omega⟩, ⟨0x40400000, by omega⟩, ⟨0x41100000, by omega⟩,
    by decide +kernel⟩
theorem witness_OutputWordsWithinRange : Memory.wf ready.mem = true ∧ BinnerReady ready ∧ BandsReady ready := by
  unfold BinnerReady BandsReady AddrOk Admitted
  decide +kernel
theorem witness_BandWithoutSnapNeverRises : ∃ (c : Config) (v : F32) (delay cur lo hi : Half), lo.toNat ≤ hi.toNat ∧
    fgt v (i2f (decayed c delay cur)) = false ∧ lo.toNat ≤ cur.toNat ∧ cur.toNat ≤ hi.toNat :=
  ⟨Config.common, .inf true, 2, 20, 0, 100, by decide +kernel⟩
theorem witness_ZeroSpectrumHalvesWords : configWf silent.cfg = true ∧ BinnerReady silent ∧ ZeroSpectrum silent ∧
    Memory.wf silent.mem = true := by
  unfold BinnerReady AddrOk Admitted ZeroSpectrum
  decide +kernel
theorem witness_ZeroSpectrumNeverSnaps : configWf silent.cfg = true ∧ BandsReady silent ∧ ZeroSpectrum silent ∧
    Memory.wf silent.mem = true ∧ silent.delay.length = silent.cfg.bandN := by
  unfold BandsReady AddrOk Admitted ZeroSpectrum
  decide +kernel
/-- A tie: 2^24 + 1 units lie between 2^24 and 2^24 + 2, and the even pattern 0x01000000 is given. -/
theorem witness_RoundingIsNearestEven : ∃ (neg : Bool) (n d : Nat) (x y : Fin 0x7F800000), 0 < d ∧
    roundUnits neg n d = .fin neg x ∧ x ≠ y ∧ |(unitsOf x * d : Int) - n| = |(unitsOf y * d : Int) - n| :=
  ⟨false, 2 ^ 24 + 1, 1, ⟨0x01000000, by omega⟩, ⟨0x01000001, by omega⟩, by decide +kernel⟩
/-- The overflow threshold: the greatest finite value one unit below it, an infinity at it. -/
theorem witness_RoundingIsNearestEven_overflow :
    roundUnits true ((2 ^ 25 - 1) * 2 ^ 252 - 1) 1 = .fin true ⟨0x7F7FFFFF, by omega⟩ ∧
    roundUnits true ((2 ^ 25 - 1) * 2 ^ 252) 1 = .inf true := by decide +kernel
/-- The operations: the exact zero sums, a nonzero divisor, and a zero one. -/
theorem witness_RoundingIsNearestEven_operations : ∃ x y z : Fin 0x7F800000,
    signedUnits false (unitsOf x) + signedUnits true (unitsOf x) = 0 ∧ y.val ≠ 0 ∧ z.val = 0 ∧
    fadd (.fin false x) (.fin true x) = .fin false 0 ∧ fadd (.fin true z) (.fin true z) = .fin true 0 ∧
    fdiv (.fin true y) (.fin false z) = .inf true ∧ fdiv (.fin true z) (.fin false z) = .nan :=
  ⟨⟨0x3F800000, by omega⟩, ⟨0x3F800000, by omega⟩, 0, by decide +kernel⟩
/-- SquareRootIsNearestEven, each clause: the square root of 2.0, and its two neighbours. -/
theorem witness_SquareRootIsNearestEven : ∃ x y z : Fin 0x7F800000,
    fsqrt (.fin false ⟨0x40000000, by omega⟩) = .fin false x ∧ x < y ∧ z < x :=
  ⟨⟨0x3FB504F3, by omega⟩, ⟨0x3FB504F4, by omega⟩, ⟨0x3FB504F2, by omega⟩, by decide +kernel⟩
theorem witness_StereoMeanIsExact :
    (-32768 : Int) ≤ -32768 ∧ (-32768 : Int) ≤ 32767 ∧ (32767 : Int) ≤ 32767 := by decide
/-- BitReversalIsSelfInverse, each clause, at the ends of the range. -/
theorem witness_BitReversalIsSelfInverse : (0 : Nat) < 2 ^ 3 ∧ (7 : Nat) < 2 ^ 3 ∧ bitrev 3 7 = bitrev 3 7 := by decide
theorem witness_WindowIsSymmetric : 0 < 2 * Config.common.n ∧ 7 < 2 * Config.common.n := by decide
theorem witness_BoundaryEndsAreExact : configWf Config.common = true := by decide +kernel
/-- BoundaryIsNearest: a boundary with both neighbours, at each end of the bands. -/
theorem witness_BoundaryIsNearest : configWf Config.common = true ∧ 0 ≤ Config.common.bandN ∧
    2 ≤ Config.common.bandN ∧ ∃ x y z : Fin 0x7F800000, romBnd Config.common 1 = .fin false x ∧ x < y ∧ z < x :=
  ⟨by decide +kernel, by decide, by decide, ⟨0x3FC00000, by omega⟩, ⟨0x3FC00001, by omega⟩,
    ⟨0x3FBFFFFF, by omega⟩, by decide +kernel⟩
/-- BandBinsWithinSpectrum: the narrow band of 95_test_vectors V1.3. -/
theorem witness_BandBinsWithinSpectrum : configWf (cfg 2 2 4) = true ∧ 0 < (cfg 2 2 4).bandN ∧
    bandHigh (cfg 2 2 4) 0 < bandLow (cfg 2 2 4) 0 := by decide +kernel
theorem witness_LogarithmProperties : fgt fZero (i2f (-1)) = true ∧ fge (i2f 2) fZero = true ∧
    fge (i2f 3) (i2f 2) = true ∧ ∃ x : Fin 0x7F800000, 0 < x.val :=
  ⟨by decide +kernel, by decide +kernel, by decide +kernel, ⟨1, by omega⟩, by decide⟩
theorem witness_ResetState : configWf (hostMoves .reset loading).cfg = true ∧
    (hostMoves .reset loading).turns = .host .reset :: [] ∧ (hostMoves .reset State.reset).phase = .idle := by
  decide +kernel
/-- ResetAbandonsTheCommand: LINEAR in flight, its first and last element, and the bytes beside its array. -/
theorem witness_ResetAbandonsTheCommand : ∃ s : State, configWf s.cfg = true ∧ s.turns = [.host .reset] ∧
    s.phase = .busy ∧ Memory.wf s.mem = true ∧ decode s.curCmd = .cmd .linear ∧ 2 * 0 < accessLen s.cfg .linear ∧
    2 * 1 < accessLen s.cfg .linear ∧ 0xFFFF < s.curAddr.toNat ∧ s.curAddr.toNat + accessLen s.cfg .linear ≤ 0x10004 :=
  ⟨hostMoves .reset { ready with curCmd := 0x5#32 }, by decide +kernel⟩
/-- The cases that keep all of host memory: a reserved word, a failing check, and a LOAD. -/
theorem witness_ResetAbandonsTheCommand_kept :
    HostMoves .reset (hostMoves .reset (issue 0x9#32 ready)) ∧ (issue 0x9#32 ready).phase = .busy ∧
    decode (issue 0x9#32 ready).curCmd = .reserved .badop ∧ Memory.wf (issue 0x9#32 ready).mem = true ∧
    decode (issue 0x5#32 loading).curCmd = .cmd .linear ∧ checkList .linear (issue 0x5#32 loading) = .nodata ∧
    decode loading.curCmd = .cmd .loadL ∧ Instr.loadL ∉ [Instr.linear, .log, .bands] :=
  ⟨⟨[], rfl⟩, by decide +kernel⟩
theorem witness_InitAfterResetIsClean : configWf Config.common = true := by decide +kernel
/-- HostKeptOffTheRangeInFlight: the last byte of the range, reached by the first byte of an access and by its last. -/
theorem witness_HostKeptOffTheRangeInFlight :
    ∀ x ∈ [(AccessWidth.byte, 0x1001F#32, 0), (.word, 0x1001C#32, 3), (.half, 0xFFFF#32, 1)],
      configWf loading.cfg = true ∧ loading.phase = .busy ∧ decode loading.curCmd = .cmd .loadL ∧
      x.2.2 < widthBytes x.1 ∧ loading.curAddr.toNat ≤ x.2.1.toNat + x.2.2 ∧
      x.2.1.toNat + x.2.2 < loading.curAddr.toNat + accessLen loading.cfg .loadL ∧
      x.2.1.toNat + widthBytes x.1 ≤ 2 ^ 32 ∧
      (x.2.1.toNat + widthBytes x.1 ≤ loading.cfg.regBase.toNat ∨ loading.cfg.regBase.toNat + 64 ≤ x.2.1.toNat) := by
  decide +kernel
theorem witness_HostKeptOffTheRangeInFlight_moves :
    HostMoves (.read .byte 0x1001F#32) (hostMoves (.read .byte 0x1001F#32) loading) ∧
    HostMoves (.write .half 0xFFFF#32 1#32) (hostMoves (.write .half 0xFFFF#32 1#32) loading) :=
  ⟨⟨[], rfl⟩, ⟨[], rfl⟩⟩
theorem witness_FirstRomEntries : configWf Config.common = true ∧ configWf (cfg 1 1 1) = true := by decide +kernel
/-- HostMemoryMovesAndWait: the last address of the space, a word just below the register block, and, while LOAD.L is in
flight, the bytes beside its range. -/
theorem witness_HostMemoryMovesAndWait : configWf loading.cfg = true ∧ Memory.wf loading.mem = true ∧
    loading.phase = .busy ∧ State.reset.phase = .idle ∧ stuck loading = false ∧
    (∀ x ∈ [(AccessWidth.byte, 0xFFFFFFFF#32), (.word, 0x3FFFFFFC#32), (.half, 0xFFFE#32), (.half, 0x10020#32)],
      InHostMemory x.2.toNat (widthBytes x.1) loading) := by
  unfold InHostMemory
  decide +kernel
theorem witness_HostMemoryMovesAndWait_clear :
    ∀ x ∈ [(AccessWidth.half, 0xFFFE#32), (.half, 0x10020#32)],
      ClearOfRange x.2.toNat (widthBytes x.1) loading := by
  intro x hx i _ hd
  have hi : decode loading.curCmd = .cmd .loadL := by decide
  obtain rfl : Instr.loadL = i := by
    rw [hi] at hd
    injection hd
  revert x
  decide +kernel
/-- The same with LOAD.X in flight, whose range is empty: an access that straddles CUR_ADDR. -/
theorem witness_HostMemoryMovesAndWait_straddle :
    ClearOfRange 0xFFFF (widthBytes .half) { loading with curCmd := 0x32#32 } := by
  intro i _ hd
  have hi : decode 0x32#32 = .cmd .loadX := by decide
  obtain rfl : Instr.loadX = i := by
    rw [show decode _ = _ from hi] at hd
    injection hd
  decide +kernel

end Sys2Proof.Tests
end

section
/-! PROOFS. The statements on 00_scope: the refusal of an ill-formed configuration (R9), binary32 rounding and the square
root (R11, R12), and the properties of the logarithm units (R14). -/

namespace Sys2Proof.Machine

open Sys2Proof.Claims

/-! ## The refusal of an ill-formed configuration (00_scope R9) -/

/-- Settles O7: the step looks at the configuration before it looks at whose move it is. -/
theorem illFormedConfigurationRefused : Obligations.IllFormedConfigurationRefused := by
  unfold Obligations.IllFormedConfigurationRefused
  intro s hwf
  simp only [step, nextTurn, hwf, Bool.false_eq_true, if_false]

/-! ## Rounding to nearest, ties to even (00_scope R11, R12) -/

/-- The magnitude `n / d` lies on the side of `x` of every midpoint between `x` and another pattern, and on a midpoint
only where `x` is even. -/
def WithinMidpoints (n d : Nat) (x : Fin 0x7F800000) : Prop :=
  ∀ y : Fin 0x7F800000,
    (x < y → 2 * n ≤ (unitsOf x + unitsOf y) * d) ∧
    (y < x → (unitsOf x + unitsOf y) * d ≤ 2 * n) ∧
    (x ≠ y → (unitsOf x + unitsOf y) * d = 2 * n → x.val % 2 = 0)

/-- A pattern above a pack is at least one unit of the binade larger. -/
theorem unitsOf_above_pack {s r y : Nat} (h0 : r ≤ 2 ^ 24) (h1 : 0 < s → 2 ^ 23 ≤ r) (hy : s * 2 ^ 23 + r < y) :
    (r + 1) * 2 ^ s ≤ unitsOf y := by
  refine le_trans ?_ (unitsOf_strictMono.monotone hy)
  rcases h0.lt_or_eq with h0 | rfl
  · exact (unitsOf_succ h0 h1).ge
  · have hsucc : (s * 2 ^ 23 + 2 ^ 24).succ = (s + 1) * 2 ^ 23 + (2 ^ 23 + 1) := by omega
    rw [hsucc, unitsOf_pack (by omega) (by omega), pow_succ]
    omega

/-- A pattern below a pack is at least one unit of the binade smaller, unless the pack begins its binade. -/
theorem unitsOf_below_pack {s r y : Nat} (h0 : r ≤ 2 ^ 24) (h1 : 0 < s → 2 ^ 23 ≤ r) (hy : y < s * 2 ^ 23 + r) :
    unitsOf y + 2 ^ s ≤ r * 2 ^ s ∨ (0 < s ∧ r = 2 ^ 23 ∧ unitsOf y < r * 2 ^ s) := by
  by_cases hb : 0 < s ∧ r = 2 ^ 23
  · exact .inr ⟨hb.1, hb.2, unitsOf_pack h0 h1 ▸ unitsOf_strictMono hy⟩
  · obtain ⟨r, rfl⟩ : ∃ q, r = q + 1 := Nat.exists_eq_succ_of_ne_zero (by omega)
    have hle : unitsOf y ≤ unitsOf (s * 2 ^ 23 + r) := unitsOf_strictMono.monotone (by omega)
    rw [unitsOf_pack (by omega) (by omega)] at hle
    exact .inl (by rw [Nat.add_mul, Nat.one_mul]; omega)

/-- A finite value that rounding gives is the pack of the binade and the rounded significand. -/
theorem val_of_roundUnits {neg : Bool} {n d : Nat} {x : Fin 0x7F800000} (h : roundUnits neg n d = .fin neg x) :
    x.val = binadeShift (n / d) * 2 ^ 23 + roundEven n (d * 2 ^ binadeShift (n / d)) := by
  unfold roundUnits F32.ofMag at h
  split at h
  · injection h with _ h
    rw [← h]
  · cases h

/-- A pack whose significand is rounded to nearest even, in the binade of the magnitude, is within the midpoints: the
pattern above is a unit of the binade away, and the one below too unless the pack begins its binade, where the magnitude
is not below it. -/
theorem withinMidpoints_of_pack {n d s r : Nat} {x : Fin 0x7F800000} (hd : 0 < d) (hx : x.val = s * 2 ^ 23 + r)
    (hr : r ≤ 2 ^ 24) (hs : 0 < s → 2 ^ 23 ≤ r ∧ 2 ^ 23 * (d * 2 ^ s) ≤ n)
    (hround : 2 * (r * (d * 2 ^ s)) ≤ 2 * n + d * 2 ^ s ∧ 2 * n ≤ 2 * (r * (d * 2 ^ s)) + d * 2 ^ s ∧
      (2 * (r * (d * 2 ^ s)) = 2 * n + d * 2 ^ s ∨ 2 * n = 2 * (r * (d * 2 ^ s)) + d * 2 ^ s → r % 2 = 0)) :
    WithinMidpoints n d x := by
  obtain ⟨hle, hge, heven⟩ := hround
  have h1 : 0 < s → 2 ^ 23 ≤ r := fun h => (hs h).1
  have hu : unitsOf x * d = r * (d * 2 ^ s) := by rw [hx, unitsOf_pack hr h1]; ring
  intro y
  have above : x < y → r * (d * 2 ^ s) + d * 2 ^ s ≤ unitsOf y * d := fun hy =>
    calc r * (d * 2 ^ s) + d * 2 ^ s = (r + 1) * 2 ^ s * d := by ring
      _ ≤ unitsOf y * d := Nat.mul_le_mul_right d (unitsOf_above_pack hr h1 (hx ▸ hy))
  have below : y < x → unitsOf y * d + d * 2 ^ s ≤ r * (d * 2 ^ s) ∨
      (r * (d * 2 ^ s) ≤ n ∧ unitsOf y * d < r * (d * 2 ^ s)) := fun hy => by
    rcases unitsOf_below_pack hr h1 (hx ▸ Fin.lt_def.1 hy) with h | ⟨hs0, hr0, h⟩
    · exact .inl (calc unitsOf y * d + d * 2 ^ s = (unitsOf y + 2 ^ s) * d := by ring
        _ ≤ r * 2 ^ s * d := Nat.mul_le_mul_right d h
        _ = r * (d * 2 ^ s) := by ring)
    · exact .inr ⟨hr0 ▸ (hs hs0).2, (Nat.mul_lt_mul_of_pos_right h hd).trans_eq (by ring)⟩
  have hpar : r % 2 = 0 → x.val % 2 = 0 := by omega
  rw [Nat.add_mul, hu]
  generalize r * (d * 2 ^ s) = rU at *
  generalize d * 2 ^ s = U at *
  refine ⟨fun hy => ?_, fun hy => ?_, fun hne htie => hpar (heven ?_)⟩
  · have := above hy
    omega
  · have := below hy
    omega
  · rcases lt_or_gt_of_ne hne with hy | hy
    · have := above hy
      omega
    · have := below hy
      omega

/-- Rounding that gives a finite value gives the one within whose midpoints the magnitude lies. -/
theorem withinMidpoints_of_roundUnits {neg : Bool} {n d : Nat} {x : Fin 0x7F800000} (hd : 0 < d)
    (hx : roundUnits neg n d = .fin neg x) : WithinMidpoints n d x := by
  obtain ⟨hle, hlow⟩ := roundEven_bounds n hd
  exact withinMidpoints_of_pack hd (val_of_roundUnits hx) hle hlow
    (roundEven_spec n (Nat.mul_pos hd (Nat.two_pow_pos _)))

/-- Where one point is at most as far from `n` as another, by the midpoint of the two. -/
theorem abs_sub_le_iff_midpoint {a b n : Nat} (hab : a < b) :
    (|(a : Int) - n| ≤ |(b : Int) - n| ↔ 2 * n ≤ a + b) ∧ (|(b : Int) - n| ≤ |(a : Int) - n| ↔ a + b ≤ 2 * n) := by
  simp only [abs_eq_max_neg]
  omega

/-- Of two different patterns the one within whose midpoints the magnitude lies is the nearer, or even. -/
theorem isRounded_of_withinMidpoints {neg : Bool} {n d : Nat} {x : Fin 0x7F800000} (hd : 0 < d)
    (hn : n < (2 ^ 25 - 1) * 2 ^ 252 * d) (hx : WithinMidpoints n d x) : IsRounded neg n d (.fin neg x) := by
  unfold IsRounded
  rw [if_neg (Nat.not_le_of_lt hn)]
  refine ⟨x, rfl, fun y => ?_⟩
  obtain ⟨above, below, tie⟩ := hx y
  rw [Nat.add_mul] at above below tie
  rcases lt_trichotomy x y with hy | rfl | hy
  · have hu : unitsOf x * d < unitsOf y * d := Nat.mul_lt_mul_of_pos_right (unitsOf_strictMono hy) hd
    obtain ⟨h1, h2⟩ := abs_sub_le_iff_midpoint (n := n) hu
    push_cast at h1 h2
    exact ⟨h1.2 (above hy), fun h => .inr (tie hy.ne (le_antisymm (h2.1 h.ge) (above hy)))⟩
  · exact ⟨le_rfl, fun _ => .inl rfl⟩
  · have hu : unitsOf y * d < unitsOf x * d := Nat.mul_lt_mul_of_pos_right (unitsOf_strictMono hy) hd
    obtain ⟨h1, h2⟩ := abs_sub_le_iff_midpoint (n := n) hu
    push_cast at h1 h2
    rw [Nat.add_comm] at h1 h2
    exact ⟨h2.2 (below hy), fun h => .inr (tie hy.ne' (le_antisymm (below hy) (h1.1 h.ge)))⟩

/-- Below the overflow threshold rounding gives a finite value. -/
theorem roundUnits_eq_fin (neg : Bool) {n d : Nat} (hd : 0 < d) (hn : n < (2 ^ 25 - 1) * 2 ^ 252 * d) :
    ∃ x : Fin 0x7F800000, roundUnits neg n d = .fin neg x := by
  have hinf := mt (roundUnits_inf_iff neg n hd).1 (Nat.not_le_of_lt hn)
  unfold roundUnits F32.ofMag at *
  split at hinf
  case isTrue h => exact ⟨_, dif_pos h⟩
  case isFalse => exact absurd rfl hinf

/-- RNE32 rounds to nearest with ties to even, or overflows to an infinity. -/
theorem roundUnits_isRounded (neg : Bool) (n : Nat) {d : Nat} (hd : 0 < d) :
    IsRounded neg n d (roundUnits neg n d) := by
  by_cases hn : (2 ^ 25 - 1) * 2 ^ 252 * d ≤ n
  · rw [(roundUnits_inf_iff neg n hd).2 hn, IsRounded, if_pos hn]
  · have hn := Nat.lt_of_not_le hn
    obtain ⟨x, hx⟩ := roundUnits_eq_fin neg hd hn
    rw [hx]
    exact isRounded_of_withinMidpoints hd hn (withinMidpoints_of_roundUnits hd hx)

/-- `fadd` of finite values rounds the exact sum. -/
theorem fadd_isSum (a b : Bool) (x y : Fin 0x7F800000) : IsSum a x b y (fadd (.fin a x) (.fin b y)) := by
  unfold IsSum
  intro z
  show if z = 0 then faddFinite a x b y = .fin (a && b) 0 else IsRounded _ _ 1 (faddFinite a x b y)
  have hsum : faddFinite a x b y = if z = 0 then .ofMag (a && b) 0 else roundUnits (decide (z < 0)) z.natAbs 1 := rfl
  rw [hsum]
  split
  · rfl
  · exact roundUnits_isRounded (decide (z < 0)) z.natAbs Nat.one_pos

/-- `fdiv` of finite values by a zero. -/
theorem fdiv_zero (a b : Bool) (x : Fin 0x7F800000) {y : Fin 0x7F800000} (hy : y.val = 0) :
    fdiv (.fin a x) (.fin b y) = if x.val = 0 then .nan else .inf (a != b) := if_pos hy

/-- `fdiv` of finite values by a nonzero one rounds the exact quotient. -/
theorem fdiv_isRounded (a b : Bool) (x : Fin 0x7F800000) {y : Fin 0x7F800000} (hy : y.val ≠ 0) :
    IsRounded (a != b) (unitsOf x * 2 ^ 149) (unitsOf y) (fdiv (.fin a x) (.fin b y)) := by
  have hdiv : fdiv (.fin a x) (.fin b y) = roundUnits (a != b) (unitsOf x * 2 ^ 149) (unitsOf y) := if_neg hy
  rw [hdiv]
  exact roundUnits_isRounded _ _ (Nat.pos_of_ne_zero (mt unitsOf_eq_zero.1 hy))

/-- Settles O43: every operation is one rounding of the exact result, and rounding stays within the midpoints. -/
theorem roundingIsNearestEven : Obligations.RoundingIsNearestEven := by
  unfold Obligations.RoundingIsNearestEven
  exact ⟨fun _ => rfl, fun neg n _ hd => roundUnits_isRounded neg n hd, fun a b x y =>
    ⟨fadd_isSum a b x y, fadd_isSum a (!b) x y, roundUnits_isRounded _ _ (Nat.two_pow_pos 149),
      fdiv_isRounded a b x, fdiv_zero a b x⟩⟩

/-! ## The integer square root (00_scope R11) -/

/-- `q` is the floor of the square root of `x`. -/
def IsFloorRoot (q x : Nat) : Prop := q * q ≤ x ∧ x < (q + 1) * (q + 1)

/-- The bitwise search keeps the root between `r` and `r + 2^k` and halves the distance with each bit. -/
theorem isqrtFrom_isFloorRoot {x k r : Nat} (hlo : r * r ≤ x) (hhi : x < (r + 2 ^ k) * (r + 2 ^ k)) :
    IsFloorRoot (isqrtFrom x k r) x := by
  induction k generalizing r with
  | zero => exact ⟨hlo, hhi⟩
  | succ k ih =>
    rw [pow_succ, Nat.mul_two, ← Nat.add_assoc] at hhi
    unfold isqrtFrom
    split
    case isTrue h => exact ih h hhi
    case isFalse h => exact ih hlo (Nat.lt_of_not_le h)

/-- The first bit searched for is above the root. -/
theorem lt_sq_two_pow_half_log2 (x : Nat) : x < 2 ^ (x.log2 / 2 + 1) * 2 ^ (x.log2 / 2 + 1) := by
  rw [← pow_add]
  exact Nat.lt_log2_self.trans_le (Nat.pow_le_pow_right Nat.two_pos (by omega))

theorem isqrt_isFloorRoot (x : Nat) : IsFloorRoot (isqrt x) x :=
  isqrtFrom_isFloorRoot (Nat.zero_le x) (by simpa using lt_sq_two_pow_half_log2 x)

/-- Settles O44, by the invariant of the bitwise search. -/
theorem integerSquareRoot : Obligations.IntegerSquareRoot := by
  unfold Obligations.IntegerSquareRoot
  exact isqrt_isFloorRoot

/-! ## The square root (00_scope R11) -/

/-- Above the binade of the integers the units of a pattern are even. -/
theorem unitsOf_lt_of_odd {x : Nat} (hodd : unitsOf x % 2 = 1) : unitsOf x < 2 ^ 24 := by
  obtain ⟨s, r, rfl, h0, h1⟩ := pack_of x
  rw [unitsOf_pack h0.le h1] at hodd ⊢
  cases s with
  | zero => simpa using h0
  | succ s =>
    rw [pow_succ, ← Nat.mul_assoc] at hodd
    omega

/-- A half-integer of more than 26 bits is no midpoint of the pattern nearest to it: one of the two patterns would be odd,
and so less near than 2^25 units. -/
theorem midpoint_ne_half {r : Nat} (hr : 2 ^ 26 ≤ r) {x : Fin 0x7F800000} (hx : WithinMidpoints (2 * r + 1) 2 x)
    (y : Fin 0x7F800000) : unitsOf x + unitsOf y ≠ 2 * r + 1 := by
  intro h
  obtain ⟨p, hp⟩ := exists_pattern (m := 2 ^ 24) (e := 1) le_rfl (by omega)
  obtain ⟨above, below, -⟩ := hx p
  have hlarge : unitsOf x ≥ 2 ^ 25 := by
    by_contra hlt
    have := above (unitsOf_strictMono.lt_iff_lt.1 (by omega : unitsOf x < unitsOf p))
    omega
  have hy : unitsOf y < 2 ^ 24 := by
    have := unitsOf_lt_of_odd (x := x)
    exact unitsOf_lt_of_odd (by omega)
  have := below (unitsOf_strictMono.lt_iff_lt.1 (by omega : unitsOf p < unitsOf x))
  omega

/-- The square root rounded to nearest even, on the squares of the midpoints. -/
def IsNearestRoot (v : Nat) (x : Fin 0x7F800000) : Prop :=
  ∀ y : Fin 0x7F800000,
    (x < y → 4 * v ≤ (unitsOf x + unitsOf y) ^ 2) ∧
    (y < x → (unitsOf x + unitsOf y) ^ 2 ≤ 4 * v) ∧
    (x ≠ y → (unitsOf x + unitsOf y) ^ 2 = 4 * v → x.val % 2 = 0)

/-- Where the root is an integer, the pattern within whose midpoints it lies. -/
theorem isNearestRoot_of_exact {r : Nat} {x : Fin 0x7F800000} (hx : WithinMidpoints r 1 x) :
    IsNearestRoot (r * r) x := by
  intro y
  obtain ⟨above, below, tie⟩ := hx y
  rw [Nat.mul_one] at above below tie
  have hsq : 4 * (r * r) = (2 * r) ^ 2 := by ring
  rw [hsq]
  exact ⟨fun h => Nat.pow_le_pow_left (above h) 2, fun h => Nat.pow_le_pow_left (below h) 2,
    fun hne h => tie hne (Nat.pow_left_injective two_ne_zero h)⟩

/-- Where the root lies strictly between two integers, the pattern within whose midpoints the half between them lies: a
midpoint is half an integer, so that it is on the same side of the root as of the half. -/
theorem isNearestRoot_of_half {v r : Nat} (hlo : r * r < v) (hhi : v < (r + 1) * (r + 1)) (hr : 2 ^ 26 ≤ r)
    {x : Fin 0x7F800000} (hx : WithinMidpoints (2 * r + 1) 2 x) : IsNearestRoot v x := by
  intro y
  obtain ⟨above, below, -⟩ := hx y
  have hne := midpoint_ne_half hr hx y
  generalize unitsOf x + unitsOf y = m at *
  have hgt : 2 * r + 2 ≤ m → 4 * v < m ^ 2 := fun h => by nlinarith
  have hlt : m ≤ 2 * r → m ^ 2 < 4 * v := fun h => by nlinarith
  refine ⟨fun h => ?_, fun h => ?_, fun _ htie => ?_⟩
  · have := above h
    exact (hgt (by omega)).le
  · have := below h
    exact (hlt (by omega)).le
  · rcases lt_or_gt_of_ne hne with h | h
    · exact absurd htie (hlt (by omega)).ne
    · exact absurd htie (hgt h).ne'

/-- The units of every finite value are below the binade above the greatest one. -/
theorem unitsOf_lt_two_pow (z : Fin 0x7F800000) : unitsOf z < 2 ^ 277 := by
  obtain ⟨s, r, hz, h0, h1⟩ := pack_of z
  have hs : s ≤ 253 := by
    have := h1
    have := z.isLt
    omega
  rw [hz, unitsOf_pack h0.le h1, pow_add 2 24 253]
  exact Nat.mul_lt_mul_of_lt_of_le h0 (Nat.pow_le_pow_right Nat.two_pos hs) (Nat.two_pow_pos 253)

/-- The integer root of the scaled units has more than 26 bits, and is below the overflow threshold. -/
theorem isqrt_scaled_bounds {u : Nat} (hpos : 0 < u) (hu : u < 2 ^ 277) :
    2 ^ 26 ≤ isqrt (u * 2 ^ 149) ∧ isqrt (u * 2 ^ 149) < 2 ^ 213 := by
  obtain ⟨hlo, hhi⟩ := isqrt_isFloorRoot (u * 2 ^ 149)
  constructor
  · refine Nat.le_of_lt_succ (lt_of_mul_self_lt_mul_self₀ (Nat.zero_le _) (lt_of_le_of_lt ?_ hhi))
    calc 2 ^ 26 * 2 ^ 26 = 2 ^ 52 := by norm_num
      _ ≤ 2 ^ 149 := Nat.pow_le_pow_right Nat.two_pos (by omega)
      _ ≤ u * 2 ^ 149 := Nat.le_mul_of_pos_left _ hpos
  · refine lt_of_mul_self_lt_mul_self₀ (Nat.zero_le _) (lt_of_le_of_lt hlo ?_)
    calc u * 2 ^ 149 < 2 ^ 277 * 2 ^ 149 := Nat.mul_lt_mul_of_pos_right hu (Nat.two_pow_pos 149)
      _ = 2 ^ 213 * 2 ^ 213 := by rw [← pow_add, ← pow_add]

/-- A magnitude below 2^252 units does not overflow. -/
theorem lt_overflow {n d : Nat} (hd : 0 < d) (hn : n < 2 ^ 252) : n < (2 ^ 25 - 1) * 2 ^ 252 * d :=
  calc n < 2 ^ 252 := hn
    _ ≤ (2 ^ 25 - 1) * 2 ^ 252 := Nat.le_mul_of_pos_left _ (by norm_num)
    _ ≤ (2 ^ 25 - 1) * 2 ^ 252 * d := Nat.le_mul_of_pos_right _ hd

/-- The rounded square root of nonzero units is finite, and nearest to the root. -/
theorem sqrtUnits_isNearestRoot {u : Nat} (hpos : 0 < u) (hu : u < 2 ^ 277) :
    ∃ x : Fin 0x7F800000, sqrtUnits u = .fin false x ∧ IsNearestRoot (u * 2 ^ 149) x := by
  obtain ⟨hlo, hhi⟩ := isqrt_isFloorRoot (u * 2 ^ 149)
  obtain ⟨hmin, hmax⟩ := isqrt_scaled_bounds hpos hu
  unfold sqrtUnits
  generalize isqrt (u * 2 ^ 149) = r at *
  have hr : 2 * r + 1 < 2 ^ 252 :=
    calc 2 * r + 1 < 2 ^ 213 * 2 := by omega
      _ = 2 ^ 214 := (pow_succ 2 213).symm
      _ ≤ 2 ^ 252 := Nat.pow_le_pow_right Nat.two_pos (by omega)
  by_cases hexact : r * r = u * 2 ^ 149
  · obtain ⟨x, hx⟩ := roundUnits_eq_fin false Nat.one_pos (lt_overflow Nat.one_pos (show r < 2 ^ 252 by omega))
    refine ⟨x, (if_pos hexact).trans hx, ?_⟩
    rw [← hexact]
    exact isNearestRoot_of_exact (withinMidpoints_of_roundUnits Nat.one_pos hx)
  · obtain ⟨x, hx⟩ := roundUnits_eq_fin false Nat.two_pos (lt_overflow Nat.two_pos hr)
    exact ⟨x, (if_neg hexact).trans hx,
      isNearestRoot_of_half (lt_of_le_of_ne hlo hexact) hhi hmin (withinMidpoints_of_roundUnits Nat.two_pos hx)⟩

/-- `fsqrt` of a zero is that zero. -/
theorem fsqrt_zero (a : Bool) {z : Fin 0x7F800000} (hz : z.val = 0) : fsqrt (.fin a z) = .fin a z := by
  simp only [fsqrt, if_pos hz]

/-- `fsqrt` of a positive value is the rounded root of its units. -/
theorem fsqrt_pos {z : Fin 0x7F800000} (hz : z.val ≠ 0) : fsqrt (.fin false z) = sqrtUnits (unitsOf z) := by
  simp only [fsqrt, if_neg hz, Bool.false_eq_true, if_false]

/-- Zero is its own nearest root. -/
theorem isNearestRoot_zero {z : Fin 0x7F800000} (hz : z.val = 0) : IsNearestRoot (unitsOf z * 2 ^ 149) z := by
  have hv : 4 * (unitsOf z * 2 ^ 149) = 0 := by rw [unitsOf_eq_zero.2 hz, Nat.zero_mul, Nat.mul_zero]
  intro y
  rw [hv]
  exact ⟨fun _ => Nat.zero_le _, fun h => absurd (Fin.lt_def.1 h) (by omega), fun _ _ => by omega⟩

/-- Settles O45: zero is its own root, and the root of any other value is one rounding of a number on the same side of
every midpoint. -/
theorem squareRootIsNearestEven : Obligations.SquareRootIsNearestEven := by
  unfold Obligations.SquareRootIsNearestEven
  intro z
  by_cases hz : z.val = 0
  · exact ⟨z, fsqrt_zero false hz, isNearestRoot_zero hz⟩
  · rw [fsqrt_pos hz]
    exact sqrtUnits_isNearestRoot (Nat.pos_of_ne_zero (mt unitsOf_eq_zero.1 hz)) (unitsOf_lt_two_pow z)

/-! ## The logarithm units (00_scope R14) -/

/-- P1: the logarithm of a zero. -/
theorem log10_zero (u : Log10Unit) (a : Bool) : log10 u (.fin a 0) = .inf true := rfl

/-- The logarithm of a positive finite value. -/
theorem log10_pos (u : Log10Unit) {x : Fin 0x7F800000} (hx : x.val ≠ 0) :
    log10 u (.fin false x) = log10Positive u x := by
  simp only [log10, if_neg hx, Bool.false_eq_true, if_false]

/-- The place of a finite value below 0: its sign bit is set and it is not a zero. -/
theorem signedUnits_neg {a : Bool} {u : Nat} (h : signedUnits a u < 0) : a = true ∧ u ≠ 0 := by
  cases a
  · exact absurd h (not_lt.2 (Int.natCast_nonneg u))
  · rw [signedUnits, if_pos rfl] at h
    exact ⟨rfl, by omega⟩

theorem orderKey_fZero : orderKey fZero = some 0 := by decide

/-- P2: the logarithm of a NaN or a negative value. -/
theorem log10_nan_or_neg (u : Log10Unit) {x : F32} (h : x = .nan ∨ fgt fZero x = true) : log10 u x = .nan := by
  cases x with
  | nan => rfl
  | inf a =>
    have hneg := h.resolve_left nofun
    rw [fgt_of_key orderKey_fZero rfl, decide_eq_true_eq] at hneg
    obtain ⟨rfl, -⟩ := signedUnits_neg hneg
    rfl
  | fin a x =>
    have hneg := h.resolve_left nofun
    rw [fgt_of_key orderKey_fZero rfl, decide_eq_true_eq] at hneg
    obtain ⟨rfl, hx⟩ := signedUnits_neg hneg
    simp only [log10, if_neg hx, if_true]

/-! ### P4: the powers of ten -/

/-- The logarithm of each power of ten is exact in the reference unit. -/
theorem log10_reference_ten_pow : ∀ k : Nat, k < 11 → log10 .reference (i2f ((10 : Int) ^ k)) = i2f k := by
  decide +kernel

/-- The table holds the patterns of the powers of ten, in their order. -/
theorem i2f_ten_pow : ∀ k : Nat, k < 11 → i2f ((10 : Int) ^ k) = .ofMag false (powersOfTen.getD k 0) := by
  decide +kernel

/-- An entry of the table is a positive finite pattern, and the entries up to it are counted by its decade. -/
theorem powersOfTen_entry : ∀ k < 11, 0 < powersOfTen.getD k 0 ∧ powersOfTen.getD k 0 < 0x7F800000 ∧
    powersOfTen.getD k 0 ∈ powersOfTen ∧ decade (powersOfTen.getD k 0) = k + 1 := by decide +kernel

/-- The places of the integer logarithms have their values. -/
theorem ofKey_keyOfNat : ∀ k < 11, ofKey (keyOfNat k) = i2f k := by decide +kernel

/-- At a power of ten the greatest lawful place is that of the exact logarithm. -/
theorem log10High_of_power {m : Nat} (hm : m ∈ powersOfTen) : log10High m = keyOfNat (decade m - 1) :=
  if_pos (List.contains_iff_mem.2 hm)

/-- At a power of ten both limits are the exact logarithm, whatever the steps. -/
theorem log10Steps_of_power (l : List (Nat × Int)) {mag k : Nat} (hp : mag ∈ powersOfTen)
    (hd : decade mag = k + 1) : log10Steps l mag = ofKey (keyOfNat k) := by
  have hlow : log10Low mag = keyOfNat k := by rw [log10Low, hd, if_neg k.succ_ne_zero, Nat.add_sub_cancel]
  have hhigh : log10High mag = keyOfNat k := by rw [log10High_of_power hp, hd, Nat.add_sub_cancel]
  rw [log10Steps, hlow, hhigh, max_eq_left (min_le_left _ _)]

/-- P4: the logarithm of a power of ten is exact. -/
theorem log10_ten_pow (u : Log10Unit) {k : Nat} (hk : k ≤ 10) : log10 u (i2f ((10 : Int) ^ k)) = i2f k := by
  have hk := Nat.lt_succ_of_le hk
  cases u with
  | reference => exact log10_reference_ten_pow k hk
  | steps l =>
    obtain ⟨hpos, hfin, hmem, hdec⟩ := powersOfTen_entry k hk
    rw [i2f_ten_pow k hk, F32.ofMag, dif_pos hfin, log10_pos _ hpos.ne', log10Positive,
      log10Steps_of_power l hmem hdec, ofKey_keyOfNat k hk]

/-! ### P5 and P6: the units given by steps -/

/-- The greatest finite place of the order. -/
def maxKey : Int := 0x7F7FFFFF

/-- A place between the finite ones holds a finite value at that place. -/
theorem ofKey_finite {k : Int} (hlo : -maxKey ≤ k) (hhi : k ≤ maxKey) :
    ∃ a x, ofKey k = .fin a x ∧ orderKey (ofKey k) = some k := by
  unfold maxKey at hlo hhi
  have hlt : k.natAbs < 0x7F800000 := by omega
  refine ⟨decide (k < 0), ⟨k.natAbs, hlt⟩, dif_pos hlt, ?_⟩
  rw [ofKey, F32.ofMag, dif_pos hlt]
  by_cases hneg : k < 0
  · simp only [orderKey, signedUnits, hneg, decide_true, if_true, Option.some.injEq]
    omega
  · simp only [orderKey, signedUnits, hneg, decide_false, Bool.false_eq_true, if_false, Option.some.injEq]
    omega

/-- The places of the integer logarithms are finite and not below 0. -/
theorem keyOfNat_bounds : ∀ j < 12, 0 ≤ keyOfNat j ∧ keyOfNat j ≤ maxKey := by decide +kernel

theorem keyOfNat_mono : ∀ j < 12, ∀ i ≤ j, keyOfNat i ≤ keyOfNat j := by decide +kernel

theorem decade_le (mag : Nat) : decade mag ≤ 11 := List.length_filter_le _ _

/-- The powers of ten up to a magnitude are among those up to a greater one. -/
theorem powersUpTo_sublist {m n : Nat} (h : m ≤ n) :
    (powersOfTen.filter fun t => decide (t ≤ m)).Sublist (powersOfTen.filter fun t => decide (t ≤ n)) :=
  List.monotone_filter_right powersOfTen fun t ht => by
    simp only [decide_eq_true_eq] at ht ⊢
    exact ht.trans h

theorem decade_mono {m n : Nat} (h : m ≤ n) : decade m ≤ decade n := (powersUpTo_sublist h).length_le

/-- A power of ten is counted from itself on. -/
theorem decade_lt_of_power {m n : Nat} (h : m < n) (hn : n ∈ powersOfTen) : decade m < decade n := by
  refine lt_of_le_of_ne (decade_mono h.le) fun heq => ?_
  have hmem : n ∈ powersOfTen.filter fun t => decide (t ≤ m) := by
    rw [(powersUpTo_sublist h.le).eq_of_length heq]
    simpa using hn
  simp only [List.mem_filter, decide_eq_true_eq] at hmem
  omega

theorem log10Low_mono {m n : Nat} (h : m ≤ n) : log10Low m ≤ log10Low n := by
  have hmono := decade_mono h
  have hle := decade_le n
  unfold log10Low
  by_cases hm : decade m = 0
  · rw [if_pos hm]
    split
    · exact le_rfl
    · exact le_trans (by decide) (keyOfNat_bounds (decade n - 1) (by omega)).1
  · rw [if_neg hm, if_neg (by omega)]
    exact keyOfNat_mono _ (by omega) _ (by omega)

/-- Off the powers of ten the greatest lawful place is that of the next integer, or the greatest finite one. -/
theorem log10High_of_not_power {m : Nat} (hm : m ∉ powersOfTen) :
    log10High m = if decade m = 11 then maxKey else keyOfNat (decade m) :=
  if_neg (mt List.contains_iff_mem.1 hm)

theorem keyOfNat_le_log10High (m : Nat) : keyOfNat (decade m - 1) ≤ log10High m := by
  have hle := decade_le m
  by_cases hm : m ∈ powersOfTen
  · exact (log10High_of_power hm).ge
  · rw [log10High_of_not_power hm]
    split
    · exact (keyOfNat_bounds _ (by omega)).2
    · exact keyOfNat_mono _ (by omega) _ (by omega)

theorem log10High_le (m : Nat) : log10High m ≤ maxKey := by
  have hle := decade_le m
  by_cases hm : m ∈ powersOfTen
  · rw [log10High_of_power hm]
    exact (keyOfNat_bounds _ (by omega)).2
  · rw [log10High_of_not_power hm]
    split
    · exact le_rfl
    · exact (keyOfNat_bounds _ (by omega)).2

/-- Below a power of ten the greatest lawful place is at most its logarithm's; between two of them it does not change. -/
theorem log10High_mono {m n : Nat} (h : m ≤ n) : log10High m ≤ log10High n := by
  have hmono := decade_mono h
  have hle := decade_le n
  by_cases hm : m ∈ powersOfTen
  · rw [log10High_of_power hm]
    exact (keyOfNat_mono _ (by omega) _ (by omega)).trans (keyOfNat_le_log10High n)
  · by_cases hn : n ∈ powersOfTen
    · have hlt : decade m < decade n :=
        decade_lt_of_power (lt_of_le_of_ne h fun heq => hm (heq ▸ hn)) hn
      rw [log10High_of_not_power hm, log10High_of_power hn, if_neg (by omega)]
      exact keyOfNat_mono _ (by omega) _ (by omega)
    · by_cases h11 : decade n = 11
      · rw [log10High_of_not_power hn, if_pos h11]
        exact log10High_le m
      · rw [log10High_of_not_power hm, log10High_of_not_power hn, if_neg (by omega), if_neg h11]
        exact keyOfNat_mono _ (by omega) _ hmono

theorem stepMax_mono (l : List (Nat × Int)) {m n : Nat} (h : m ≤ n) : stepMax m l ≤ stepMax n l := by
  induction l with
  | nil => exact le_rfl
  | cons step rest ih =>
    obtain ⟨t, v⟩ := step
    unfold stepMax
    by_cases hm : t ≤ m
    · rw [if_pos hm, if_pos (hm.trans h)]
      exact max_le_max_left v ih
    · rw [if_neg hm]
      split
      · exact ih.trans (le_max_right v _)
      · exact ih

/-- The place of the logarithm by steps. -/
def stepKey (l : List (Nat × Int)) (mag : Nat) : Int := max (log10Low mag) (min (log10High mag) (stepMax mag l))

theorem log10Steps_eq_ofKey (l : List (Nat × Int)) (mag : Nat) : log10Steps l mag = ofKey (stepKey l mag) := rfl

theorem stepKey_mono (l : List (Nat × Int)) {m n : Nat} (h : m ≤ n) : stepKey l m ≤ stepKey l n :=
  max_le_max (log10Low_mono h) (min_le_min (log10High_mono h) (stepMax_mono l h))

theorem log10Low_bounds (m : Nat) : -maxKey ≤ log10Low m ∧ log10Low m ≤ maxKey := by
  have hle := decade_le m
  unfold log10Low
  split
  · decide
  · obtain ⟨h0, h1⟩ := keyOfNat_bounds (decade m - 1) (by omega)
    exact ⟨le_trans (by decide) h0, h1⟩

theorem stepKey_bounds (l : List (Nat × Int)) (m : Nat) : -maxKey ≤ stepKey l m ∧ stepKey l m ≤ maxKey := by
  obtain ⟨h0, h1⟩ := log10Low_bounds m
  exact ⟨h0.trans (le_max_left _ _), max_le h1 ((min_le_left _ _).trans (log10High_le m))⟩

/-- P6: a unit given by steps gives a finite value for a positive finite one, at the place of the steps. -/
theorem log10_steps_finite (l : List (Nat × Int)) {x : Fin 0x7F800000} (hx : x.val ≠ 0) :
    ∃ a z, log10 (.steps l) (.fin false x) = .fin a z ∧
      orderKey (log10 (.steps l) (.fin false x)) = some (stepKey l x) := by
  rw [log10_pos _ hx, log10Positive, log10Steps_eq_ofKey]
  exact ofKey_finite (stepKey_bounds l x).1 (stepKey_bounds l x).2

/-- The non-negative values of the order: the zeros, the positive finite values and +infinity. -/
theorem fge_fZero_cases {x : F32} (h : fge x fZero = true) :
    (∃ a, x = .fin a 0) ∨ (∃ z : Fin 0x7F800000, z.val ≠ 0 ∧ x = .fin false z) ∨ x = .inf false := by
  cases x with
  | nan => exact absurd h (by decide)
  | inf a =>
    cases a
    · exact .inr (.inr rfl)
    · exact absurd h (by decide)
  | fin a z =>
    by_cases hz : z.val = 0
    · exact .inl ⟨a, congrArg (F32.fin a) (Fin.ext hz)⟩
    · cases a
      · exact .inr (.inl ⟨z, hz, rfl⟩)
      · rw [fge_of_key rfl orderKey_fZero, decide_eq_true_eq, signedUnits, if_pos rfl] at h
        omega

/-- A comparison that holds is one of two places. -/
theorem keys_of_fge {x y : F32} (h : fge y x = true) :
    ∃ i j, orderKey x = some i ∧ orderKey y = some j ∧ i ≤ j := by
  unfold fge at h
  split at h
  · exact ⟨_, _, ‹_›, ‹_›, of_decide_eq_true h⟩
  · cases h

theorem fge_trans {x y z : F32} (h1 : fge y x = true) (h2 : fge x z = true) : fge y z = true := by
  obtain ⟨i, j, hx, hy, hij⟩ := keys_of_fge h1
  obtain ⟨k, i', hz, hx', hki⟩ := keys_of_fge h2
  obtain rfl : i = i' := Option.some.inj (hx.symm.trans hx')
  rw [fge_of_key hy hz]
  exact decide_eq_true (hki.trans hij)

/-- The place of the logarithm by steps of the non-negative value at place `k`: -infinity for a zero, a finite place for
a finite value, +infinity for +infinity. -/
def stepPlace (l : List (Nat × Int)) (k : Nat) : Int :=
  if k = 0 then -0x7F800000 else if k < 0x7F800000 then stepKey l k else 0x7F800000

theorem stepPlace_mono (l : List (Nat × Int)) {j k : Nat} (h : j ≤ k) : stepPlace l j ≤ stepPlace l k := by
  obtain ⟨hj0, hj1⟩ := stepKey_bounds l j
  obtain ⟨hk0, hk1⟩ := stepKey_bounds l k
  have hmono := stepKey_mono l h
  unfold maxKey at *
  unfold stepPlace
  split_ifs <;> omega

/-- A non-negative value and its logarithm by steps, by their places. -/
theorem orderKey_log10_steps (l : List (Nat × Int)) {x : F32} (h : fge x fZero = true) :
    ∃ k : Nat, orderKey x = some (k : Int) ∧ orderKey (log10 (.steps l) x) = some (stepPlace l k) := by
  rcases fge_fZero_cases h with ⟨a, rfl⟩ | ⟨z, hz, rfl⟩ | rfl
  · exact ⟨0, by cases a <;> rfl, rfl⟩
  · obtain ⟨_, _, _, hkey⟩ := log10_steps_finite l hz
    exact ⟨z, rfl, by rw [hkey, stepPlace, if_neg hz, if_pos z.isLt]⟩
  · exact ⟨0x7F800000, rfl, rfl⟩

/-- P5: a unit given by steps is monotone on the non-negative values. -/
theorem log10_steps_mono (l : List (Nat × Int)) {x y : F32} (hx : fge x fZero = true) (hxy : fge y x = true) :
    fge (log10 (.steps l) y) (log10 (.steps l) x) = true := by
  obtain ⟨j, hj, hlj⟩ := orderKey_log10_steps l hx
  obtain ⟨k, hk, hlk⟩ := orderKey_log10_steps l (fge_trans hxy hx)
  rw [fge_of_key hk hj, decide_eq_true_eq] at hxy
  rw [fge_of_key hlk hlj, decide_eq_true_eq]
  exact stepPlace_mono l (by omega)

/-- Settles O54: P1 to P4 by the cases of the definition and the table of powers, P5 and P6 by the places of the steps. -/
theorem logarithmProperties : Obligations.LogarithmProperties := by
  unfold Obligations.LogarithmProperties
  refine ⟨log10_zero, fun u _ => log10_nan_or_neg u, fun _ => rfl, fun u _ => log10_ten_pow u,
    fun l _ _ => log10_steps_mono l, fun l x hx => ?_⟩
  obtain ⟨a, z, h, -⟩ := log10_steps_finite l hx.ne'
  exact ⟨a, z, h⟩

end Sys2Proof.Machine
end

section
/-! PROOFS. The statements on 10_state: the register block (R22 to R33), what a completion writes and reads (R25 to
R37), and what every step keeps: the machine invariant, the configuration, the valid flags and the sticky flags. -/

namespace Sys2Proof.Machine

open Sys2Proof.Claims

/-! ## The legality of a configuration (00_scope R7, R9) -/

theorem configWf_iff {c : Config} : configWf c = true ↔
    1 ≤ c.log2n ∧ c.log2n ≤ 15 ∧ 2 ^ c.fftOutN.log2 = c.fftOutN ∧ c.fftOutN ≤ c.n ∧ 1 ≤ c.bandN ∧ c.bandN ≤ c.n ∧
    c.regBase.toNat % 64 = 0 ∧ bndIncreasing c = true := by
  simp only [configWf, log2nOk, fftOutNOk, bandNOk, regBaseOk, Bool.and_eq_true, decide_eq_true_eq, and_assoc]

theorem one_le_log2n {c : Config} (h : configWf c = true) : 1 ≤ c.log2n := (configWf_iff.1 h).1

theorem regBase_aligned {c : Config} (h : configWf c = true) : c.regBase.toNat % 64 = 0 := by
  obtain ⟨-, -, -, -, -, -, halign, -⟩ := configWf_iff.1 h
  exact halign

/-- The sizes of a well-formed configuration fit the fields of its CONFIG words (10_state R31, R32). -/
theorem sizes_of_configWf {c : Config} (h : configWf c = true) :
    c.log2n < 2 ^ 5 ∧ c.fftOutN < 2 ^ 16 ∧ c.bandN < 2 ^ 16 := by
  obtain ⟨-, hlog, -, hout, -, hband, -⟩ := configWf_iff.1 h
  have hn : c.n ≤ 2 ^ 15 := Nat.pow_le_pow_right two_pos hlog
  omega

/-! ## Bit reversal (41_tables R120) -/

theorem bitrev_lt (l x : Nat) : bitrev l x < 2 ^ l := by
  induction l generalizing x with
  | zero => exact Nat.one_pos
  | succ l ih =>
    have hbit : x % 2 * 2 ^ l ≤ 1 * 2 ^ l := Nat.mul_le_mul_right _ (by omega)
    have := ih (x / 2)
    rw [bitrev, Nat.pow_succ]
    omega

/-- Bit `k` of the reversal is bit `l - 1 - k` of the number. -/
theorem testBit_bitrev (l x k : Nat) : (bitrev l x).testBit k = (decide (k < l) && x.testBit (l - 1 - k)) := by
  induction l generalizing x k with
  | zero => simp [bitrev]
  | succ l ih =>
    rw [bitrev, Nat.mul_comm, Nat.testBit_two_pow_mul_add _ (bitrev_lt l _)]
    rcases Nat.lt_trichotomy k l with hk | rfl | hk
    · rw [if_pos hk, ih, Nat.testBit_div_two, show l - 1 - k + 1 = l + 1 - 1 - k by omega]
      simp [hk, Nat.lt_succ_of_lt hk]
    · simp [Nat.testBit_zero]
    · have hx : (x % 2).testBit (k - l) = false :=
        Nat.testBit_lt_two_pow ((Nat.mod_lt _ two_pos).trans_le (Nat.le_pow (by omega)))
      rw [if_neg (by omega), hx, decide_eq_false (by omega), Bool.false_and]

theorem bitrev_bitrev {l x : Nat} (hx : x < 2 ^ l) : bitrev l (bitrev l x) = x := by
  refine Nat.eq_of_testBit_eq fun k => ?_
  rw [testBit_bitrev, testBit_bitrev]
  by_cases hk : k < l
  · rw [show l - 1 - (l - 1 - k) = k by omega]
    simp [hk, show l - 1 - k < l by omega]
  · have : x.testBit k = false := Nat.testBit_lt_two_pow (hx.trans_le (Nat.pow_le_pow_right two_pos (by omega)))
    simp [hk, this]

theorem bitrev_injOn {l x y : Nat} (hx : x < 2 ^ l) (hy : y < 2 ^ l) (h : bitrev l x = bitrev l y) : x = y := by
  rw [← bitrev_bitrev hx, h, bitrev_bitrev hy]

/-! ## What LOAD and EXTRACT leave, entry by entry -/

/-- LOAD leaves every entry of TD written, whatever it held before (42_load R142). -/
theorem loadTd_getElem? (ch : Channel) {s : State} (hl : s.td.length = s.cfg.n) {k : Nat} (hk : k < s.cfg.n) :
    (loadTd ch s)[k]? = some (some (windowed ch s (bitrev s.cfg.log2n k))) := by
  have h := foldl_tdSet_get (n := s.cfg.n) (f := bitrev s.cfg.log2n) (td := s.td) (windowed ch s)
    (fun _ hi _ hj => bitrev_injOn hi hj) (fun i _ => hl ▸ bitrev_lt _ i) _ (bitrev_lt s.cfg.log2n k)
  rwa [bitrev_bitrev hk] at h

/-- With N even, the unpacker's loop leaves every entry of SPEC written, whatever it held before (44_extract R182). -/
theorem extractPairs_getElem? {c : Config} (hn : 1 ≤ c.log2n) (sc : F32) (td : List (Option Cplx))
    {sp : List (Option F32)} (hl : sp.length = c.n) {k : Nat} (hk : k < c.n) :
    (extractPairs c sc td sp)[k]? = some (some (amplitude c sc
      (if k % 2 = 0 then unpackSum c td (k / 2) else unpackDiff c td (k / 2)))) := by
  have heven : c.n = 2 * c.h := by
    rw [Config.h, Config.n, Nat.mul_div_cancel' (dvd_pow_self 2 (by omega))]
  obtain ⟨hsum, hdiff⟩ := (extractPairs_get c sc td (sp := sp) (n := c.h) (by omega)).2 (k / 2) (by omega)
  rcases Nat.mod_two_eq_zero_or_one k with h | h
  · rw [if_pos h, ← hsum, extractPairs, show 2 * (k / 2) = k by omega]
  · rw [if_neg (by omega), ← hdiff, extractPairs, show 2 * (k / 2) + 1 = k by omega]

theorem allWritten_of_getElem? {α : Type} {l : List (Option α)} {v : Nat → α}
    (h : ∀ k < l.length, l[k]? = some (some (v k))) : allWritten l = true := by
  rw [allWritten, List.all_eq_true]
  intro x hx
  obtain ⟨k, hk, rfl⟩ := List.mem_iff_getElem.1 hx
  have := h k hk
  rw [List.getElem?_eq_getElem hk, Option.some_inj] at this
  rw [this, Option.isSome_some]

theorem allWritten_loadTd (ch : Channel) {s : State} (hl : s.td.length = s.cfg.n) :
    allWritten (loadTd ch s) = true :=
  allWritten_of_getElem? fun _ hk => loadTd_getElem? ch hl (by rwa [loadTd_length, hl] at hk)

theorem allWritten_extract {c : Config} (hn : 1 ≤ c.log2n) (sc : F32) (td : List (Option Cplx))
    {sp : List (Option F32)} (hl : sp.length = c.n) : allWritten (halveDc (extractPairs c sc td sp)) = true :=
  allWritten_set (allWritten_of_getElem? fun _ hk =>
    extractPairs_getElem? hn sc td hl (by rwa [extractPairs_length, hl] at hk)) _ _

/-- LOAD does not depend on what TD held before. -/
theorem loadTd_setTd (ch : Channel) {s : State} {td : List (Option Cplx)} (hl : s.td.length = s.cfg.n)
    (hl' : td.length = s.cfg.n) : loadTd ch (s.setTd td) = loadTd ch s := by
  refine List.ext_getElem?' fun k hk => ?_
  rw [loadTd_length, loadTd_length, State.setTd_td, hl, hl', max_self] at hk
  rw [loadTd_getElem? ch hl hk, loadTd_getElem? ch (s := s.setTd td) hl' hk]
  rfl

/-- EXTRACT does not depend on what SPEC held before. -/
theorem extractPairs_congr {c : Config} (hn : 1 ≤ c.log2n) (sc : F32) (td : List (Option Cplx))
    {sp sp' : List (Option F32)} (hl : sp.length = c.n) (hl' : sp'.length = c.n) :
    extractPairs c sc td sp' = extractPairs c sc td sp := by
  refine List.ext_getElem?' fun k hk => ?_
  rw [extractPairs_length, extractPairs_length, hl, hl', max_self] at hk
  rw [extractPairs_getElem? hn sc td hl hk, extractPairs_getElem? hn sc td hl' hk]

/-! ## What passing checks give (60_exceptions R251) -/

theorem needsTables_of_needsTd {i : Instr} (hi : needsTd i = true) : needsTables i = true := by
  cases i
  case transform | extract => rfl
  all_goals cases hi

theorem needsTables_of_isShaper {i : Instr} (hi : isShaper i = true) : needsTables i = true := by
  cases i
  case linear | log | bands => rfl
  all_goals cases hi

theorem tdValid_of_check_ok {i : Instr} {s : State} (hi : needsTd i = true) (hc : check i s = .ok) :
    s.status.tdValid = true := by
  rcases check_ok_iff.1 hc with h | ⟨-, htd, -⟩
  · exact absurd (needsTables_of_needsTd hi) (Bool.eq_false_iff.1 h)
  · exact htd hi

theorem shaper_checks_of_check_ok {i : Instr} {s : State} (hi : isShaper i = true) (hc : check i s = .ok) :
    s.status.specValid = true ∧ checkRange i s = .ok := by
  rcases check_ok_iff.1 hc with h | ⟨-, -, hspec, hrange, -⟩
  · exact absurd (needsTables_of_isShaper hi) (Bool.eq_false_iff.1 h)
  · exact ⟨hspec hi, hrange⟩

/-- The array of a shaping command whose checks pass ends within the address space (20_memory R65). -/
theorem array_in_space_of_check_ok {i : Instr} {s : State} (hi : isShaper i = true) (hc : check i s = .ok) :
    baseAddr s + accessLen s.cfg i ≤ 2 ^ 32 := by
  obtain ⟨-, hrange⟩ := shaper_checks_of_check_ok hi hc
  cases i
  case linear | log | bands => exact (checkAddr_ok_iff.1 hrange).2
  all_goals cases hi

/-! ## Every success keeps the invariant -/

/-- The counters stay within BAND_DELAY through BANDS (46_bands R226). -/
theorem bandLoop_delay_le {s : State} (h : ∀ d ∈ s.delay, d.toNat ≤ s.cfg.bandDelay.toNat) :
    ∀ d ∈ (bandLoop s).delay, d.toNat ≤ s.cfg.bandDelay.toNat := by
  refine foldl_keeps (P := fun x : BandState => ∀ d ∈ x.delay, d.toNat ≤ s.cfg.bandDelay.toNat)
    (fun x b hx d hd => ?_) _ _ h
  rcases List.mem_or_eq_of_mem_set hd with hd | rfl
  · exact hx d hd
  · refine nextDelay_le ?_ _
    by_cases hb : b < x.delay.length
    · rw [delayEntry, List.getD_eq_getElem _ _ hb]
      exact hx _ (List.getElem_mem hb)
    · rw [delayEntry, List.getD_eq_default _ _ (by omega)]
      exact Nat.zero_le _

/-- A success keeps the invariant where the perform step keeps what it says of the memories: ERRCODE becomes 0. -/
theorem Inv.succeed_setStatus {s : State} (h : Inv s) {st : Status} (htd : st.tdValid = true → s.status.tdValid = true)
    (hspec : st.specValid = true → s.status.specValid = true) : Inv (succeed (s.setStatus st)) :=
  { h with
    tdWritten := fun hv => h.tdWritten (htd hv), specWritten := fun hv => h.specWritten (hspec hv)
    errSticky := fun he => absurd rfl he }

theorem Inv.succeed_self {s : State} (h : Inv s) : Inv (succeed s) := h.succeed_setStatus id id

theorem Inv.succeed_load {s : State} (h : Inv s) (ch : Channel) : Inv (succeed (performLoad ch s)) :=
  { h with
    tdLength := (loadTd_length ch s).trans h.tdLength
    tdWritten := fun _ => allWritten_loadTd ch h.tdLength
    errSticky := fun he => absurd rfl he }

theorem Inv.succeed_transform {s : State} (h : Inv s) : Inv (succeed (performTransform s)) :=
  { h with
    tdLength := (fftNetwork_length s.cfg s.td).trans h.tdLength
    tdWritten := fun hv => allWritten_fftNetwork s.cfg (h.tdWritten hv)
    errSticky := fun he => absurd rfl he }

theorem Inv.succeed_extract {s : State} (h : Inv s) (hn : 1 ≤ s.cfg.log2n) : Inv (succeed (performExtract s)) :=
  { h with
    specLength := (halveDc_length _).trans ((extractPairs_length _ _ _ _).trans h.specLength)
    specWritten := fun _ => allWritten_extract hn _ _ h.specLength
    errSticky := fun he => absurd rfl he }

theorem Inv.succeed_shape {s : State} (h : Inv s) (b : Bool) (hr : baseAddr s + 2 * s.cfg.fftOutN ≤ 2 ^ 32) :
    Inv (succeed (performShape b s)) :=
  { h with
    memWf := wf_shapeMem b h.memWf, memInSpace := inSpace_shapeMem b h.memInSpace hr
    errSticky := fun he => absurd rfl he }

theorem Inv.succeed_bands {s : State} (h : Inv s) (hr : baseAddr s + 2 * s.cfg.bandN ≤ 2 ^ 32) :
    Inv (succeed (performBands s)) :=
  { h with
    delayLength := (bandLoop_delay_length s).trans h.delayLength, delayBound := bandLoop_delay_le h.delayBound
    memWf := wf_bandLoop h.memWf, memInSpace := inSpace_bandLoop h.memInSpace hr
    errSticky := fun he => absurd rfl he }

theorem Inv.succeed_perform {i : Instr} {s : State} (h : Inv s) (hn : 1 ≤ s.cfg.log2n) (hc : check i s = .ok) :
    Inv (succeed (perform i s)) := by
  cases i with
  | nop => exact h.succeed_self
  | init => exact h.succeed_setStatus id id
  | loadL => exact h.succeed_load .left
  | loadR => exact h.succeed_load .right
  | loadM => exact h.succeed_load .mixed
  | loadX => exact h.succeed_self
  | transform => exact h.succeed_transform
  | extract => exact h.succeed_extract hn
  | linear => exact h.succeed_shape false (array_in_space_of_check_ok (i := .linear) rfl hc)
  | log => exact h.succeed_shape true (array_in_space_of_check_ok (i := .log) rfl hc)
  | bands => exact h.succeed_bands (array_in_space_of_check_ok (i := .bands) rfl hc)
  | clrerr => exact h.succeed_setStatus id id

theorem Inv.error_completion {s : State} (h : Inv s) (e : ErrCode) : Inv (raiseErr e s) :=
  { h with errSticky := fun _ => rfl }

theorem Inv.completion {i : Instr} {s t : State} (h : Inv s) (hn : 1 ≤ s.cfg.log2n) (he : exec i s = .next t) :
    Inv t := by
  rcases exec_cases he with ⟨-, rfl⟩ | ⟨hc, -, rfl⟩ | ⟨-, -, rfl⟩
  · exact h.error_completion _
  · exact h.succeed_perform hn hc
  · exact h

/-! ## Reset keeps the invariant (70_reset_and_hazards R281) -/

/-- A property of host memory that 16-bit stores below 2^32 keep survives the abandoning of a command. -/
theorem abandonedMem_keeps {P : Memory → Prop} (hP : ∀ m a v, a + 1 < 2 ^ 32 → P m → P (Memory.write16 m a v))
    (i : Instr) {s : State} (h : P s.mem) : P (abandonedMem i s) := by
  unfold abandonedMem
  split
  next hi =>
    rw [Bool.and_eq_true, decide_eq_true_eq] at hi
    have hspace := array_in_space_of_check_ok hi.1 hi.2
    refine foldl_range_keeps (P := P) (fun m k hk hm => ?_) h
    unfold abandonElement
    split
    · exact hP _ _ _ (by omega) hm
    · exact hm
  next => exact h

theorem memAfterReset_keeps {P : Memory → Prop} (hP : ∀ m a v, a + 1 < 2 ^ 32 → P m → P (Memory.write16 m a v))
    {s : State} (h : P s.mem) : P (memAfterReset s) := by
  unfold memAfterReset
  split
  · exact h
  · split
    · exact abandonedMem_keeps hP _ h
    · exact h

theorem Inv.after_reset {s : State} (h : Inv s) : Inv (resetFsu s) where
  tdLength := List.length_replicate
  specLength := List.length_replicate
  delayLength := List.length_replicate
  tdWritten hv := nomatch hv
  specWritten hv := nomatch hv
  delayBound d hd := by rw [List.eq_of_mem_replicate hd]; exact Nat.zero_le _
  errSticky he := absurd rfl he
  memWf := memAfterReset_keeps (P := fun m => Memory.wf m = true) (fun _ _ _ _ hm => Memory.wf_write16 hm _ _) h.memWf
  memInSpace := memAfterReset_keeps (P := fun m => Memory.inSpace m = true)
    (fun _ _ _ ha hm => Memory.inSpace_write16 hm ha _) h.memInSpace

/-! ## What a move of the host other than a reset keeps -/

/-- What every move of the host but a reset leaves: the configuration, the internal memories, the flags but LASTOP and
OVR, which may be set, and the form of host memory. -/
structure HostKeeps (s t : State) : Prop where
  cfg        : t.cfg = s.cfg
  td         : t.td = s.td
  spec       : t.spec = s.spec
  delay      : t.delay = s.delay
  tblValid   : t.status.tblValid = s.status.tblValid
  tdValid    : t.status.tdValid = s.status.tdValid
  specValid  : t.status.specValid = s.status.specValid
  err        : t.status.err = s.status.err
  errcode    : t.status.errcode = s.status.errcode
  ovr        : s.status.ovr = true → t.status.ovr = true
  memWf      : Memory.wf s.mem = true → Memory.wf t.mem = true
  memInSpace : Memory.inSpace s.mem = true → Memory.inSpace t.mem = true

theorem HostKeeps.refl (s : State) : HostKeeps s s := ⟨rfl, rfl, rfl, rfl, rfl, rfl, rfl, rfl, rfl, id, id, id⟩

theorem regWrite_keeps (s : State) (w : Word) (r : Reg) : HostKeeps s (regWrite s w r) := by
  rcases regWrite_cases s w r with h | h | h | h | ⟨-, h⟩ | ⟨-, h⟩ <;> rw [h]
  iterate 5 exact { HostKeeps.refl s with }
  exact { HostKeeps.refl s with ovr := fun _ => rfl }

theorem hostPoll_keeps (s : State) : HostKeeps s (hostPoll s) := by
  unfold hostPoll
  split <;> exact { HostKeeps.refl s with }

theorem hostTurn_keeps {m : HostMove} {s t : State} (hm : m ≠ .reset) (h : hostTurn m s = .next t) : HostKeeps s t := by
  cases m with
  | read width addr =>
    rw [hostTurn, hostRead] at h
    rcases busAccess_cases h with ⟨-, -, rfl⟩ | ⟨-, -, -, rfl⟩ <;> exact { HostKeeps.refl s with }
  | write width addr value =>
    rw [hostTurn, hostWrite] at h
    rcases busAccess_cases h with ⟨-, -, rfl⟩ | ⟨-, hspace, -, rfl⟩
    · exact regWrite_keeps s value _
    · exact { HostKeeps.refl s with
        memWf := fun hw => Memory.wf_writeLe _ _ _ hw
        memInSpace := fun hi => Memory.inSpace_writeLe _ hi hspace }
  | poll =>
    injection h with h
    exact h ▸ hostPoll_keeps s
  | reset => exact absurd rfl hm

theorem Inv.of_hostKeeps {s t : State} (h : Inv s) (hk : HostKeeps s t) : Inv t where
  tdLength := by rw [hk.td, hk.cfg, h.tdLength]
  specLength := by rw [hk.spec, hk.cfg, h.specLength]
  delayLength := by rw [hk.delay, hk.cfg, h.delayLength]
  tdWritten := by rw [hk.td, hk.tdValid]; exact h.tdWritten
  specWritten := by rw [hk.spec, hk.specValid]; exact h.specWritten
  delayBound := by rw [hk.delay, hk.cfg]; exact h.delayBound
  errSticky := by rw [hk.err, hk.errcode]; exact h.errSticky
  memWf := hk.memWf h.memWf
  memInSpace := hk.memInSpace h.memInSpace

/-! ## Everything a step can be -/

/-- The five kinds of step, each after the move made has left the list of moves to come: a turn of the sequencer while
IDLE, the completion of a command, the completion of a reserved word, a move of the host, and a reset. -/
inductive StepKind (s t : State) : Prop where
  | idle (ts : List Turn) (ht : t = s.setTurns ts)
  | completion (i : Instr) (ts : List Turn) (hc : Completes i s) (he : exec i (s.setTurns ts) = .next t)
  | reserved (k : ReservedKind) (ts : List Turn) (ht : t = raiseErr (reservedCode k) (s.setTurns ts))
  | host (ts : List Turn) (hk : HostKeeps (s.setTurns ts) t)
  | reset (ts : List Turn) (hr : HostMoves .reset s) (ht : t = resetFsu (s.setTurns ts))

theorem stepKind_of_sequencer {s t : State} {ts : List Turn} (hm : SequencerMoves s)
    (h : sequencerTurn (s.setTurns ts) = .next t) : StepKind s t := by
  rcases sequencerTurn_cases h with ⟨-, ht⟩ | ⟨hp, i, hd, he⟩ | ⟨-, k, -, ht⟩
  · exact .idle ts ht
  · exact .completion i ts ⟨hm, hp, hd⟩ he
  · exact .reserved k ts ht

theorem stepKind_of_step {s t : State} (h : step s = .next t) : StepKind s t := by
  rcases (step_cases h).2 with ⟨hts, hseq⟩ | ⟨ts, hts, hseq⟩ | ⟨m, ts, hts, hhost⟩
  · exact stepKind_of_sequencer (ts := s.turns) (.inl hts) hseq
  · exact stepKind_of_sequencer (.inr ⟨ts, hts⟩) hseq
  · by_cases hm : m = .reset
    · subst hm
      injection hhost with hhost
      exact .reset ts ⟨ts, hts⟩ hhost.symm
    · exact .host ts (hostTurn_keeps hm hhost)

/-- Settles O31, by the kind of step: every success, an error completion, a host move and a reset keep the invariant. -/
theorem stepKeepsInvariant : Obligations.StepKeepsInvariant := by
  unfold Obligations.StepKeepsInvariant
  intro s t h hstep
  have hturns (ts : List Turn) : Inv (s.setTurns ts) := { h with }
  have hn : 1 ≤ s.cfg.log2n := one_le_log2n (step_cases hstep).1
  cases stepKind_of_step hstep with
  | idle ts ht => exact ht ▸ hturns ts
  | completion i ts _ he => exact (hturns ts).completion hn he
  | reserved k ts ht => exact ht ▸ (hturns ts).error_completion _
  | host ts hk => exact (hturns ts).of_hostKeeps hk
  | reset ts _ ht => exact ht ▸ (hturns ts).after_reset

/-! ## The register block (10_state R22, R23) -/

/-- The register block ends within the address space, so that the address of a register does not wrap. -/
theorem regBase_add_toNat {c : Config} (h : configWf c = true) {off : Nat} (ho : off < 64) :
    (c.regBase + BitVec.ofNat 32 off).toNat = c.regBase.toNat + off := by
  have halign := regBase_aligned h
  have hlt := c.regBase.isLt
  rw [BitVec.toNat_add, BitVec.toNat_ofNat]
  omega

/-- A 32-bit access at an offset of the block that is a multiple of 4 has its effect on the register there. -/
theorem busAccess_register {s : State} (h : configWf s.cfg = true) {off : Nat} (h4 : off % 4 = 0) (ho : off < 64)
    (onReg : Reg → State) (onMem : State) :
    busAccess s .word (s.cfg.regBase + BitVec.ofNat 32 off).toNat onReg onMem = .next (onReg (regAt off)) := by
  have htouch : touchesRegBlock s.cfg (s.cfg.regBase.toNat + off) (widthBytes .word) = true := by
    simp [touchesRegBlock, widthBytes, ho, Nat.add_assoc]
  have hlegal : legalRegAccess s.cfg .word (s.cfg.regBase.toNat + off) = true := by
    simp [legalRegAccess, h4]
  rw [regBase_add_toNat h ho, busAccess, if_pos htouch, if_pos hlegal, Nat.add_sub_cancel_left]

/-- An access that touches the block in any other form is refused (log 15). -/
theorem busAccess_register_form {s : State} {width : AccessWidth} {a : Nat} (h : configWf s.cfg = true)
    (hlo : s.cfg.regBase.toNat < a + widthBytes width) (hhi : a < s.cfg.regBase.toNat + 64)
    (hform : width ≠ .word ∨ a % 4 ≠ 0) (onReg : Reg → State) (onMem : State) :
    busAccess s width a onReg onMem = .refused .registerAccessForm := by
  have halign := regBase_aligned h
  have htouch : touchesRegBlock s.cfg a (widthBytes width) = true := by
    rw [touchesRegBlock, decide_eq_true hhi, decide_eq_true hlo, Bool.and_true]
  have hlegal : legalRegAccess s.cfg width a = false := by
    rw [Bool.eq_false_iff]
    intro hl
    simp only [legalRegAccess, Bool.and_eq_true, decide_eq_true_eq] at hl
    obtain ⟨⟨hw, hle⟩, hmod⟩ := hl
    rcases hform with hne | hne
    · exact hne hw
    · omega
  rw [busAccess, if_pos htouch, hlegal, if_neg Bool.false_ne_true]

theorem step_of_register_read {s : State} {ts : List Turn} {off : Nat} (h : configWf s.cfg = true)
    (hr : ReadsRegister off ts s) (h4 : off % 4 = 0) (ho : off < 64) :
    step s = .next ((s.setTurns ts).setBusData (regRead s (regAt off))) := by
  have hread (r : Reg) : regRead (s.setTurns ts) r = regRead s r := by cases r <;> rfl
  rw [step_of_host h hr, hostTurn, hostRead, ← hread]
  exact busAccess_register (s := s.setTurns ts) h h4 ho _ _

theorem step_of_register_write {s : State} {ts : List Turn} {off : Nat} {w : Word} (h : configWf s.cfg = true)
    (hw : WritesRegister off w ts s) (h4 : off % 4 = 0) (ho : off < 64) :
    step s = .next (regWrite (s.setTurns ts) w (regAt off)) := by
  rw [step_of_host h hw, hostTurn, hostWrite]
  exact busAccess_register (s := s.setTurns ts) h h4 ho _ _

/-- Settles O11: a register read gives the register at its offset, and the sixteen offsets are the table of R22. -/
theorem registerReadsHaveNoSideEffect : Obligations.RegisterReadsHaveNoSideEffect := by
  unfold Obligations.RegisterReadsHaveNoSideEffect
  intro s ts off v h hr hmem
  suffices hreg : off % 4 = 0 ∧ off < 64 ∧ regRead s (regAt off) = v by
    obtain ⟨h4, ho, rfl⟩ := hreg
    exact step_of_register_read h hr h4 ho
  fin_cases hmem <;> exact ⟨rfl, by decide, rfl⟩

/-- Settles O12: a register write is the effect on the register at its offset. -/
theorem registerWrites : Obligations.RegisterWrites := by
  unfold Obligations.RegisterWrites
  intro s ts off w h hw
  refine ⟨?_, ?_, ?_, ?_⟩
  · rintro rfl; exact step_of_register_write h hw (by decide) (by decide)
  · rintro rfl; exact step_of_register_write h hw (by decide) (by decide)
  · rintro rfl; exact step_of_register_write h hw (by decide) (by decide)
  · intro hmem
    suffices hreg : off % 4 = 0 ∧ off < 64 ∧ regWrite (s.setTurns ts) w (regAt off) = s.setTurns ts by
      obtain ⟨h4, ho, heq⟩ := hreg
      exact (step_of_register_write h hw h4 ho).trans (congrArg _ heq)
    fin_cases hmem <;> exact ⟨rfl, by decide, rfl⟩

/-- Settles O13: such an access touches the block and is not of the one legal form. -/
theorem otherRegisterAccessesRefused : Obligations.OtherRegisterAccessesRefused := by
  unfold Obligations.OtherRegisterAccessesRefused
  intro s width a w h hlo hhi hform
  constructor
  · rintro ⟨ts, hts⟩
    rw [step_of_host h hts, hostTurn, hostRead]
    exact busAccess_register_form (s := s.setTurns ts) h hlo hhi hform _ _
  · rintro ⟨ts, hts⟩
    rw [step_of_host h hts, hostTurn, hostWrite]
    exact busAccess_register_form (s := s.setTurns ts) h hlo hhi hform _ _

/-! ## The words of the block, as numbers -/

/-- The number of a concatenation. -/
theorem toNat_append_eq {m n : Nat} (x : BitVec m) (y : BitVec n) : (x ++ y).toNat = x.toNat * 2 ^ n + y.toNat := by
  rw [BitVec.toNat_append, ← Nat.shiftLeft_add_eq_or_of_lt y.isLt, Nat.shiftLeft_eq]

theorem errCodeBits_toNat (e : ErrCode) : (errCodeBits e).toNat =
    [ErrCode.ok, .badop, .rsvd, .noinit, .nodata, .align, .range, .minmax].idxOf e := by
  cases e <;> decide

theorem busyBit_toNat (s : State) : (busyBit s).toNat = if s.phase = .busy then 1 else 0 := by
  unfold busyBit
  cases s.phase <;> rfl

/-- Settles O14: the number of the concatenation, field by field. -/
theorem statusWordLayout : Obligations.StatusWordLayout := by
  unfold Obligations.StatusWordLayout
  intro s
  simp only [statusWord, toNat_append_eq, BitVec.toNat_ofBool, errCodeBits_toNat, busyBit_toNat, BitVec.toNat_zero]
  omega

/-- Settles O15: the sizes fit their fields, so that no field is cut. -/
theorem configWordLayout : Obligations.ConfigWordLayout := by
  unfold Obligations.ConfigWordLayout
  intro c h
  obtain ⟨hlog, hout, hband⟩ := sizes_of_configWf h
  simp only [config0Word, config1Word, config2Word, toNat_append_eq, BitVec.toNat_ofNat, BitVec.toNat_ofBool,
    Nat.mod_eq_of_lt hlog, Nat.mod_eq_of_lt hout, Nat.mod_eq_of_lt hband]
  omega

/-! ## What a completion leaves alone -/

/-- A completion keeps every field that its perform step keeps, but PHASE, ERR and ERRCODE. -/
theorem exec_keeps {α : Type} (f : State → α) {i : Instr} {s t : State} (he : exec i s = .next t)
    (hraise : f (raiseErr (check i s) s) = f s) (hsucceed : f (succeed (perform i s)) = f s) : f t = f s := by
  rcases exec_cases he with ⟨-, rfl⟩ | ⟨-, -, rfl⟩ | ⟨-, -, rfl⟩
  · exact hraise
  · exact hsucceed
  · rfl

/-- The flags after a perform step, from the flags before it. -/
def performedStatus (st : Status) : Instr → Status
  | .init => { st with tblValid := true }
  | .loadL | .loadR | .loadM => { st with tdValid := true }
  | .extract => { st with specValid := true }
  | .clrerr => { st with err := false, ovr := false }
  | .nop | .loadX | .transform | .linear | .log | .bands => st

theorem perform_status (i : Instr) (s : State) : (perform i s).status = performedStatus s.status i := by
  cases i <;> rfl

theorem performedStatus_lastop (st : Status) (i : Instr) : (performedStatus st i).lastop = st.lastop := by
  cases i <;> rfl

theorem perform_td {i : Instr} (hi : i ∉ [Instr.loadL, .loadR, .loadM, .transform]) (s : State) :
    (perform i s).td = s.td := by
  cases i
  case loadL | loadR | loadM | transform => exact absurd (by decide) hi
  all_goals rfl

theorem perform_spec {i : Instr} (hi : i ≠ .extract) (s : State) : (perform i s).spec = s.spec := by
  cases i
  case extract => exact absurd rfl hi
  all_goals rfl

theorem perform_delay {i : Instr} (hi : i ≠ .bands) (s : State) : (perform i s).delay = s.delay := by
  cases i
  case bands => exact absurd rfl hi
  all_goals rfl

/-- Settles O26: an error completion, a success and the perform step all leave these fields alone. -/
theorem noCommandWritesRegisters : Obligations.NoCommandWritesRegisters := by
  unfold Obligations.NoCommandWritesRegisters
  intro i s t he
  rcases exec_cases he with ⟨-, rfl⟩ | ⟨-, -, rfl⟩ | ⟨-, -, rfl⟩
  · exact ⟨rfl, rfl, rfl, rfl, rfl, rfl, rfl, rfl, rfl, rfl, rfl, rfl⟩
  · simp [perform_frame i s, perform_status, performedStatus_lastop]
  · exact ⟨rfl, rfl, rfl, rfl, rfl, rfl, rfl, rfl, rfl, rfl, rfl, rfl⟩

/-- Settles O27, by the frame of each perform step. -/
theorem internalMemoryFrame : Obligations.InternalMemoryFrame := by
  unfold Obligations.InternalMemoryFrame
  intro i s t he
  exact ⟨fun hi => exec_keeps State.td he rfl (perform_td hi s),
    fun hi => exec_keeps State.spec he rfl (perform_spec hi s),
    fun hi => exec_keeps State.delay he rfl (perform_delay hi s)⟩

/-! ## The checks, as the list of 60_exceptions R251 -/

theorem minVal_toNat (s : State) : (minVal s).toNat = MinVal s := by
  simp [minVal, MinVal, BitVec.extractLsb'_toNat]

theorem maxVal_toNat (s : State) : (maxVal s).toNat = MaxVal s := by
  have := s.curRange.isLt
  rw [maxVal, MaxVal, BitVec.extractLsb'_toNat, Nat.shiftRight_eq_div_pow]
  omega

theorem maxVal_lt_minVal_iff (s : State) : maxVal s < minVal s ↔ MinVal s > MaxVal s := by
  rw [BitVec.lt_def, minVal_toNat, maxVal_toNat]

theorem needsTables_iff (i : Instr) : needsTables i = false ↔ i = .nop ∨ i = .init ∨ i = .clrerr := by
  cases i <;> decide

theorem needsTd_iff (i : Instr) : needsTd i = true ↔ i = .transform ∨ i = .extract := by
  cases i <;> decide

theorem isShaper_iff (i : Instr) : isShaper i = true ↔ i = .linear ∨ i = .log ∨ i = .bands := by
  cases i <;> decide

theorem rangeLen_eq_len (c : Config) (i : Instr) : rangeLen c i = len c i := by
  cases i <;> rfl

/-- A command that names no address passes ALIGN and RANGE: the address itself lies within the address space. -/
theorem checkRange_eq (i : Instr) (s : State) : checkRange i s =
    if (len s.cfg i).isSome = true ∧ s.curAddr.toNat % 2 = 1 then .align
    else if (len s.cfg i).getD 0 + s.curAddr.toNat > 2 ^ 32 then .range
    else .ok := by
  have haddr := s.curAddr.isLt
  rw [checkRange, rangeLen_eq_len]
  cases len s.cfg i with
  | none => simp; omega
  | some n => simp [checkAddr, baseAddr, Nat.add_comm n]

/-- The address checks as two rows of a list of checks that goes on with `rest`. -/
theorem ite_checkRange (i : Instr) (s : State) (rest : ErrCode) :
    (if checkRange i s ≠ .ok then checkRange i s else rest) =
      if (len s.cfg i).isSome = true ∧ s.curAddr.toNat % 2 = 1 then .align
      else if (len s.cfg i).getD 0 + s.curAddr.toNat > 2 ^ 32 then .range
      else rest := by
  rw [checkRange_eq]
  by_cases halign : (len s.cfg i).isSome = true ∧ s.curAddr.toNat % 2 = 1
  · rw [if_pos halign, if_pos halign, if_pos (by decide)]
  · rw [if_neg halign, if_neg halign]
    by_cases hrange : (len s.cfg i).getD 0 + s.curAddr.toNat > 2 ^ 32
    · rw [if_pos hrange, if_pos hrange, if_pos (by decide)]
    · rw [if_neg hrange, if_neg hrange, if_neg (not_not.2 rfl)]

theorem check_eq_checkList (i : Instr) (s : State) : check i s = checkList i s := by
  rw [check, checkList, ite_checkRange]
  simp only [Bool.not_eq_true', Bool.and_eq_true, needsTables_iff, needsTd_iff, isShaper_iff, maxVal_lt_minVal_iff,
    decide_eq_true_eq]

/-! ## The flags through a completion and through a step (10_state R25, R26) -/

/-- A command that is not accessible has a byte in its range that HOSTMEM_OK rejects (20_memory R62). -/
theorem rejected_byte_of_not_accessible {i : Instr} {s : State} (h : accessible i s = false) :
    ∃ k < accessLen s.cfg i, hostmemOk s.cfg (s.curAddr.toNat + k) = false := by
  by_contra hall
  push Not at hall
  exact absurd (accessible_iff.2 fun k hk => Bool.eq_true_of_not_eq_false (hall k hk)) (by simp [h])

/-- Settles O29: an error completion changes ERR and ERRCODE alone, a success the flags of its perform step and ERRCODE,
and a stuck command nothing. -/
theorem flagFrame : Obligations.FlagFrame := by
  unfold Obligations.FlagFrame
  intro i s t he
  rcases exec_cases he with ⟨hc, rfl⟩ | ⟨hc, -, rfl⟩ | ⟨hc, ha, rfl⟩ <;> rw [check_eq_checkList] at hc
  · exact ⟨.inl rfl, .inl rfl, .inl rfl, .inl rfl, .inr (.inl ⟨hc, rfl⟩), .inl ⟨check_eq_checkList i s, rfl⟩⟩
  · simp only [succeed_status, succeed_phase, perform_status, hc]
    cases i <;> simp [performedStatus]
  · exact ⟨.inl rfl, .inl rfl, .inl rfl, .inl rfl, .inl rfl, .inr ⟨hc, rejected_byte_of_not_accessible ha, rfl⟩⟩

/-- Settles O32, by the kind of step. -/
theorem configurationNeverChanges : Obligations.ConfigurationNeverChanges := by
  unfold Obligations.ConfigurationNeverChanges
  intro s t hstep
  cases stepKind_of_step hstep with
  | idle ts ht => rw [ht, State.setTurns_cfg]
  | completion i ts _ he => exact exec_keeps (s := s.setTurns ts) State.cfg he rfl (by simp [perform_frame])
  | reserved k ts ht => rw [ht, raiseErr_cfg, State.setTurns_cfg]
  | host ts hk => exact hk.cfg
  | reset ts _ ht => rw [ht, resetFsu_cfg, State.setTurns_cfg]

/-- Settles O33: of the steps other than a reset only a completion changes a valid flag, as its frame says. -/
theorem validFlagsOnlyByTheirEvents : Obligations.ValidFlagsOnlyByTheirEvents := by
  unfold Obligations.ValidFlagsOnlyByTheirEvents
  intro s t hstep hreset
  cases stepKind_of_step hstep with
  | idle ts ht => subst ht; exact ⟨absurd rfl, absurd rfl, absurd rfl⟩
  | completion i ts hc he =>
    obtain ⟨htbl, htd, hspec, -⟩ := flagFrame i _ t he
    refine ⟨fun hne => ?_, fun hne => ?_, fun hne => ?_⟩
    · obtain ⟨rfl, hv⟩ := htbl.resolve_left hne
      exact ⟨hv, hc⟩
    · obtain ⟨hi, hv⟩ := htd.resolve_left hne
      exact ⟨hv, i, hi, hc⟩
    · obtain ⟨rfl, hv⟩ := hspec.resolve_left hne
      exact ⟨hv, hc⟩
  | reserved k ts ht => subst ht; exact ⟨absurd rfl, absurd rfl, absurd rfl⟩
  | host ts hk => exact ⟨absurd hk.tblValid, absurd hk.tdValid, absurd hk.specValid⟩
  | reset ts hr _ => exact absurd hr hreset

/-- Settles O34: of the steps other than a reset only the completion of CLRERR clears ERR or OVR. -/
theorem stickyFlagsClearedOnlyByClrerrOrReset : Obligations.StickyFlagsClearedOnlyByClrerrOrReset := by
  unfold Obligations.StickyFlagsClearedOnlyByClrerrOrReset
  intro s t hstep hreset hclrerr
  cases stepKind_of_step hstep with
  | idle ts ht => subst ht; exact ⟨id, id⟩
  | completion i ts hc he =>
    have hi : i ≠ .clrerr := by rintro rfl; exact hclrerr hc
    obtain ⟨-, -, -, hovr, herr, -⟩ := flagFrame i _ t he
    constructor
    · rcases herr with heq | ⟨-, hset⟩ | ⟨hclr, -⟩
      · exact heq.trans
      · exact fun _ => hset
      · exact absurd hclr hi
    · rcases hovr with heq | ⟨hclr, -⟩
      · exact heq.trans
      · exact absurd hclr hi
  | reserved k ts ht => subst ht; exact ⟨fun _ => rfl, id⟩
  | host ts hk => exact ⟨hk.err.trans, hk.ovr⟩
  | reset ts hr _ => exact absurd hr hreset

/-! ## What a completion reads -/

/-- Two completions of a command in states on which the checks and the platform's answer agree end alike: both in an
error, both in a success, or both stuck. -/
theorem exec_two_runs {R : State → State → Prop} {i : Instr} {s s' : State} (hcheck : check i s' = check i s)
    (hacc : accessible i s' = accessible i s) (herr : ∀ e, R (raiseErr e s) (raiseErr e s'))
    (hok : check i s = .ok → R (succeed (perform i s)) (succeed (perform i s'))) (hstuck : R s s') :
    ∃ t t', exec i s = .next t ∧ exec i s' = .next t' ∧ R t t' := by
  by_cases hc : check i s = .ok
  · cases ha : accessible i s with
    | true => exact ⟨_, _, exec_of_ok hc ha, exec_of_ok (hcheck.trans hc) (hacc.trans ha), hok hc⟩
    | false => exact ⟨_, _, exec_of_stuck hc ha, exec_of_stuck (hcheck.trans hc) (hacc.trans ha), hstuck⟩
  · exact ⟨_, _, exec_of_err hc, exec_of_err (hcheck ▸ hc), hcheck ▸ herr _⟩

/-- Other values in the operand registers. -/
def State.setArgs (s : State) (a sc r : Word) : State := { s with argAddr := a, argScale := sc, argRange := r }

theorem perform_setArgs (i : Instr) (s : State) (a sc r : Word) :
    perform i (s.setArgs a sc r) = (perform i s).setArgs a sc r := by
  cases i <;> rfl

/-- Settles O36: a completion commutes with a change of the operand registers. -/
theorem completionReadsOnlyTheLatches : Obligations.CompletionReadsOnlyTheLatches := by
  unfold Obligations.CompletionReadsOnlyTheLatches
  intro i s a sc r
  obtain ⟨t, _, ht, ht', rfl⟩ := exec_two_runs (R := fun t t' => t' = t.setArgs a sc r) (i := i) (s := s)
    (s' := s.setArgs a sc r) rfl rfl (fun _ => rfl) (fun _ => congrArg succeed (perform_setArgs i s a sc r)) rfl
  exact ⟨t, ht, ht'⟩

/-- A flag that was 0 and has not changed is not 1. -/
theorem not_set_of_unset {a b : Bool} (hb : b = false) (hab : a = b) : ¬ a = true := by
  rw [hab, hb]
  exact Bool.false_ne_true

/-- With other contents of TD a command that does not read it does the same but for TD, and a LOAD the very same. -/
theorem perform_setTd {i : Instr} (hi : needsTd i = false) {s : State} {td : List (Option Cplx)}
    (hl : s.td.length = s.cfg.n) (hl' : td.length = s.cfg.n) :
    perform i (s.setTd td) = perform i s ∨
    (perform i (s.setTd td) = (perform i s).setTd td ∧ (perform i s).status.tdValid = s.status.tdValid) := by
  have hload (ch : Channel) : performLoad ch (s.setTd td) = performLoad ch s := by
    rw [performLoad, loadTd_setTd ch hl hl']
    rfl
  cases i
  case loadL | loadR | loadM => exact .inl (hload _)
  case transform | extract => cases hi
  all_goals exact .inr ⟨rfl, rfl⟩

/-- Settles O37: with TD_VALID 0 a command that reads TD fails its checks, and a LOAD overwrites all of TD. -/
theorem unwrittenTdIsNeverRead : Obligations.UnwrittenTdIsNeverRead := by
  unfold Obligations.UnwrittenTdIsNeverRead
  intro i s td' hv hl hl'
  refine exec_two_runs (R := fun t t' => { t' with td := t.td } = t ∧ (t.status.tdValid = true → t' = t))
    (s' := s.setTd td') rfl rfl (fun e => ⟨rfl, (absurd · (not_set_of_unset hv rfl))⟩) (fun hc => ?_)
    ⟨rfl, (absurd · (not_set_of_unset hv rfl))⟩
  have hi : needsTd i = false := Bool.eq_false_iff.2 fun hi => not_set_of_unset hv rfl (tdValid_of_check_ok hi hc)
  rcases perform_setTd hi hl hl' with heq | ⟨heq, hflag⟩ <;> rw [heq]
  · exact ⟨rfl, fun _ => rfl⟩
  · exact ⟨rfl, (absurd · (not_set_of_unset hv hflag))⟩

/-- With other contents of SPEC a command that does not read it does the same but for SPEC, EXTRACT the very same. -/
theorem perform_setSpec {i : Instr} (hi : isShaper i = false) {s : State} {sp : List (Option F32)}
    (hn : 1 ≤ s.cfg.log2n) (hl : s.spec.length = s.cfg.n) (hl' : sp.length = s.cfg.n) :
    perform i (s.setSpec sp) = perform i s ∨
    (perform i (s.setSpec sp) = (perform i s).setSpec sp ∧
      (perform i s).status.specValid = s.status.specValid) := by
  cases i
  case extract =>
    refine .inl ?_
    rw [perform, performExtract, performExtract, ← extractPairs_congr hn _ _ hl hl']
    rfl
  case linear | log | bands => cases hi
  all_goals exact .inr ⟨rfl, rfl⟩

/-- Settles O38: with SPEC_VALID 0 a command that reads SPEC fails its checks, and EXTRACT overwrites all of SPEC. -/
theorem unwrittenSpecIsNeverRead : Obligations.UnwrittenSpecIsNeverRead := by
  unfold Obligations.UnwrittenSpecIsNeverRead
  intro i s sp' hv hn hl hl'
  refine exec_two_runs (R := fun t t' => { t' with spec := t.spec } = t ∧ (t.status.specValid = true → t' = t))
    (s' := s.setSpec sp') rfl rfl (fun e => ⟨rfl, (absurd · (not_set_of_unset hv rfl))⟩) (fun hc => ?_)
    ⟨rfl, (absurd · (not_set_of_unset hv rfl))⟩
  have hi : isShaper i = false :=
    Bool.eq_false_iff.2 fun hi => not_set_of_unset hv rfl (shaper_checks_of_check_ok hi hc).1
  rcases perform_setSpec hi hn hl hl' with heq | ⟨heq, hflag⟩ <;> rw [heq]
  · exact ⟨rfl, fun _ => rfl⟩
  · exact ⟨rfl, (absurd · (not_set_of_unset hv hflag))⟩

end Sys2Proof.Machine
end

section
/-! PROOFS. The statements on 20_memory: a command stuck on a byte that the platform does not admit (R62), and the bytes
of host memory that each command may store to (R60, R65). -/

namespace Sys2Proof.Machine

open Sys2Proof.Claims

/-! ## A stuck command (20_memory R62; 60_exceptions R261) -/

theorem stuck_iff {s : State} : stuck s = true ↔
    s.phase = .busy ∧ ∃ i, decode s.curCmd = .cmd i ∧ check i s = .ok ∧ accessible i s = false := by
  unfold stuck
  cases s.phase <;> cases decode s.curCmd <;> simp

theorem sequencerTurn_of_stuck {s : State} (h : stuck s = true) : sequencerTurn s = .next s := by
  obtain ⟨hp, i, hd, hc, ha⟩ := stuck_iff.1 h
  rw [sequencerTurn, hp, hd]
  exact exec_of_stuck hc ha

/-- The states differ at most in what the command in flight neither owns nor is checked on: OVR, the operand registers,
host memory, the moves to come and the value of the last host read. -/
def AgreeInFlight (s t : State) : Prop :=
  ∃ ovr a sc r m ts d, t =
    { s with
      status := { s.status with ovr := ovr }, argAddr := a, argScale := sc, argRange := r, mem := m, turns := ts
      busData := d }

theorem AgreeInFlight.setTurns (s : State) (ts : List Turn) : AgreeInFlight s (s.setTurns ts) :=
  ⟨_, _, _, _, _, _, _, rfl⟩

theorem AgreeInFlight.of_setTurns {s t : State} {ts : List Turn} (h : AgreeInFlight (s.setTurns ts) t) :
    AgreeInFlight s t := by
  obtain ⟨_, _, _, _, _, _, _, rfl⟩ := h
  exact ⟨_, _, _, _, _, _, _, rfl⟩

theorem AgreeInFlight.stuck_eq {s t : State} (h : AgreeInFlight s t) : stuck t = stuck s := by
  obtain ⟨_, _, _, _, _, _, _, rfl⟩ := h
  rfl

/-- While BUSY a register write never issues: it changes an operand register or sets OVR (40_control R102). -/
theorem regWrite_agreeInFlight {s : State} (hp : s.phase = .busy) (w : Word) (r : Reg) :
    AgreeInFlight s (regWrite s w r) := by
  rcases regWrite_cases s w r with h | h | h | h | ⟨hidle, -⟩ | ⟨-, h⟩
  iterate 4
    · rw [h]
      exact ⟨_, _, _, _, _, _, _, rfl⟩
  · exact absurd (hp.symm.trans hidle) (by decide)
  · rw [h]
    exact ⟨_, _, _, _, _, _, _, rfl⟩

theorem hostPoll_agreeInFlight (s : State) : AgreeInFlight s (hostPoll s) := by
  unfold hostPoll
  split <;> exact ⟨_, _, _, _, _, _, _, rfl⟩

/-- While BUSY no host move but a reset reaches the command in flight. -/
theorem hostTurn_agreeInFlight {m : HostMove} {s t : State} (hp : s.phase = .busy) (hm : m ≠ .reset)
    (h : hostTurn m s = .next t) : AgreeInFlight s t := by
  cases m with
  | read width addr =>
    rw [hostTurn, hostRead] at h
    rcases busAccess_cases h with ⟨-, -, rfl⟩ | ⟨-, -, -, rfl⟩ <;> exact ⟨_, _, _, _, _, _, _, rfl⟩
  | write width addr value =>
    rw [hostTurn, hostWrite] at h
    rcases busAccess_cases h with ⟨-, -, rfl⟩ | ⟨-, -, -, rfl⟩
    · exact regWrite_agreeInFlight hp value _
    · exact ⟨_, _, _, _, _, _, _, rfl⟩
  | poll =>
    injection h with h
    exact h ▸ hostPoll_agreeInFlight s
  | reset => exact absurd rfl hm

/-- The sequencer's turn leaves a stuck machine as it is (log 10), and the host cannot reach the command but by a reset. -/
theorem step_of_stuck {s t : State} (hs : stuck s = true) (h : step s = .next t) (hr : ¬ HostMoves .reset s) :
    AgreeInFlight s t := by
  obtain ⟨hp, -⟩ := stuck_iff.1 hs
  have hseq (ts : List Turn) (ht : sequencerTurn (s.setTurns ts) = .next t) : AgreeInFlight s t := by
    rw [sequencerTurn_of_stuck ((AgreeInFlight.setTurns s ts).stuck_eq.trans hs)] at ht
    injection ht with ht
    exact ht ▸ .setTurns s ts
  rcases (step_cases h).2 with ⟨-, ht⟩ | ⟨ts, -, ht⟩ | ⟨m, ts, hts, ht⟩
  · exact hseq s.turns ht
  · exact hseq ts ht
  · have hm : m ≠ .reset := by rintro rfl; exact hr ⟨ts, hts⟩
    exact (hostTurn_agreeInFlight (s := s.setTurns ts) hp hm ht).of_setTurns

/-- Settles O18: a step of a stuck machine changes nothing that the command in flight owns or is checked on. -/
theorem stuckUntilReset : Obligations.StuckUntilReset := by
  unfold Obligations.StuckUntilReset
  intro s t hs hstep hr
  have hagree := step_of_stuck hs hstep hr
  have ht : stuck t = true := hagree.stuck_eq.trans hs
  obtain ⟨hp, -⟩ := stuck_iff.1 ht
  obtain ⟨_, _, _, _, _, _, _, rfl⟩ := hagree
  exact ⟨ht, hp, rfl, rfl, rfl, rfl, rfl, rfl, rfl, rfl⟩

/-! ## The bytes a command may store to (20_memory R60, R65) -/

/-- Only a shaping command stores to host memory. -/
theorem perform_mem {i : Instr} (hi : i ∉ [Instr.linear, .log, .bands]) (s : State) : (perform i s).mem = s.mem := by
  cases i
  case linear | log | bands => exact absurd (by decide) hi
  all_goals rfl

/-- Settles O28: an error completion stores nothing, and a success only where its perform step does. -/
theorem hostMemoryFrame : Obligations.HostMemoryFrame := by
  unfold Obligations.HostMemoryFrame
  intro i s t he a
  refine ⟨?_, ?_, fun hi => ?_⟩
  · rintro (rfl | rfl) ha
    · exact exec_keeps (Memory.read ·.mem a) he rfl (read_shapeMem_outside false s ha)
    · exact exec_keeps (Memory.read ·.mem a) he rfl (read_shapeMem_outside true s ha)
  · rintro rfl ha
    exact exec_keeps (Memory.read ·.mem a) he rfl (read_bandLoop_outside s ha)
  · rw [exec_keeps State.mem he rfl (perform_mem hi s)]

end Sys2Proof.Machine
end

section
/-! PROOFS. The statements on 30_encoding: the fields of a command word (R80, R81), the decoder and the encoder (R83 to
R88), the completion of a reserved word (R84 to R86), and the host's accesses to host memory and `WAIT` (R90, R91). -/

namespace Sys2Proof.Machine

open Sys2Proof.Claims

/-! ## The fields of a command word (30_encoding R80, R81) -/

theorem fieldsOf_op_toNat (w : Word) : (fieldsOf w).op.toNat = w.toNat % 16 := by
  simp [fieldsOf]

theorem fieldsOf_ch_toNat (w : Word) : (fieldsOf w).ch.toNat = w.toNat / 16 % 4 := by
  simp [fieldsOf, Nat.shiftRight_eq_div_pow]

theorem fieldsOf_rsv_toNat (w : Word) : (fieldsOf w).rsv.toNat = w.toNat / 64 := by
  have hlt := w.isLt
  rw [fieldsOf, BitVec.extractLsb'_toNat, Nat.shiftRight_eq_div_pow]
  omega

theorem wordOf_toNat (f : CmdFields) : (wordOf f).toNat = f.rsv.toNat * 64 + f.ch.toNat * 16 + f.op.toNat := by
  rw [wordOf, toNat_append_eq, toNat_append_eq]
  omega

theorem wordOf_fieldsOf (w : Word) : wordOf (fieldsOf w) = w := by
  apply BitVec.eq_of_toNat_eq
  rw [wordOf_toNat, fieldsOf_op_toNat, fieldsOf_ch_toNat, fieldsOf_rsv_toNat]
  omega

theorem cmdFields_ext_toNat {f g : CmdFields} (hop : f.op.toNat = g.op.toNat) (hch : f.ch.toNat = g.ch.toNat)
    (hrsv : f.rsv.toNat = g.rsv.toNat) : f = g := by
  obtain ⟨op, ch, rsv⟩ := f
  obtain rfl := BitVec.eq_of_toNat_eq hop
  obtain rfl := BitVec.eq_of_toNat_eq hch
  obtain rfl := BitVec.eq_of_toNat_eq hrsv
  rfl

theorem fieldsOf_wordOf (f : CmdFields) : fieldsOf (wordOf f) = f := by
  have hop := f.op.isLt
  have hch := f.ch.isLt
  apply cmdFields_ext_toNat
  · rw [fieldsOf_op_toNat, wordOf_toNat]
    omega
  · rw [fieldsOf_ch_toNat, wordOf_toNat]
    omega
  · rw [fieldsOf_rsv_toNat, wordOf_toNat]
    omega

/-- Settles O4: the number of a word is the sum of its fields at their places. -/
theorem fieldsAndWordRoundTrip : Obligations.FieldsAndWordRoundTrip := by
  unfold Obligations.FieldsAndWordRoundTrip
  exact ⟨wordOf_fieldsOf, fieldsOf_wordOf⟩

theorem fieldsOf_encode (i : Instr) : fieldsOf (encode i) = ⟨opcodeOf i, channelOf i, 0⟩ := fieldsOf_wordOf _

/-! ## The three checks of the decoder, as numbers (30_encoding R84 to R86) -/

theorem opValid_fieldsOf (w : Word) : (fieldsOf w).opValid = true ↔ w.toNat % 16 < 9 := by
  rw [CmdFields.opValid, decide_eq_true_iff, fieldsOf_op_toNat]
  omega

theorem rsvZero_fieldsOf (w : Word) : (fieldsOf w).rsvZero = true ↔ w.toNat / 64 = 0 := by
  rw [CmdFields.rsvZero, beq_iff_eq, BitVec.toNat_eq, fieldsOf_rsv_toNat]
  rfl

theorem chValid_fieldsOf (w : Word) :
    (fieldsOf w).chValid = true ↔ w.toNat % 16 = 2 ∨ w.toNat / 16 % 4 = 0 := by
  rw [CmdFields.chValid, Bool.or_eq_true, beq_iff_eq, beq_iff_eq, BitVec.toNat_eq, BitVec.toNat_eq, fieldsOf_op_toNat,
    fieldsOf_ch_toNat]
  rfl

theorem wellFormed_iff (f : CmdFields) :
    f.wellFormed = true ↔ f.opValid = true ∧ f.rsvZero = true ∧ f.chValid = true := by
  simp [CmdFields.wellFormed, and_assoc]

/-! ## The three classes of words (30_encoding R88) -/

theorem decode_of_reserved_opcode {w : Word} (h : ¬ (fieldsOf w).opValid = true) : decode w = .reserved .badop := by
  simp [decode, h]

theorem decode_of_reserved_field {w : Word} (ho : (fieldsOf w).opValid = true)
    (h : ¬ (fieldsOf w).rsvZero = true ∨ ¬ (fieldsOf w).chValid = true) : decode w = .reserved .rsvd := by
  rcases h with h | h <;> simp [decode, ho, h]

/-- The four words of LOAD, one per channel selector (30_encoding R82). -/
theorem exists_load_of_channel : ∀ ch : BitVec 2, ∃ i ∈ [Instr.loadL, .loadR, .loadM, .loadX],
    opcodeOf i = 2 ∧ channelOf i = ch := by decide

/-- The commands with CH = 0, one per opcode (30_encoding R83). -/
theorem exists_command_of_opcode : ∀ op : BitVec 4, op.toNat ≤ 8 →
    ∃ i ∈ [Instr.nop, .init, .loadL, .transform, .extract, .linear, .log, .bands, .clrerr],
      opcodeOf i = op ∧ channelOf i = 0 := by decide

/-- The well-formed fields are those of the twelve commands. -/
theorem exists_command_of_wellFormed {f : CmdFields} (h : f.wellFormed = true) :
    ∃ i, f = ⟨opcodeOf i, channelOf i, 0⟩ := by
  obtain ⟨op, ch, rsv⟩ := f
  simp only [CmdFields.wellFormed, CmdFields.opValid, CmdFields.rsvZero, CmdFields.chValid, Bool.and_eq_true,
    Bool.or_eq_true, decide_eq_true_eq, beq_iff_eq] at h
  obtain ⟨⟨hop, rfl⟩, rfl | rfl⟩ := h
  · obtain ⟨i, -, ho, rfl⟩ := exists_load_of_channel ch
    exact ⟨i, by rw [ho]⟩
  · obtain ⟨i, -, rfl, hc⟩ := exists_command_of_opcode op hop
    exact ⟨i, by rw [hc]⟩

theorem exists_encode_of_wellFormed {w : Word} (h : (fieldsOf w).wellFormed = true) : ∃ i, w = encode i := by
  obtain ⟨i, hi⟩ := exists_command_of_wellFormed h
  exact ⟨i, (wordOf_fieldsOf w).symm.trans (congrArg wordOf hi)⟩

/-- A word is a reserved opcode, a reserved-field word or the word of a command. -/
theorem word_cases (w : Word) :
    decode w = .reserved .badop ∨ decode w = .reserved .rsvd ∨ ∃ i, w = encode i := by
  by_cases ho : (fieldsOf w).opValid = true
  · by_cases hf : (fieldsOf w).rsvZero = true ∧ (fieldsOf w).chValid = true
    · exact .inr (.inr (exists_encode_of_wellFormed ((wellFormed_iff _).2 ⟨ho, hf⟩)))
    · exact .inr (.inl (decode_of_reserved_field ho (not_and_or.1 hf)))
  · exact .inl (decode_of_reserved_opcode ho)

theorem decode_encode (i : Instr) : decode (encode i) = .cmd i := by
  cases i <;> decide

/-- Settles O3: a word that decodes to a command is not reserved, so it is the word of a command, which decodes back. -/
theorem decodeEncodeAgree : Obligations.DecodeEncodeAgree := by
  unfold Obligations.DecodeEncodeAgree
  intro i w
  constructor
  · intro h
    rcases word_cases w with hr | hr | ⟨j, rfl⟩
    · cases hr.symm.trans h
    · cases hr.symm.trans h
    · cases (decode_encode j).symm.trans h
      rfl
  · rintro rfl
    exact decode_encode i

theorem decode_badop {w : Word} (h : 9 ≤ w.toNat % 16) : decode w = .reserved .badop :=
  decode_of_reserved_opcode fun ho => absurd ((opValid_fieldsOf w).1 ho) (by omega)

theorem decode_rsvd {w : Word} (ho : w.toNat % 16 < 9)
    (h : w.toNat / 64 ≠ 0 ∨ (w.toNat % 16 ≠ 2 ∧ w.toNat / 16 ≠ 0)) : decode w = .reserved .rsvd := by
  refine decode_of_reserved_field ((opValid_fieldsOf w).2 ho) ?_
  rw [rsvZero_fieldsOf, chValid_fieldsOf]
  omega

/-- Settles O2: the reserved words by the checks of the decoder, the others by the fields of the command's word. -/
theorem decoderPartitionsAllWords : Obligations.DecoderPartitionsAllWords := by
  unfold Obligations.DecoderPartitionsAllWords
  intro w
  refine ⟨decode_badop, fun ho hr => decode_rsvd ho (.inl hr), fun ho _ hop hch => decode_rsvd ho (.inr ⟨hop, hch⟩),
    fun ho hr hc => ?_⟩
  have hwf : (fieldsOf w).wellFormed = true := by
    rw [wellFormed_iff, opValid_fieldsOf, rsvZero_fieldsOf, chValid_fieldsOf]
    omega
  have hop := fieldsOf_op_toNat w
  have hch := fieldsOf_ch_toNat w
  obtain ⟨i, rfl⟩ := exists_encode_of_wellFormed hwf
  rw [fieldsOf_encode] at hop hch
  exact ⟨i, decode_encode i, hop, hch.trans (by omega)⟩

/-- Settles O1: each of the words is, bit by bit, what the encoder gives the command. -/
theorem writtenOutWordsDecode : Obligations.WrittenOutWordsDecode := by
  unfold Obligations.WrittenOutWordsDecode
  refine ⟨?_, ?_, ?_, ?_, ?_, ?_, ?_, ?_, ?_, ?_, ?_, ?_⟩
  all_goals exact (decodeEncodeAgree _ _).2 (by decide)

/-! ## Reserved words in flight (30_encoding R84 to R86) -/

/-- The sequencer completes a reserved word in flight with its code. -/
theorem step_of_reserved {s : State} {k : ReservedKind} (hw : configWf s.cfg = true) (hm : SequencerMoves s)
    (hp : s.phase = .busy) (hd : decode s.curCmd = .reserved k) :
    step s = .next (raiseErr (reservedCode k) (s.setTurns s.turns.tail)) := by
  rw [step_of_sequencer hw hm, sequencerTurn, State.setTurns_phase, hp, State.setTurns_curCmd, hd]

/-- Settles O10: both kinds of reserved word decode as such and complete with their code. -/
theorem reservedWordsCompleteWithTheirCode : Obligations.ReservedWordsCompleteWithTheirCode := by
  unfold Obligations.ReservedWordsCompleteWithTheirCode
  intro s hw hm hp
  constructor
  · intro hop
    exact step_of_reserved hw hm hp (decode_badop hop)
  · intro hop hfield
    exact step_of_reserved hw hm hp (decode_rsvd hop (by omega))

/-! ## Host accesses to host memory (30_encoding R90; 20_memory R63) -/

theorem touchesRegBlock_eq_false {s : State} {a n : Nat} (h : InHostMemory a n s) :
    touchesRegBlock s.cfg a n = false := by
  obtain ⟨-, h⟩ := h
  rw [touchesRegBlock, Bool.and_eq_false_iff, decide_eq_false_iff_not, decide_eq_false_iff_not]
  omega

theorem inFlight_iff {s : State} {a : Nat} : inFlight s a = true ↔
    s.phase = .busy ∧ ∃ i, decode s.curCmd = .cmd i ∧ baseAddr s ≤ a ∧ a < baseAddr s + accessLen s.cfg i := by
  unfold inFlight
  cases s.phase <;> cases decode s.curCmd <;> simp

theorem touchesInFlight_eq_false {s : State} {a n : Nat} (h : ClearOfRange a n s) : touchesInFlight s a n = false := by
  rw [touchesInFlight, List.any_eq_false]
  intro k hk hf
  obtain ⟨hp, i, hd, hlo, hhi⟩ := inFlight_iff.1 hf
  have hclear : a + k < baseAddr s ∨ baseAddr s + accessLen s.cfg i ≤ a + k := h i hp hd k (List.mem_range.1 hk)
  omega

/-- A host access off the register block and off the range in flight has its effect on host memory. -/
theorem busAccess_of_clear {s : State} {width : AccessWidth} {a : Nat} (hm : InHostMemory a (widthBytes width) s)
    (hc : ClearOfRange a (widthBytes width) s) (onReg : Reg → State) (onMem : State) :
    busAccess s width a onReg onMem = .next onMem :=
  busAccess_of_memory onReg onMem (touchesRegBlock_eq_false hm) hm.1 (touchesInFlight_eq_false hc)

theorem step_of_memory_write {s : State} {ts : List Turn} {width : AccessWidth} {a v : Word}
    (hw : configWf s.cfg = true) (hm : InHostMemory a.toNat (widthBytes width) s)
    (hc : ClearOfRange a.toNat (widthBytes width) s) (h : s.turns = .host (.write width a v) :: ts) :
    step s = .next ((s.setTurns ts).setMem (Memory.writeLe (widthBytes width) a.toNat v.toNat s.mem)) := by
  rw [step_of_host hw h, hostTurn, hostWrite]
  exact busAccess_of_clear (s := s.setTurns ts) hm hc _ _

theorem step_of_memory_read {s : State} {ts : List Turn} {width : AccessWidth} {a : Word}
    (hw : configWf s.cfg = true) (hm : InHostMemory a.toNat (widthBytes width) s)
    (hc : ClearOfRange a.toNat (widthBytes width) s) (h : s.turns = .host (.read width a) :: ts) :
    step s = .next
      ((s.setTurns ts).setBusData (BitVec.ofNat 32 (Memory.readLe s.mem (widthBytes width) a.toNat))) := by
  rw [step_of_host hw h, hostTurn, hostRead]
  exact busAccess_of_clear (s := s.setTurns ts) hm hc _ _

/-- Byte `k` of a word, as a number. -/
theorem extractLsb'_byte_toNat (w : Word) (k : Nat) :
    (w.extractLsb' (8 * k) 8).toNat = w.toNat / 256 ^ k % 256 := by
  rw [BitVec.extractLsb'_toNat, Nat.shiftRight_eq_div_pow, Nat.pow_mul]

/-- A host read hands over its value whole. -/
theorem readLe_toNat (m : Memory) (width : AccessWidth) (a : Nat) :
    (BitVec.ofNat 32 (Memory.readLe m (widthBytes width) a)).toNat = Memory.readLe m (widthBytes width) a := by
  have hfits : 8 * widthBytes width ≤ 32 := by cases width <;> decide
  rw [BitVec.toNat_ofNat]
  exact Nat.mod_eq_of_lt ((Memory.readLe_lt m _ a).trans_le (Nat.pow_le_pow_right (by decide) hfits))

/-! ## `WAIT` (30_encoding R91; log 21) -/

theorem step_of_poll_idle {s : State} {ts : List Turn} (hw : configWf s.cfg = true)
    (h : s.turns = .host .poll :: ts) (hp : s.phase = .idle) :
    step s = .next ((s.setTurns ts).setBusData (statusWord s)) := by
  rw [step_of_host hw h, hostTurn, hostPoll, State.setTurns_phase, hp]
  rfl

theorem step_of_poll_busy {s : State} {ts : List Turn} (hw : configWf s.cfg = true)
    (h : s.turns = .host .poll :: ts) (hp : s.phase = .busy) :
    step s = .next ((s.setTurns (.sequencer :: .host .poll :: ts)).setBusData (statusWord s)) := by
  rw [step_of_host hw h, hostTurn, hostPoll, State.setTurns_phase, hp]
  rfl

/-- A command in flight that is not stuck completes at the sequencer's turn, and a reserved word always does. -/
theorem sequencerTurn_of_not_stuck {s : State} (hp : s.phase = .busy) (hs : stuck s = false) :
    ∃ t, sequencerTurn s = .next t ∧ t.phase = .idle ∧ t.turns = s.turns ∧ t.cfg = s.cfg := by
  rw [sequencerTurn, hp]
  cases hd : decode s.curCmd with
  | reserved k => exact ⟨_, rfl, rfl, rfl, rfl⟩
  | cmd i =>
    by_cases hc : check i s = .ok
    · have ha : accessible i s = true := by
        by_contra ha
        exact absurd (stuck_iff.2 ⟨hp, i, hd, hc, by simpa using ha⟩) (by simp [hs])
      obtain ⟨-, -, -, -, -, -, -, -, hcfg, hturns, -⟩ := perform_frame i s
      exact ⟨_, exec_of_ok hc ha, rfl, hturns, hcfg⟩
    · exact ⟨_, exec_of_err hc, rfl, rfl, rfl⟩

/-- `WAIT` on a command that is not stuck: the sequencer completes it and the next poll reads BUSY = 0. -/
theorem wait_ends {s : State} {ts : List Turn} (hw : configWf s.cfg = true) (hp : s.phase = .busy)
    (hs : stuck s = false) (h : s.turns = .sequencer :: .host .poll :: ts) :
    ∃ u, step s = .next u ∧ u.phase = .idle ∧ step u = .next ((u.setTurns ts).setBusData (statusWord u)) := by
  obtain ⟨u, hu, hidle, hturns, hcfg⟩ := sequencerTurn_of_not_stuck (s := s.setTurns (.host .poll :: ts)) hp hs
  refine ⟨u, ?_, hidle, step_of_poll_idle (hcfg ▸ hw) hturns hidle⟩
  rw [step_of_sequencer hw (.inr ⟨_, h⟩), h]
  exact hu

/-- Settles O60: a write and a read of host memory byte by byte, and the polls of `WAIT` by the phase. -/
theorem hostMemoryMovesAndWait : Obligations.HostMemoryMovesAndWait := by
  unfold Obligations.HostMemoryMovesAndWait
  intro s ts hw
  refine ⟨fun width a v hm hc => ⟨fun h hwf => ?_, fun h => ?_⟩, step_of_poll_idle hw, fun h hp => ?_⟩
  · refine ⟨_, step_of_memory_write hw hm hc h, fun k hk => ?_, fun x hx => Memory.read_writeLe_ne _ _ hx⟩
    apply BitVec.eq_of_toNat_eq
    rw [Memory.read_writeLe _ _ hwf hk, extractLsb'_byte_toNat, BitVec.toNat_ofNat]
  · refine ⟨_, step_of_memory_read hw hm hc h, ?_, fun k hk => ?_⟩
    · rw [readLe_toNat]
      exact Memory.readLe_lt _ _ _
    · apply BitVec.eq_of_toNat_eq
      rw [extractLsb'_byte_toNat, readLe_toNat, Memory.readLe_byte _ _ hk]
  · have hpoll := step_of_poll_busy hw h hp
    refine ⟨hpoll, fun hs => ?_⟩
    obtain ⟨u, hu⟩ := wait_ends
      (s := (s.setTurns (.sequencer :: .host .poll :: ts)).setBusData (statusWord s)) hw hp hs rfl
    exact ⟨_, u, hpoll, hu⟩

end Sys2Proof.Machine
end

section
/-! PROOFS. The statements on 40_control: the issue of a command by the host's CMD write (R100), the completion step of
the sequencer (R101), the overrun (R102), and the commands NOP and CLRERR (R104, R105) with INIT (41_tables R128). -/

namespace Sys2Proof.Machine

open Sys2Proof.Claims

/-! ## The completion step of the sequencer (40_control R101) -/

/-- The sequencer's move with a command in flight is exec of the command. -/
theorem step_of_command {s : State} {i : Instr} (hw : configWf s.cfg = true) (hm : SequencerMoves s)
    (hp : s.phase = .busy) (hd : decode s.curCmd = .cmd i) : step s = exec i (s.setTurns s.turns.tail) := by
  rw [step_of_sequencer hw hm, sequencerTurn, State.setTurns_phase, hp, State.setTurns_curCmd, hd]

theorem setTurns_tail_of_nil {s : State} (h : s.turns = []) : s.setTurns s.turns.tail = s := by
  rw [h, List.tail_nil, ← h]
  rfl

/-- Settles O5: the sequencer has the move in both forms, and only a listed turn is there to be used up. -/
theorem stepRunsTheDecodedCommand : Obligations.StepRunsTheDecodedCommand := by
  unfold Obligations.StepRunsTheDecodedCommand
  intro s i hw hp hd
  constructor
  · intro h
    rw [step_of_command hw (.inl h) hp hd, setTurns_tail_of_nil h]
  · intro ts h
    rw [step_of_command hw (.inr ⟨ts, h⟩) hp hd, h]
    rfl

/-! ## Issue and overrun (40_control R100, R102) -/

/-- LASTOP as issue latches it is the word's number, cut to four bits. -/
theorem issue_eq (w : Word) (s : State) : issue w s =
    { s with
      curCmd := w, curAddr := s.argAddr, curScale := s.argScale, curRange := s.argRange,
      status := { s.status with lastop := BitVec.ofNat 4 w.toNat }, phase := .busy } := by
  have hop : w.extractLsb' 0 4 = BitVec.ofNat 4 w.toNat := by
    rw [BitVec.extractLsb', Nat.shiftRight_zero]
  rw [issue, hop]

theorem writeCmd_of_idle {s : State} (h : s.phase = .idle) (w : Word) : writeCmd w s = issue w s := by
  rw [writeCmd, h]

theorem writeCmd_of_busy {s : State} (h : s.phase = .busy) (w : Word) : writeCmd w s = overrun s := by
  rw [writeCmd, h]

/-- Offset 0x04 of the block is CMD (10_state R22). -/
theorem step_of_cmd_write {s : State} {ts : List Turn} {w : Word} (hw : configWf s.cfg = true)
    (h : WritesRegister 0x04 w ts s) : step s = .next (writeCmd w (s.setTurns ts)) :=
  step_of_register_write hw h (by decide) (by decide)

/-- Settles O8: a CMD write while IDLE is the issue of the word. -/
theorem cmdWriteIssues : Obligations.CmdWriteIssues := by
  unfold Obligations.CmdWriteIssues
  intro s ts w hw h hp
  rw [step_of_cmd_write hw h, writeCmd_of_idle (s := s.setTurns ts) hp, issue_eq]
  rfl

/-- Settles O9: a CMD write while BUSY is the overrun. -/
theorem cmdWriteWhileBusyOverruns : Obligations.CmdWriteWhileBusyOverruns := by
  unfold Obligations.CmdWriteWhileBusyOverruns
  intro s ts w hw h hp
  rw [step_of_cmd_write hw h, writeCmd_of_busy (s := s.setTurns ts) hp]
  rfl

/-! ## A placed command (40_control R100, R101; log 4) -/

/-- The sequencer's turn is put first only where other moves are listed, and is used up in either case. -/
theorem sequencerFirst_spec (l : List Turn) :
    (sequencerFirst l = [] ∨ ∃ ts, sequencerFirst l = .sequencer :: ts) ∧ (sequencerFirst l).tail = l := by
  cases l with
  | nil => exact ⟨.inl rfl, rfl⟩
  | cons t ts => exact ⟨.inr ⟨_, rfl⟩, rfl⟩

theorem step_of_placeCommand {s : State} {w : Word} {i : Instr} (hw : configWf s.cfg = true)
    (hd : decode w = .cmd i) : step (placeCommand w s) = exec i (issue w s) := by
  obtain ⟨hm, htail⟩ := sequencerFirst_spec s.turns
  rw [step_of_command (s := placeCommand w s) hw hm rfl hd, placeCommand, State.setTurns_turns, htail]
  rfl

/-- Settles O6: the sequencer completes the issued word, and the host's moves are left as they were. -/
theorem placedCommandRunsNext : Obligations.PlacedCommandRunsNext := by
  unfold Obligations.PlacedCommandRunsNext
  intro s nbits w i hw hd
  have hop : BitVec.ofNat 4 (BitVec.ofNat 32 w).toNat = BitVec.ofNat 4 w := by
    rw [BitVec.ofNat_toNat, BitVec.setWidth_ofNat_of_le (by decide)]
  rw [State.withFetchWord, step_of_placeCommand hw hd, issue_eq, hop]

/-! ## NOP, INIT and CLRERR (40_control R104, R105; 41_tables R128) -/

/-- A command that reads no table has no check to fail and no byte of host memory to access, so it succeeds. -/
theorem exec_of_no_tables {i : Instr} (hi : needsTables i = false) (s : State) :
    exec i s = .next (succeed (perform i s)) := by
  have hlen : accessLen s.cfg i = 0 := by
    rcases (needsTables_iff i).1 hi with rfl | rfl | rfl <;> rfl
  exact exec_of_ok (check_ok_iff.2 (.inl hi)) (accessible_of_len_zero hlen)

/-- Settles O19: the three commands read no table, and their perform steps set the flags of STATUS they name. -/
theorem nopInitClrerrComplete : Obligations.NopInitClrerrComplete := by
  unfold Obligations.NopInitClrerrComplete
  intro s
  exact ⟨exec_of_no_tables rfl s, exec_of_no_tables rfl s, exec_of_no_tables rfl s⟩

end Sys2Proof.Machine
end

section
/-! PROOFS. The statements on 41_tables: bit reversal (R120, R121), the window and twiddle ROMs (R123, R126) and the
band boundaries (R124, R125). -/

namespace Sys2Proof.Machine

open Sys2Proof.Claims

/-! ## Bit reversal (41_tables R120, R121) -/

/-- Settles O48, by induction on the width: the lowest bit goes to the top, the other bits are those of the half. -/
theorem bitReversalSum : Obligations.BitReversalSum := by
  unfold Obligations.BitReversalSum
  intro l x
  induction l generalizing x with
  | zero => rfl
  | succ l ih =>
    have hlow : (x.testBit 0).toNat = x % 2 := by
      rw [Nat.toNat_testBit, pow_zero, Nat.div_one]
    have hshift (k : Nat) : (x.testBit (k + 1)).toNat * 2 ^ (l + 1 - 1 - (k + 1)) =
        ((x / 2).testBit k).toNat * 2 ^ (l - 1 - k) := by
      rw [Nat.testBit_succ, show l + 1 - 1 - (k + 1) = l - 1 - k by omega]
    rw [List.range_succ_eq_map, List.map_cons, List.sum_cons, List.map_map, bitrev, ih, hlow]
    exact congrArg (_ + List.sum ·) (List.map_congr_left fun k _ => (hshift k).symm)

theorem bitrev_zero (l : Nat) : bitrev l 0 = 0 :=
  Nat.eq_of_testBit_eq fun k => by rw [testBit_bitrev, Nat.zero_testBit, Nat.zero_testBit, Bool.and_false]

theorem bitrev_two_pow_sub_one (l : Nat) : bitrev l (2 ^ l - 1) = 2 ^ l - 1 := by
  refine Nat.eq_of_testBit_eq fun k => ?_
  rw [testBit_bitrev, Nat.testBit_two_pow_sub_one, Nat.testBit_two_pow_sub_one]
  by_cases hk : k < l
  · simp [hk, show l - 1 - k < l by omega]
  · simp [hk]

/-- Settles O49: every index is the reversal of its own reversal, which gives both halves of the bijection. -/
theorem bitReversalIsSelfInverse : Obligations.BitReversalIsSelfInverse := by
  unfold Obligations.BitReversalIsSelfInverse
  exact ⟨fun l x hx => ⟨bitrev_lt l x, bitrev_bitrev hx⟩, fun l => ⟨bitrev_zero l, bitrev_two_pow_sub_one l⟩,
    fun l y hy => ⟨bitrev l y, bitrev_lt l y, bitrev_bitrev hy⟩, fun _ _ _ => bitrev_injOn, by decide⟩

/-! ## The window and twiddle ROMs (41_tables R123, R126) -/

/-- cos(2π - θ) = cos θ, in the units of the ROMs and without error. -/
theorem cosTurn_symm {p q : Nat} (h : p ≤ q) : cosTurn (q - p) q = cosTurn p q := by
  have hback : q - (q - p) = p := Nat.sub_sub_self h
  unfold cosTurn
  rcases Nat.lt_trichotomy (2 * p) q with hp | hp | hp
  · rw [if_neg (by omega), if_pos hp.le, hback]
  · simp only [show q - p = p by omega]
  · rw [if_pos (by omega), if_neg (by omega)]

/-- Settles O50: the two entries round the same number, as their cosines are equal. -/
theorem windowIsSymmetric : Obligations.WindowIsSymmetric := by
  unfold Obligations.WindowIsSymmetric
  intro c i hi
  rw [romWin, romWin, cosTurn_symm (by omega)]

/-- cos 0 = 1, in units of 2^-160: every term of the series after the first is 0. -/
theorem cosTurn_zero {q : Nat} (hq : 0 < q) : cosTurn 0 q = 2 ^ 160 := by
  have hquarter : cosQuarter 0 q = 2 ^ 160 := by
    rw [cosQuarter, Nat.mul_zero, Nat.zero_div]
    decide +kernel
  rw [cosTurn, if_pos (by omega), cosHalf, if_neg (by omega), if_pos (by omega), hquarter]

/-- sin 0 = 0: the cosine of the quarter turn. -/
theorem sinTurn_zero (q : Nat) : sinTurn 0 q = 0 := by
  rw [sinTurn, if_pos (by omega), cosTurn, if_pos (by omega), cosHalf, if_pos (by omega)]

theorem two_le_n {c : Config} (h : configWf c = true) : 2 ≤ c.n := Nat.le_pow (one_le_log2n h)

theorem twiddleDen_pos {c : Config} (h : configWf c = true) : 0 < c.twiddleDen := by
  have := two_le_n h
  rw [Config.twiddleDen]
  split <;> omega

theorem romWin_zero {c : Config} (h : configWf c = true) : romWin c 0 = .ofBits 0x3D9D1F60#32 := by
  have := two_le_n h
  rw [romWin, cosTurn_zero (by omega)]
  decide +kernel

theorem romTw_zero {c : Config} (h : configWf c = true) :
    romTw c 0 = ⟨.ofBits 0x3F800000#32, .ofBits 0x00000000#32⟩ := by
  rw [romTw, cosTurn_zero (twiddleDen_pos h), sinTurn_zero]
  decide +kernel

/-- The legality of a configuration does not speak of TWIDDLE_DEN. -/
theorem configWf_twdenIsN {c : Config} (b : Bool) (h : configWf c = true) : configWf { c with twdenIsN := b } = true := h

/-- Settles O59: the angle of the first entries is 0, and the last window entry is its mirror. -/
theorem firstRomEntries : Obligations.FirstRomEntries := by
  unfold Obligations.FirstRomEntries
  intro c hc
  have hn := two_le_n hc
  have hsymm : romWin c 0 = romWin c (2 * c.n - 1) := windowIsSymmetric c 0 (by omega)
  exact ⟨romWin_zero hc, hsymm ▸ romWin_zero hc, fun b => romTw_zero (configWf_twdenIsN b hc)⟩

/-! ## The ends of the boundary ROM (41_tables R125) -/

/-- A boundary of a whole power is exact: 2^k - 0.5 is half an odd number of at most 24 bits. -/
theorem boundary_of_dvd {k q : Nat} (hq : 0 < q) (hk : k ≤ 15) : ∃ x : Fin 0x7F800000,
    boundary (k * q) q = .fin false x ∧ unitsOf x = (2 ^ (k + 1) - 1) * 2 ^ 148 := by
  have hpow : 2 ^ (k + 1) ≤ 2 ^ 16 := Nat.pow_le_pow_right two_pos (by omega)
  obtain ⟨x, hx, hu⟩ := roundUnits_small false (m := 2 ^ (k + 1) - 1) (e := 148) (by omega) (by omega) two_pos
  refine ⟨x, ?_, hu⟩
  rw [boundary, if_pos (Nat.mul_mod_left k q), Nat.mul_div_cancel k hq, ← hx, Nat.mul_assoc, ← pow_succ]

/-- Settles O51: the ends are the whole powers N^0 and N^1. -/
theorem boundaryEndsAreExact : Obligations.BoundaryEndsAreExact := by
  unfold Obligations.BoundaryEndsAreExact
  intro c hc
  obtain ⟨-, hlog, -, -, hband, -⟩ := configWf_iff.1 hc
  constructor
  · rw [romBnd, boundary, Nat.mul_zero, Nat.zero_mod, if_pos rfl, Nat.zero_div]
    decide +kernel
  · obtain ⟨x, hx, hu⟩ := boundary_of_dvd hband hlog
    refine ⟨x, hx, hu.trans ?_⟩
    rw [Config.n, Nat.pow_succ']

/-! ## The integer root behind a boundary (41_tables R124) -/

/-- The bitwise search keeps the `q`-th root of `x` between `r` and `r + 2^k` and halves the distance with each bit. -/
theorem rootFrom_bounds {q x k r : Nat} (hlo : r ^ q ≤ x) (hhi : x < (r + 2 ^ k) ^ q) :
    rootFrom q x k r ^ q ≤ x ∧ x < (rootFrom q x k r + 1) ^ q := by
  induction k generalizing r with
  | zero => exact ⟨hlo, hhi⟩
  | succ k ih =>
    rw [rootFrom]
    split
    case isTrue h => exact ih h (by rwa [Nat.add_assoc, ← Nat.two_mul, ← Nat.pow_succ'])
    case isFalse h => exact ih hlo (Nat.lt_of_not_le h)

/-- A power of two whose exponent the degree does not divide has no whole root. -/
theorem pow_ne_two_pow {q e r : Nat} (hq0 : q ≠ 0) (hq : ¬ q ∣ e) : r ^ q ≠ 2 ^ e := by
  intro h
  obtain ⟨k, -, rfl⟩ := (Nat.dvd_prime_pow Nat.prime_two).1 (h ▸ dvd_pow_self r hq0)
  rw [← pow_mul] at h
  exact hq ⟨k, (Nat.pow_right_injective le_rfl h).symm.trans (Nat.mul_comm k q)⟩

/-- 2^40·2^(p/q) lies strictly between the number found and the next one where `q` does not divide `p`. -/
theorem pow2Fixed_bounds {p q : Nat} (hq0 : 0 < q) (hp : p ≤ 15 * q) (hq : ¬ q ∣ p) :
    pow2Fixed p q ^ q < 2 ^ (p + 40 * q) ∧ 2 ^ (p + 40 * q) < (pow2Fixed p q + 1) ^ q := by
  have htop : 2 ^ (p + 40 * q) < (0 + 2 ^ 57) ^ q := by
    rw [Nat.zero_add, ← pow_mul]
    exact Nat.pow_lt_pow_right Nat.one_lt_two (by omega)
  obtain ⟨hlo, hhi⟩ := rootFrom_bounds (by rw [Nat.zero_pow hq0]; exact Nat.zero_le _) htop
  have hne : ¬ q ∣ p + 40 * q := by rwa [Nat.dvd_add_left (Nat.dvd_mul_left q 40)]
  exact ⟨lt_of_le_of_ne hlo (pow_ne_two_pow hq0.ne' hne), hhi⟩

/-- The number found has 41 to 55 bits. -/
theorem pow2Fixed_size {p q : Nat} (hq0 : 0 < q) (hp : p ≤ 15 * q) (hq : ¬ q ∣ p) :
    2 ^ 40 ≤ pow2Fixed p q ∧ pow2Fixed p q < 2 ^ 55 := by
  obtain ⟨hlo, hhi⟩ := pow2Fixed_bounds hq0 hp hq
  constructor
  · refine Nat.le_of_lt_succ (lt_of_pow_lt_pow_left₀ q (Nat.zero_le _) (lt_of_le_of_lt ?_ hhi))
    rw [← pow_mul]
    exact Nat.pow_le_pow_right two_pos (Nat.le_add_left _ _)
  · refine lt_of_pow_lt_pow_left₀ q (Nat.zero_le _) (hlo.trans_le ?_)
    rw [← pow_mul]
    exact Nat.pow_le_pow_right two_pos (by omega)

/-! ## The nearest boundary (41_tables R124) -/

/-- 2^(p/q) - 0.5 lies strictly on the side of `x` of every midpoint between `x` and another pattern. -/
def IsNearestBoundary (p q : Nat) (x : Fin 0x7F800000) : Prop :=
  ∀ y : Fin 0x7F800000,
    (x < y → 2 ^ p * (2 ^ 150) ^ q < (unitsOf x + unitsOf y + 2 ^ 149) ^ q) ∧
    (y < x → (unitsOf x + unitsOf y + 2 ^ 149) ^ q < 2 ^ p * (2 ^ 150) ^ q)

/-- A pattern that is the boundary itself is nearest to it. -/
theorem isNearestBoundary_of_exact {k q : Nat} (hq : 0 < q) {x : Fin 0x7F800000}
    (hu : unitsOf x = (2 ^ (k + 1) - 1) * 2 ^ 148) : IsNearestBoundary (k * q) q x := by
  have hpos : 2 ^ (k + 1) = 2 * 2 ^ k ∧ 0 < 2 ^ k := ⟨Nat.pow_succ', Nat.two_pow_pos k⟩
  have hexact : 2 ^ (k * q) * (2 ^ 150) ^ q = (unitsOf x + unitsOf x + 2 ^ 149) ^ q := by
    rw [pow_mul, ← mul_pow, show unitsOf x + unitsOf x + 2 ^ 149 = 2 ^ k * 2 ^ 150 by omega]
  intro y
  rw [hexact]
  exact ⟨fun h => Nat.pow_lt_pow_left (by have := unitsOf_strictMono h; omega) hq.ne',
    fun h => Nat.pow_lt_pow_left (by have := unitsOf_strictMono h; omega) hq.ne'⟩

/-- The units of a pattern of `2^(23+e)` units or more are a multiple of `2^e`. -/
theorem two_pow_dvd_unitsOf {x e : Nat} (h : 2 ^ (23 + e) ≤ unitsOf x) : 2 ^ e ∣ unitsOf x := by
  obtain ⟨s, r, rfl, h0, h1⟩ := pack_of x
  rw [unitsOf_pack h0.le h1] at h ⊢
  have hlt : 2 ^ (23 + e) < 2 ^ (24 + s) := by
    rw [pow_add 2 24 s]
    exact h.trans_lt (Nat.mul_lt_mul_of_pos_right h0 (Nat.two_pow_pos s))
  have hes := (Nat.pow_lt_pow_iff_right Nat.one_lt_two).1 hlt
  exact dvd_mul_of_dvd_right (pow_dvd_pow 2 (by omega)) r

/-- The pattern nearest to `r` and a half units of 2^-40, less 0.5: its midpoints with the patterns about it are whole
numbers of these units, so that they lie at `r` or below, or at `r + 1` or above. -/
theorem midpoints_off_half {r : Nat} (hr : 2 ^ 40 ≤ r) {x : Fin 0x7F800000}
    (hx : WithinMidpoints ((2 * (r - 2 ^ 39) + 1) * 2 ^ 149) (2 ^ 41) x) (y : Fin 0x7F800000) :
    (x < y → (r + 1) * 2 ^ 110 ≤ unitsOf x + unitsOf y + 2 ^ 149) ∧
    (y < x → unitsOf x + unitsOf y + 2 ^ 149 ≤ r * 2 ^ 110) := by
  obtain ⟨w, hw⟩ := exists_pattern (m := 1) (e := 133) (by omega) (by omega)
  obtain ⟨w', hw'⟩ := exists_pattern (m := 1) (e := 134) (by omega) (by omega)
  -- `x` is above 2^133 units, or 2^134 units would be nearer
  have hwx : w < x := by
    by_contra h
    have hxw := unitsOf_strictMono.monotone (not_lt.1 h)
    have hxw' : x < w' := unitsOf_strictMono.lt_iff_lt.1 (by omega)
    have := (hx w').1 hxw'
    omega
  have hdvd {z : Fin 0x7F800000} (h : w ≤ z) : 2 ^ 110 ∣ unitsOf z :=
    two_pow_dvd_unitsOf (by have := unitsOf_strictMono.monotone h; omega)
  obtain ⟨a, ha⟩ := hdvd hwx.le
  constructor
  · intro hy
    obtain ⟨b, hb⟩ := hdvd (hwx.trans hy).le
    have := (hx y).1 hy
    omega
  · -- a pattern too small to be a multiple is below `w`, whose midpoint is greater
    intro hy
    obtain ⟨b, hb⟩ := hdvd (le_max_right y w)
    have hle := unitsOf_strictMono.monotone (le_max_left y w)
    have := (hx (max y w)).2.1 (max_lt hy hwx)
    omega

/-- Where the power lies strictly between two integers of more than 40 bits, in units of 2^-40, the pattern nearest to the
half between them is nearest to the boundary. -/
theorem isNearestBoundary_of_half {p q r : Nat} (hr : 2 ^ 40 ≤ r) (hlo : r ^ q < 2 ^ (p + 40 * q))
    (hhi : 2 ^ (p + 40 * q) < (r + 1) ^ q) {x : Fin 0x7F800000}
    (hx : WithinMidpoints ((2 * (r - 2 ^ 39) + 1) * 2 ^ 149) (2 ^ 41) x) : IsNearestBoundary p q x := by
  have hscale : 2 ^ p * (2 ^ 150) ^ q = 2 ^ (p + 40 * q) * (2 ^ 110) ^ q := by
    rw [← pow_mul, ← pow_mul, ← pow_add, ← pow_add, show p + 150 * q = p + 40 * q + 110 * q by omega]
  have hpos : 0 < (2 ^ 110) ^ q := Nat.pow_pos (Nat.two_pow_pos 110)
  intro y
  obtain ⟨above, below⟩ := midpoints_off_half hr hx y
  rw [hscale]
  constructor
  · intro hy
    calc 2 ^ (p + 40 * q) * (2 ^ 110) ^ q < (r + 1) ^ q * (2 ^ 110) ^ q := Nat.mul_lt_mul_of_pos_right hhi hpos
      _ = ((r + 1) * 2 ^ 110) ^ q := (mul_pow _ _ q).symm
      _ ≤ (unitsOf x + unitsOf y + 2 ^ 149) ^ q := Nat.pow_le_pow_left (above hy) q
  · intro hy
    calc (unitsOf x + unitsOf y + 2 ^ 149) ^ q ≤ (r * 2 ^ 110) ^ q := Nat.pow_le_pow_left (below hy) q
      _ = r ^ q * (2 ^ 110) ^ q := mul_pow _ _ q
      _ < 2 ^ (p + 40 * q) * (2 ^ 110) ^ q := Nat.mul_lt_mul_of_pos_right hlo hpos

/-- Every boundary of a power up to 2^15 is finite and nearest to 2^(p/q) - 0.5. -/
theorem boundary_isNearest {p q : Nat} (hq : 0 < q) (hp : p ≤ 15 * q) :
    ∃ x : Fin 0x7F800000, boundary p q = .fin false x ∧ IsNearestBoundary p q x := by
  by_cases hdvd : q ∣ p
  · obtain ⟨k, rfl⟩ := hdvd
    rw [Nat.mul_comm q k] at hp ⊢
    obtain ⟨x, hx, hu⟩ := boundary_of_dvd hq (Nat.le_of_mul_le_mul_right hp hq)
    exact ⟨x, hx, isNearestBoundary_of_exact hq hu⟩
  · obtain ⟨hlo, hhi⟩ := pow2Fixed_bounds hq hp hdvd
    obtain ⟨hmin, hmax⟩ := pow2Fixed_size hq hp hdvd
    have hd : 0 < 2 ^ 41 := Nat.two_pow_pos 41
    have hn : (2 * (pow2Fixed p q - 2 ^ 39) + 1) * 2 ^ 149 < 2 ^ 252 := by omega
    obtain ⟨x, hx⟩ := roundUnits_eq_fin false hd (lt_overflow hd hn)
    exact ⟨x, (if_neg (mt Nat.dvd_of_mod_eq_zero hdvd)).trans hx,
      isNearestBoundary_of_half hmin hlo hhi (withinMidpoints_of_roundUnits hd hx)⟩

/-- Settles O52: N^(b/BAND_N) is 2^(LOG2N·b/BAND_N), which is whole or irrational. -/
theorem boundaryIsNearest : Obligations.BoundaryIsNearest := by
  unfold Obligations.BoundaryIsNearest
  intro c hc b hb
  obtain ⟨-, hlog, -, -, hband, -⟩ := configWf_iff.1 hc
  rw [Config.n, ← pow_mul]
  exact boundary_isNearest hband (Nat.mul_le_mul hlog hb)

end Sys2Proof.Machine
end

section
/-! PROOFS. The statements on 42_load: the mean of the Mixed channel (R143), the completion of LOAD.L, LOAD.R and LOAD.M
(R140 to R146) and of LOAD.X (R147). -/

namespace Sys2Proof.Machine

open Sys2Proof.Claims

/-! ## The Mixed channel (42_load R143) -/

/-- An integer is its sign and its magnitude, on the scale of the units. -/
theorem signedUnits_natAbs (k : Int) : signedUnits (decide (k < 0)) (k.natAbs * 2 ^ 149) = k * 2 ^ 149 := by
  simp only [signedUnits, decide_eq_true_eq]
  split <;> omega

/-- The binary32 sum of two integers is one rounding of the integer sum, also where that is zero (+0). -/
theorem fadd_i2f {l r : Int} (hl : l.natAbs ≤ 2 ^ 24) (hr : r.natAbs ≤ 2 ^ 24) :
    fadd (i2f l) (i2f r) = i2f (l + r) := by
  obtain ⟨x, hx, hux⟩ := i2f_exact hl
  obtain ⟨y, hy, huy⟩ := i2f_exact hr
  have hsum : signedUnits (decide (l < 0)) (unitsOf x) + signedUnits (decide (r < 0)) (unitsOf y) =
      (l + r) * 2 ^ 149 := by
    rw [hux, huy, signedUnits_natAbs, signedUnits_natAbs, Int.add_mul]
  rw [hx, hy, fadd, faddFinite, hsum]
  by_cases h0 : l + r = 0
  · have hsign : (decide (l < 0) && decide (r < 0)) = false := by
      rw [Bool.and_eq_false_iff, decide_eq_false_iff_not, decide_eq_false_iff_not]
      omega
    rw [h0, Int.zero_mul, if_pos rfl, hsign]
    rfl
  · have hneg : decide ((l + r) * 2 ^ 149 < 0) = decide (l + r < 0) := decide_eq_decide.2 (by omega)
    rw [if_neg (by omega), hneg, Int.natAbs_mul]
    rfl

/-- Halving an integer is exact: its units are halved. -/
theorem fmul_i2f_fHalf {k : Int} (hk : k.natAbs ≤ 2 ^ 24) :
    ∃ x : Fin 0x7F800000, fmul (i2f k) fHalf = .fin (decide (k < 0)) x ∧ unitsOf x = k.natAbs * 2 ^ 148 := by
  obtain ⟨y, hy, huy⟩ := i2f_exact hk
  have hhalf : fHalf = .fin false ⟨0x3F000000, by decide⟩ := by decide
  have huhalf : unitsOf 0x3F000000 = 2 ^ 148 := by decide
  have hprod : unitsOf y * 2 ^ 148 = k.natAbs * 2 ^ 148 * 2 ^ 149 := by rw [huy, Nat.mul_right_comm]
  rw [hy, hhalf, fmul, huhalf, hprod, Bool.bne_false]
  exact roundUnits_small (decide (k < 0)) hk (by decide) (Nat.two_pow_pos 149)

/-- Settles O47: the sum of two samples is an integer of at most 17 bits, so both operations are exact. -/
theorem stereoMeanIsExact : Obligations.StereoMeanIsExact := by
  unfold Obligations.StereoMeanIsExact
  intro l r hl hl' hr hr'
  rw [stereoMean, fadd_i2f (by omega) (by omega)]
  exact fmul_i2f_fHalf (by omega)

/-! ## The checks of the LOADs (42_load R144; 60_exceptions R251) -/

/-- A LOAD, LOAD.X included, is checked on the tables and on the 8·N bytes of the raw block alone. -/
theorem check_load_ok {i : Instr} (hi : i ∈ [Instr.loadL, .loadR, .loadM, .loadX]) {s : State}
    (htbl : s.status.tblValid = true) (haddr : AddrOk (8 * s.cfg.n) s) : check i s = .ok := by
  have hrange : checkAddr s (8 * s.cfg.n) = .ok := checkAddr_ok_iff.2 haddr
  cases i
  case loadL | loadR | loadM | loadX => exact check_ok_iff.2 (.inr ⟨htbl, nofun, nofun, hrange, nofun⟩)
  all_goals exact absurd hi (by decide)

/-- Settles O20: LOAD.X accesses no byte of host memory, so nothing is asked of HOSTMEM_OK. -/
theorem loadXCompletes : Obligations.LoadXCompletes := by
  unfold Obligations.LoadXCompletes
  intro s htbl haddr
  exact exec_of_ok (check_load_ok (by decide) htbl haddr) (accessible_of_len_zero rfl)

/-! ## LOAD.L, LOAD.R and LOAD.M (42_load R140 to R146) -/

/-- The windowed slot is the selected samples, each times its own entry of WIN (42_load R140 to R143). -/
theorem windowed_eq (ch : Channel) (s : State) (i : Nat) : windowed ch s i =
    ⟨fmul (sampleRe ch s i) (romWin s.cfg (2 * i)), fmul (sampleIm ch s i) (romWin s.cfg (2 * i + 1))⟩ := by
  cases ch <;> rfl

/-- LOAD leaves slot `i` at its bit-reversed place (42_load R142). -/
theorem loadTd_bitrev (ch : Channel) {s : State} (hl : s.td.length = s.cfg.n) {i : Nat} (hi : i < s.cfg.n) :
    (loadTd ch s)[bitrev s.cfg.log2n i]? = some (some (windowed ch s i)) := by
  rw [loadTd_getElem? ch hl (bitrev_lt _ i), bitrev_bitrev hi]

theorem loaded_succeed_performLoad (ch : Channel) {s : State} (hl : s.td.length = s.cfg.n) :
    Loaded ch s (succeed (performLoad ch s)) :=
  ⟨⟨rfl, rfl, rfl⟩, rfl, fun i hi => windowed_eq ch s i ▸ loadTd_bitrev ch hl hi⟩

/-- With the raw block admitted, each of the three succeeds (42_load R144 to R146; 20_memory R62). -/
theorem exec_load_of_admitted {i : Instr} (hi : i ∈ [Instr.loadL, .loadR, .loadM]) {s : State}
    (htbl : s.status.tblValid = true) (haddr : AddrOk (8 * s.cfg.n) s) (hadm : Admitted (8 * s.cfg.n) s) :
    exec i s = .next (succeed (perform i s)) := by
  cases i
  case loadL | loadR | loadM =>
    exact exec_of_ok (check_load_ok (by decide) htbl haddr) (accessible_iff.2 hadm)
  all_goals exact absurd hi (by decide)

/-- Settles O21: the three commands succeed, and the load of each channel is what R141 and R142 ask for. -/
theorem loadsComplete : Obligations.LoadsComplete := by
  unfold Obligations.LoadsComplete
  intro s htbl haddr hadm hl
  exact ⟨⟨_, exec_load_of_admitted (by decide) htbl haddr hadm, loaded_succeed_performLoad .left hl⟩,
    ⟨_, exec_load_of_admitted (by decide) htbl haddr hadm, loaded_succeed_performLoad .right hl⟩,
    ⟨_, exec_load_of_admitted (by decide) htbl haddr hadm, loaded_succeed_performLoad .mixed hl⟩⟩

end Sys2Proof.Machine
end

section
/-! PROOFS. The statements on 43_fft: complex arithmetic (R160 to R163; 44_extract R180) and TRANSFORM, whose
butterflies in place are the stages as simultaneous updates (R164 to R168). -/

namespace Sys2Proof.Machine

open Sys2Proof.Claims

/-! ## Complex arithmetic (43_fft R160 to R163; 44_extract R180) -/

theorem faddFinite_comm (a : Bool) (x : Nat) (b : Bool) (y : Nat) : faddFinite a x b y = faddFinite b y a x := by
  simp only [faddFinite, Int.add_comm (signedUnits a _), Bool.and_comm a]

/-- Addition commutes: of two infinities of unlike signs either order gives a NaN. -/
theorem fadd_comm (x y : F32) : fadd x y = fadd y x := by
  cases x <;> cases y
  case inf.inf a b =>
    simp only [fadd, eq_comm (a := a)]
    split
    next hab => rw [hab]
    next => rfl
  case fin.fin a x b y => exact faddFinite_comm a x b y
  all_goals rfl

/-- Multiplication commutes: sign and magnitude of a product do not depend on the order. -/
theorem fmul_comm (x y : F32) : fmul x y = fmul y x := by
  cases x <;> cases y
  case inf.inf a b | inf.fin a b _ | fin.inf a _ b => simp only [fmul, bne_comm (a := a)]
  case fin.fin a x b y => simp only [fmul, bne_comm (a := a), Nat.mul_comm (unitsOf x)]
  all_goals rfl

/-- The four products meet in pairs, and the two of the imaginary part change places in their sum. -/
theorem cmul_comm (w x : Cplx) : cmul w x = cmul x w := by
  simp only [cmul, fmul_comm x.re, fmul_comm x.im, fadd_comm (fmul w.im x.re)]

/-- 43_fft R162's example. -/
theorem cmul_example : cmul (.ofBits 0x3F000000#32 0xBE800000#32) (.ofBits 0x40400000#32 0x40800000#32) =
    .ofBits 0x40200000#32 0x3FA00000#32 := by decide +kernel

/-- 43_fft R163's example. -/
theorem conj_example : conj (.ofBits 0x3F800000#32 0x00000000#32) = .ofBits 0x3F800000#32 0x80000000#32 := by decide

/-- 44_extract R180's example. -/
theorem cmag_example : cmag (.ofBits 0x40400000#32 0xC0800000#32) = .ofBits 0x40A00000#32 := by decide +kernel

/-- Settles O46: the formulas are the definitions; the product commutes because its real operations do. -/
theorem complexProductCommutes : Obligations.ComplexProductCommutes := by
  unfold Obligations.ComplexProductCommutes
  exact ⟨fun _ _ => ⟨rfl, rfl⟩, fun _ _ => rfl, fun _ => ⟨rfl, rfl⟩, fun _ _ => ⟨rfl, rfl⟩, rfl, cmul_comm,
    cmul_example, conj_example, cmag_example⟩

/-! ## The pairs of a stage (43_fft R165) -/

/-- The block of an entry, and its place in the block modulo the half-size. -/
theorem block_of_offset {h b r : Nat} (hr : r < 2 * h) :
    (2 * h * b + r) / (2 * h) = b ∧ (2 * h * b + r) % h = r % h := by
  constructor
  · rw [Nat.mul_add_div (by omega), Nat.div_eq_of_lt hr, Nat.add_zero]
  · rw [Nat.mul_right_comm, Nat.mul_add_mod_self_right]

/-- The two entries of butterfly `m` of block `b`, by what sets them apart from the entries of every other butterfly. -/
theorem mem_pair_iff {h b m x : Nat} (hm : m < h) :
    x / (2 * h) = b ∧ x % h = m ↔ x = 2 * h * b + m ∨ x = 2 * h * b + m + h := by
  constructor
  · rintro ⟨rfl, rfl⟩
    have hx := Nat.div_add_mod x (2 * h)
    have hlt : x % (2 * h) < 2 * h := Nat.mod_lt x (by omega)
    rw [← Nat.mod_mul_left_mod x 2 h]
    rcases Nat.lt_or_ge (x % (2 * h)) h with hlow | hhigh
    · left
      rw [Nat.mod_eq_of_lt hlow, hx]
    · right
      rw [Nat.mod_eq_sub_mod hhigh, Nat.mod_eq_of_lt (by omega)]
      omega
  · rintro (rfl | rfl)
    · obtain ⟨hdiv, hmod⟩ := block_of_offset (b := b) (show m < 2 * h by omega)
      exact ⟨hdiv, hmod.trans (Nat.mod_eq_of_lt hm)⟩
    · obtain ⟨hdiv, hmod⟩ := block_of_offset (b := b) (show m + h < 2 * h by omega)
      rw [Nat.add_assoc]
      exact ⟨hdiv, hmod.trans (by rw [Nat.add_mod_right, Nat.mod_eq_of_lt hm])⟩

theorem halfSize_pos (s : Nat) : 0 < halfSize s := Nat.two_pow_pos _

theorem two_mul_halfSize {s : Nat} (hs : 1 ≤ s) : 2 * halfSize s = 2 ^ s := by
  rw [halfSize, ← pow_succ', Nat.sub_add_cancel hs]

/-- The blocks of a stage fill TD. -/
theorem blockSize_dvd {c : Config} {s : Nat} (hs : 1 ≤ s) (hsn : s ≤ c.log2n) : 2 * halfSize s ∣ c.n := by
  rw [two_mul_halfSize hs]
  exact Nat.pow_dvd_pow 2 hsn

/-- A block ends within TD. -/
theorem block_end_le {c : Config} {s b : Nat} (hb : b < c.n / (2 * halfSize s)) :
    2 * halfSize s * b + 2 * halfSize s ≤ c.n :=
  (Nat.mul_le_mul_left _ hb).trans (Nat.mul_div_le _ _)

/-- In the lower half of its block an entry becomes the first output of its butterfly. -/
theorem stageAtOnce_lower (c : Config) {s : Nat} (hs : 1 ≤ s) (e : Nat → Cplx) (b : Nat) {m : Nat}
    (hm : m < halfSize s) : stageAtOnce c s e (2 * halfSize s * b + m) =
      bflySum (e (2 * halfSize s * b + m)) (e (2 * halfSize s * b + m + halfSize s))
        (romTw c (m * twiddleStride c s)) := by
  have hmod : (2 * halfSize s * b + m) % (2 * halfSize s) = m := by
    rw [Nat.mul_add_mod, Nat.mod_eq_of_lt (by omega)]
  rw [stageAtOnce, ← two_mul_halfSize hs, ← halfSize, hmod, if_pos hm, bflySum, twiddleStride]

/-- In the upper half of its block an entry becomes the second output of its butterfly. -/
theorem stageAtOnce_upper (c : Config) {s : Nat} (hs : 1 ≤ s) (e : Nat → Cplx) (b : Nat) {m : Nat}
    (hm : m < halfSize s) : stageAtOnce c s e (2 * halfSize s * b + m + halfSize s) =
      bflyDiff (e (2 * halfSize s * b + m)) (e (2 * halfSize s * b + m + halfSize s))
        (romTw c (m * twiddleStride c s)) := by
  have hmod : (2 * halfSize s * b + m + halfSize s) % (2 * halfSize s) = m + halfSize s := by
    rw [Nat.add_assoc, Nat.mul_add_mod, Nat.mod_eq_of_lt (by omega)]
  rw [stageAtOnce, ← two_mul_halfSize hs, ← halfSize, hmod, if_neg (by omega), Nat.add_sub_cancel,
    Nat.add_sub_cancel, bflyDiff, twiddleStride]

/-- A stage reads entries of TD only. -/
theorem stageAtOnce_congr {c : Config} {s : Nat} (hs : 1 ≤ s) (hsn : s ≤ c.log2n) {e e' : Nat → Cplx}
    (he : ∀ k < c.n, e k = e' k) {k : Nat} (hk : k < c.n) : stageAtOnce c s e k = stageAtOnce c s e' k := by
  have hm : k % halfSize s < halfSize s := Nat.mod_lt k (halfSize_pos s)
  have hend : 2 * halfSize s * (k / (2 * halfSize s)) + 2 * halfSize s ≤ c.n :=
    block_end_le (Nat.div_lt_div_of_lt_of_dvd (blockSize_dvd hs hsn) hk)
  have hpair := (mem_pair_iff hm).1 ⟨rfl, rfl⟩
  generalize k / (2 * halfSize s) = b, k % halfSize s = m at hm hend hpair
  rcases hpair with rfl | rfl
  · rw [stageAtOnce_lower c hs e b hm, stageAtOnce_lower c hs e' b hm, he _ (by omega), he _ (by omega)]
  · rw [stageAtOnce_upper c hs e b hm, stageAtOnce_upper c hs e' b hm, he _ (by omega), he _ (by omega)]

/-! ## One stage in place (43_fft R166, R168) -/

/-- A property of the number of rounds done that each round carries on holds after a loop over the indices below `n`. -/
theorem foldl_range_induction {α : Type} {P : Nat → α → Prop} {f : α → Nat → α} {n : Nat} {a : α} (h0 : P 0 a)
    (hf : ∀ k < n, ∀ a, P k a → P (k + 1) (f a k)) : P n ((List.range n).foldl f a) := by
  induction n with
  | zero => exact h0
  | succ n ih =>
    rw [List.range_succ, List.foldl_append]
    exact hf n (Nat.lt_succ_self n) _ (ih fun k hk => hf k (by omega))

/-- Entry `x` has had its butterfly of stage `s`, once `b` blocks and `m` butterflies of the next one are done. -/
def StageDone (s b m x : Nat) : Prop :=
  x / (2 * halfSize s) < b ∨ x / (2 * halfSize s) = b ∧ x % halfSize s < m

theorem not_stageDone_zero (s x : Nat) : ¬ StageDone s 0 0 x := by
  simp [StageDone]

theorem stageDone_succ_iff {s b m x : Nat} (hm : m < halfSize s) : StageDone s b (m + 1) x ↔
    StageDone s b m x ∨ x = 2 * halfSize s * b + m ∨ x = 2 * halfSize s * b + m + halfSize s := by
  rw [← mem_pair_iff hm, StageDone, StageDone]
  omega

/-- The entries of butterfly `m` are not done before it. -/
theorem not_stageDone_pair {s b m x : Nat} (hm : m < halfSize s)
    (hx : x = 2 * halfSize s * b + m ∨ x = 2 * halfSize s * b + m + halfSize s) : ¬ StageDone s b m x := by
  rw [← mem_pair_iff hm] at hx
  rw [StageDone]
  omega

/-- After its last butterfly a block is done. -/
theorem stageDone_block_iff {s b x : Nat} : StageDone s b (halfSize s) x ↔ StageDone s (b + 1) 0 x := by
  have hm : x % halfSize s < halfSize s := Nat.mod_lt x (halfSize_pos s)
  rw [StageDone, StageDone]
  omega

/-- The loops of stage `s` on the way from `td`, at `t`: every entry is either done, and then holds its value of the
simultaneous update, or as it was. -/
structure StageProgress (c : Config) (s : Nat) (td : List (Option Cplx)) (b m : Nat) (t : List (Option Cplx)) :
    Prop where
  length : t.length = td.length
  done : ∀ x, StageDone s b m x → tdEntry t x = stageAtOnce c s (tdEntry td) x
  kept : ∀ x, ¬ StageDone s b m x → tdEntry t x = tdEntry td x

theorem StageProgress.start (c : Config) (s : Nat) (td : List (Option Cplx)) : StageProgress c s td 0 0 td where
  length := rfl
  done := fun x hx => absurd hx (not_stageDone_zero s x)
  kept := fun _ _ => rfl

/-- A butterfly reads two entries that no butterfly before it has changed, so it computes from the old ones. -/
theorem StageProgress.after_butterfly {c : Config} {s b m : Nat} {td t : List (Option Cplx)}
    (h : StageProgress c s td b m t) (hs : 1 ≤ s) (hm : m < halfSize s)
    (hend : 2 * halfSize s * b + 2 * halfSize s ≤ td.length) :
    StageProgress c s td b (m + 1) (butterfly t (2 * halfSize s * b + m) (2 * halfSize s * b + m + halfSize s)
      (romTw c (m * twiddleStride c s))) := by
  obtain ⟨hlen, hdone, hkept⟩ := h
  have hold := hkept _ (not_stageDone_pair hm (.inl rfl))
  have hold' := hkept _ (not_stageDone_pair hm (.inr rfl))
  have hentry := tdEntry_butterfly (td := t) (a := 2 * halfSize s * b + m) (b := 2 * halfSize s * b + m + halfSize s)
    (by omega) (by omega) (romTw c (m * twiddleStride c s))
  rw [hold, hold', ← stageAtOnce_lower c hs (tdEntry td) b hm, ← stageAtOnce_upper c hs (tdEntry td) b hm] at hentry
  refine ⟨(butterfly_length _ _ _ _).trans hlen, fun x hx => ?_, fun x hx => ?_⟩
  · rcases (stageDone_succ_iff hm).1 hx with hx | rfl | rfl
    · have hne := mt (not_stageDone_pair (x := x) hm) (not_not.2 hx)
      rw [hentry, if_neg fun h => hne (.inr h.symm), if_neg fun h => hne (.inl h.symm), hdone x hx]
    · rw [hentry, if_neg (by omega), if_pos rfl]
    · rw [hentry, if_pos rfl]
  · obtain ⟨hx, hne⟩ := not_or.1 (mt (stageDone_succ_iff hm).2 hx)
    rw [hentry, if_neg fun h => hne (.inr h.symm), if_neg fun h => hne (.inl h.symm), hkept x hx]

/-- A block in place does the pairs of its own entries. -/
theorem StageProgress.after_fftBlock {c : Config} {s b : Nat} {td t : List (Option Cplx)}
    (h : StageProgress c s td b 0 t) (hs : 1 ≤ s) (hend : 2 * halfSize s * b + 2 * halfSize s ≤ td.length) :
    StageProgress c s td (b + 1) 0 (fftBlock c s (2 * halfSize s * b) t) := by
  have hblock : StageProgress c s td b (halfSize s) (fftBlock c s (2 * halfSize s * b) t) :=
    foldl_range_induction (P := fun m t => StageProgress c s td b m t) h fun m hm t ht => ht.after_butterfly hs hm hend
  exact ⟨hblock.length, fun x hx => hblock.done x (stageDone_block_iff.2 hx),
    fun x hx => hblock.kept x (hx ∘ stageDone_block_iff.1)⟩

/-- A stage of butterflies in place is its simultaneous update (43_fft R166). -/
theorem tdEntry_fftStage {c : Config} {s : Nat} (hs : 1 ≤ s) (hsn : s ≤ c.log2n) {td : List (Option Cplx)}
    (hl : td.length = c.n) {k : Nat} (hk : k < c.n) :
    tdEntry (fftStage c s td) k = stageAtOnce c s (tdEntry td) k := by
  have hstage : StageProgress c s td (c.n / (2 * halfSize s)) 0 (fftStage c s td) :=
    foldl_range_induction (P := fun b t => StageProgress c s td b 0 t) (.start c s td)
      fun b hb t ht => ht.after_fftBlock hs (hl ▸ block_end_le hb)
  exact hstage.done k (.inl (Nat.div_lt_div_of_lt_of_dvd (blockSize_dvd hs hsn) hk))

/-! ## The network and TRANSFORM (43_fft R168) -/

/-- Stage by stage, the loops in place are the simultaneous updates. -/
theorem tdEntry_fftNetwork {c : Config} {td : List (Option Cplx)} (hl : td.length = c.n) {n : Nat} (hn : n ≤ c.log2n) :
    ((List.range n).foldl (fun t s => fftStage c (s + 1) t) td).length = c.n ∧
    ∀ k < c.n, tdEntry ((List.range n).foldl (fun t s => fftStage c (s + 1) t) td) k =
      (List.range n).foldl (fun e s => stageAtOnce c (s + 1) e) (tdEntry td) k := by
  induction n with
  | zero => exact ⟨hl, fun _ _ => rfl⟩
  | succ n ih =>
    obtain ⟨hlen, hentry⟩ := ih (by omega)
    simp only [List.range_succ, List.foldl_append, List.foldl_cons, List.foldl_nil]
    refine ⟨(fftStage_length _ _ _).trans hlen, fun k hk => ?_⟩
    rw [tdEntry_fftStage (by omega) hn hlen hk]
    exact stageAtOnce_congr (by omega) hn hentry hk

/-- TRANSFORM is checked on the two valid flags alone (60_exceptions R251). -/
theorem check_transform_ok {s : State} (htbl : s.status.tblValid = true) (htd : s.status.tdValid = true) :
    check .transform s = .ok :=
  check_ok_iff.2 (.inr ⟨htbl, fun _ => htd, nofun, rfl, nofun⟩)

/-- Settles O22: TRANSFORM succeeds, and every entry it leaves is the network's of simultaneous updates. -/
theorem transformIsStagesAtOnce : Obligations.TransformIsStagesAtOnce := by
  unfold Obligations.TransformIsStagesAtOnce
  intro s htbl htd hl
  exact ⟨_, exec_of_ok (check_transform_ok htbl htd) (accessible_of_len_zero rfl), rfl, rfl,
    (fftNetwork_length _ _).trans hl, (tdEntry_fftNetwork hl le_rfl).2⟩

end Sys2Proof.Machine
end

section
/-! PROOFS. The statement on EXTRACT (44_extract R181 to R183): what the unpacker's loop and the halving of SPEC[0] leave
in every pair of entries. -/

namespace Sys2Proof.Machine

open Sys2Proof.Claims

/-- The halving touches entry 0 alone (44_extract R183). -/
theorem halveDc_getElem? {sp : List (Option F32)} {v : F32} (h : sp[0]? = some (some v)) (k : Nat) :
    (halveDc sp)[k]? = if k = 0 then some (some (fmul v fHalf)) else sp[k]? := by
  obtain ⟨hpos, -⟩ := List.getElem?_eq_some_iff.1 h
  rw [halveDc, specSet_get hpos, specEntry_of_get h]
  exact if_congr eq_comm rfl rfl

/-- The entries of pair `i` after the unpacker's loop and the halving, whatever SPEC held before (44_extract R182,
R183). -/
theorem halveDc_extractPairs_getElem? {c : Config} (sc : F32) (td : List (Option Cplx)) {sp : List (Option F32)}
    (hl : sp.length = c.n) {i : Nat} (hi : i < c.h) :
    (halveDc (extractPairs c sc td sp))[2 * i + 1]? = some (some (amplitude c sc (unpackDiff c td i))) ∧
    (halveDc (extractPairs c sc td sp))[2 * i]? = some (some
      (if i = 0 then fmul (amplitude c sc (unpackSum c td i)) fHalf else amplitude c sc (unpackSum c td i))) := by
  have hfits : 2 * c.h ≤ sp.length := hl ▸ Nat.mul_div_le c.n 2
  have hpairs := (extractPairs_get c sc td hfits).2
  rw [← extractPairs] at hpairs
  have hhalved := halveDc_getElem? (hpairs 0 (by omega)).1
  obtain ⟨hsum, hdiff⟩ := hpairs i hi
  constructor
  · rw [hhalved, if_neg (by omega), hdiff]
  · rw [hhalved, hsum]
    by_cases hi0 : i = 0
    · subst hi0
      rfl
    · rw [if_neg (by omega), if_neg hi0]

/-- Settles O23: EXTRACT is checked on the two valid flags alone (60_exceptions R251), and every pair it leaves is the
loop's, with SPEC[0] halved. That N is even is not needed: the pairs are those below N/2. -/
theorem extractCompletes : Obligations.ExtractCompletes := by
  unfold Obligations.ExtractCompletes
  intro s htbl htd _ hl
  have hcheck : check .extract s = .ok := check_ok_iff.2 (.inr ⟨htbl, fun _ => htd, nofun, rfl, nofun⟩)
  exact ⟨_, exec_of_ok hcheck (accessible_of_len_zero rfl), ⟨rfl, rfl, rfl⟩, rfl,
    fun i hi => halveDc_extractPairs_getElem? (scaleFactor s) s.td hl hi⟩

end Sys2Proof.Machine
end

section
/-! PROOFS. The statements on 45_binners: CLAMPCVT case by case (00_scope R16), the completion of LINEAR and LOG (R200
to R206), the range of every output word (R207; 46_bands R229), and the zero spectrum (R208). -/

namespace Sys2Proof.Machine

open Sys2Proof.Claims

/-! ## CLAMPCVT (00_scope R16) -/

/-- The order of the signed units is that of the signed patterns: both zeros are 0. -/
theorem signedUnits_unitsOf_lt_iff (a b : Bool) (x y : Nat) :
    signedUnits a (unitsOf x) < signedUnits b (unitsOf y) ↔ signedUnits a x < signedUnits b y := by
  have hxy : unitsOf x < unitsOf y ↔ x < y := unitsOf_strictMono.lt_iff_lt
  have hyx : unitsOf y < unitsOf x ↔ y < x := unitsOf_strictMono.lt_iff_lt
  have hx : unitsOf x = 0 ↔ x = 0 := unitsOf_eq_zero
  have hy : unitsOf y = 0 ↔ y = 0 := unitsOf_eq_zero
  cases a <;> cases b <;> simp only [signedUnits, if_true, Bool.false_eq_true, if_false] <;> omega

/-- The place of an integer up to 2^24 in the order, by its units. -/
theorem orderKey_i2f {k : Nat} (hk : k ≤ 2 ^ 24) :
    ∃ y : Nat, orderKey (i2f k) = some (signedUnits false y) ∧ signedUnits false (unitsOf y) = k * 2 ^ 149 := by
  obtain ⟨y, hy, hu⟩ := i2f_nat hk
  exact ⟨y, congrArg orderKey hy, congrArg Nat.cast hu⟩

/-- `≥` between a finite value and an integer, by units. -/
theorem fge_i2f (neg : Bool) (x : Fin 0x7F800000) {k : Nat} (hk : k ≤ 2 ^ 24) :
    fge (.fin neg x) (i2f k) = decide (k * 2 ^ 149 ≤ signedUnits neg (unitsOf x)) := by
  obtain ⟨y, hkey, hu⟩ := orderKey_i2f hk
  rw [fge_of_key rfl hkey, ← hu, decide_eq_decide, ← not_lt, ← not_lt, signedUnits_unitsOf_lt_iff]

/-- `>` between a finite value and an integer, by units. -/
theorem fgt_i2f (neg : Bool) (x : Fin 0x7F800000) {k : Nat} (hk : k ≤ 2 ^ 24) :
    fgt (.fin neg x) (i2f k) = decide (k * 2 ^ 149 < signedUnits neg (unitsOf x)) := by
  obtain ⟨y, hkey, hu⟩ := orderKey_i2f hk
  rw [fgt_of_key rfl hkey, ← hu, decide_eq_decide, signedUnits_unitsOf_lt_iff]

/-- A word is an integer that `i2f` gives exactly. -/
theorem half_le (w : Half) : w.toNat ≤ 2 ^ 24 := w.isLt.le.trans (by decide)

theorem clampCvt_nan (lo hi : Half) : clampCvt .nan lo hi = lo := rfl

theorem fge_inf_fin (neg : Bool) (x : Fin 0x7F800000) : fge (.inf neg) (.fin false x) = !neg := by
  have hx := x.isLt
  rw [fge_of_key rfl rfl]
  cases neg
  · exact decide_eq_true (show (x : Int) ≤ 0x7F800000 by omega)
  · exact decide_eq_false (show ¬ (x : Int) ≤ -0x7F800000 by omega)

theorem fgt_inf_fin (neg : Bool) (x : Fin 0x7F800000) : fgt (.inf neg) (.fin false x) = !neg := by
  have hx := x.isLt
  rw [fgt_of_key rfl rfl]
  cases neg
  · exact decide_eq_true (show (x : Int) < 0x7F800000 by omega)
  · exact decide_eq_false (show ¬ (x : Int) < -0x7F800000 by omega)

/-- Every word is between the infinities. -/
theorem clampCvt_inf (neg : Bool) (lo hi : Half) : clampCvt (.inf neg) lo hi = if neg then lo else hi := by
  obtain ⟨x, hlo, -⟩ := i2f_nat (half_le lo)
  obtain ⟨y, hhi, -⟩ := i2f_nat (half_le hi)
  rw [clampCvt, hlo, hhi, fge_inf_fin, fgt_inf_fin]
  cases neg <;> rfl

/-- Where the signed units are not below 0, `trunc` is their quotient whatever the sign: only -0 has the other sign. -/
theorem truncNat_fin {neg : Bool} {x : Fin 0x7F800000} (h : 0 ≤ signedUnits neg (unitsOf x)) :
    truncNat (.fin neg x) = unitsOf x / 2 ^ 149 := by
  cases neg
  · rfl
  · have h0 : unitsOf x = 0 := by simpa [signedUnits] using h
    rw [h0]
    rfl

/-- CLAMPCVT of a finite value, by its units. -/
theorem clampCvt_fin (neg : Bool) (x : Fin 0x7F800000) (lo hi : Half) : clampCvt (.fin neg x) lo hi =
    if signedUnits neg (unitsOf x) < lo.toNat * 2 ^ 149 then lo
    else if hi.toNat * 2 ^ 149 < signedUnits neg (unitsOf x) then hi
    else BitVec.ofNat 16 (unitsOf x / 2 ^ 149) := by
  rw [clampCvt, fge_i2f neg x (half_le lo), fgt_i2f neg x (half_le hi)]
  by_cases hlo : signedUnits neg (unitsOf x) < lo.toNat * 2 ^ 149
  · rw [if_pos hlo, decide_eq_false (not_le.2 hlo), if_pos (by decide)]
  · rw [if_neg hlo, decide_eq_true (not_lt.1 hlo), if_neg (by decide), truncNat_fin (by omega)]
    simp only [decide_eq_true_eq]

/-- CLAMPCVT of a finite value as one formula: its floor, clamped. -/
theorem clampCvt_fin_toNat (neg : Bool) (x : Fin 0x7F800000) {lo hi : Half} (h : lo.toNat ≤ hi.toNat) :
    (clampCvt (.fin neg x) lo hi).toNat =
      max lo.toNat (min hi.toNat (signedUnits neg (unitsOf x) / 2 ^ 149).toNat) := by
  have hle : signedUnits neg (unitsOf x) ≤ unitsOf x := by
    unfold signedUnits
    split <;> omega
  have hnonneg : 0 ≤ signedUnits neg (unitsOf x) → signedUnits neg (unitsOf x) = unitsOf x := by
    unfold signedUnits
    split <;> omega
  have hhi := hi.isLt
  rw [clampCvt_fin]
  split_ifs
  · omega
  · omega
  · rw [BitVec.toNat_ofNat]
    omega

/-- CLAMPCVT gives a word of the range, whatever the value. -/
theorem clampCvt_bounds (v : F32) {lo hi : Half} (h : lo.toNat ≤ hi.toNat) :
    lo.toNat ≤ (clampCvt v lo hi).toNat ∧ (clampCvt v lo hi).toNat ≤ hi.toNat := by
  cases v with
  | nan => exact ⟨le_rfl, h⟩
  | inf neg =>
    rw [clampCvt_inf]
    cases neg
    · exact ⟨h, le_rfl⟩
    · exact ⟨le_rfl, h⟩
  | fin neg x =>
    rw [clampCvt_fin_toNat neg x h]
    exact ⟨le_max_left _ _, max_le h (min_le_left _ _)⟩

/-! ## The shaping commands succeed (45_binners R205; 46_bands R228) -/

/-- With its operands legal and its range admitted a shaping command succeeds. -/
theorem exec_shaper_of_ready {i : Instr} (hi : isShaper i = true) {s : State}
    (h : s.status.tblValid = true ∧ s.status.specValid = true ∧ AddrOk (accessLen s.cfg i) s ∧
      Admitted (accessLen s.cfg i) s ∧ MinVal s ≤ MaxVal s) : exec i s = .next (succeed (perform i s)) := by
  obtain ⟨htbl, hspec, haddr, hadm, hrange⟩ := h
  have haddr := checkAddr_ok_iff.2 haddr
  have hrange : minVal s ≤ maxVal s := by rwa [BitVec.le_def, minVal_toNat, maxVal_toNat]
  cases i
  case linear | log | bands =>
    exact exec_of_ok (check_ok_iff.2 (.inr ⟨htbl, nofun, fun _ => hspec, haddr, fun _ => hrange⟩))
      (accessible_iff.2 hadm)
  all_goals cases hi

/-! ## LINEAR and LOG (45_binners R200 to R206) -/

/-- The loop of 00_scope R15 over a range of indices. -/
theorem foldl_fadd_eq_accumulate (start : F32) (term : Nat → F32) (n : Nat) :
    (List.range n).foldl (fun acc j => fadd acc (term j)) start = accumulate start term n := by
  induction n with
  | zero => rfl
  | succ n ih => rw [List.range_succ, List.foldl_append, ih, accumulate, List.foldl_cons, List.foldl_nil]

theorem average_eq (s : State) (k : Nat) : average s.cfg s.spec k = groupAverage s k := by
  rw [average, foldl_fadd_eq_accumulate fZero fun j => specEntry s.spec (k * s.cfg.m + j)]
  rfl

/-- The shaped value of element `k` of LINEAR and of LOG. -/
def shapedValue (compress : Bool) : State → Nat → F32 := if compress then compressedAverage else groupAverage

theorem shaped_eq (compress : Bool) (s : State) (k : Nat) :
    shaped compress s.cfg s.spec k = shapedValue compress s k := by
  cases compress
  · exact average_eq s k
  · rw [shaped, average_eq]
    rfl

theorem minVal_eq (s : State) : minVal s = BitVec.ofNat 16 (MinVal s) := by
  rw [← minVal_toNat, BitVec.ofNat_toNat, BitVec.setWidth_eq]

theorem maxVal_eq (s : State) : maxVal s = BitVec.ofNat 16 (MaxVal s) := by
  rw [← maxVal_toNat, BitVec.ofNat_toNat, BitVec.setWidth_eq]

/-- The blended word, written out on the fields of CUR_RANGE (45_binners R203). -/
theorem blendWord_eq (s : State) (y : F32) (prev : Half) : blendWord y prev (minVal s) (maxVal s) =
    clampCvt
      (fmul (fadd (i2f prev.toNat) (fdiv (fmul y (i2f (MaxVal s))) (.ofBits 0x42200000#32))) (.ofBits 0x3F000000#32))
      (BitVec.ofNat 16 (MinVal s)) (BitVec.ofNat 16 (MaxVal s)) := by
  rw [blendWord, maxVal_toNat, ← minVal_eq, ← maxVal_eq]
  rfl

/-- The success of the shaper leaves every element blended from its old word (45_binners R203, R204). -/
theorem shaped_succeed_performShape (compress : Bool) {s : State} (hm : Memory.wf s.mem = true) :
    Shaped (shapedValue compress s) s (succeed (performShape compress s)) := by
  refine ⟨⟨rfl, rfl⟩, fun k hk => (read16_shapeMem compress hm hk).trans ?_⟩
  rw [shaped_eq]
  exact blendWord_eq s _ _

theorem exec_linear_of_ready {s : State} (h : BinnerReady s) (hm : Memory.wf s.mem = true) :
    ∃ t, exec .linear s = .next t ∧ Shaped (groupAverage s) s t :=
  ⟨_, exec_shaper_of_ready rfl h, shaped_succeed_performShape false hm⟩

theorem exec_log_of_ready {s : State} (h : BinnerReady s) (hm : Memory.wf s.mem = true) :
    ∃ t, exec .log s = .next t ∧ Shaped (compressedAverage s) s t :=
  ⟨_, exec_shaper_of_ready rfl h, shaped_succeed_performShape true hm⟩

/-- Settles O24: both commands succeed, and the shaper's loop rewrites each element from its own old word. -/
theorem binnersComplete : Obligations.BinnersComplete := by
  unfold Obligations.BinnersComplete
  exact fun s h hm => ⟨exec_linear_of_ready h hm, exec_log_of_ready h hm⟩

theorem word_of_shaped {y : Nat → F32} {s t : State} (h : Shaped y s t) {k : Nat} (hk : k < s.cfg.fftOutN) :
    Memory.read16 t.mem (s.curAddr.toNat + 2 * k) =
      blendWord (y k) (Memory.read16 s.mem (s.curAddr.toNat + 2 * k)) (minVal s) (maxVal s) := by
  obtain ⟨-, hwords⟩ := h
  rw [hwords k hk, blendWord_eq]

/-- What both binners leave, each with its own shaped value. -/
theorem exec_binner_of_ready {s : State} (h : BinnerReady s) (hm : Memory.wf s.mem = true) {i : Instr}
    (hi : i ∈ [Instr.linear, .log]) :
    ∃ compress t, exec i s = .next t ∧ Shaped (shapedValue compress s) s t := by
  rcases List.mem_pair.1 hi with rfl | rfl
  · exact ⟨false, exec_linear_of_ready h hm⟩
  · exact ⟨true, exec_log_of_ready h hm⟩

/-! ## The range of the output words (45_binners R207; 46_bands R229) -/

/-- The word lies in [minVal, maxVal]. -/
def InRange (s : State) (w : Half) : Prop := MinVal s ≤ w.toNat ∧ w.toNat ≤ MaxVal s

theorem clampCvt_inRange {s : State} (h : MinVal s ≤ MaxVal s) (v : F32) :
    InRange s (clampCvt v (minVal s) (maxVal s)) := by
  rw [← minVal_toNat, ← maxVal_toNat] at h
  unfold InRange
  rw [← minVal_toNat, ← maxVal_toNat]
  exact clampCvt_bounds v h

theorem inRange_of_shaped {y : Nat → F32} {s t : State} (hs : Shaped y s t) (h : MinVal s ≤ MaxVal s) {k : Nat}
    (hk : k < s.cfg.fftOutN) : InRange s (Memory.read16 t.mem (s.curAddr.toNat + 2 * k)) := by
  rw [word_of_shaped hs hk]
  exact clampCvt_inRange h _

/-- After `n` rounds of the band loop the first `n` words are in range: a round stores one word of the range and leaves
the words before it alone. The counters need not be there. -/
theorem bandLoop_inRange {s : State} (hm : Memory.wf s.mem = true) (h : MinVal s ≤ MaxVal s) {k : Nat}
    (hk : k < s.cfg.bandN) : InRange s (Memory.read16 (bandLoop s).mem (baseAddr s + 2 * k)) := by
  have hloop := foldl_range_induction (n := s.cfg.bandN) (f := bandStep s) (a := { mem := s.mem, delay := s.delay })
    (P := fun n x => Memory.wf x.mem = true ∧ ∀ j < n, InRange s (Memory.read16 x.mem (baseAddr s + 2 * j)))
    ⟨hm, nofun⟩ fun n _ x hx => ?_
  · obtain ⟨-, hwords⟩ := hloop
    exact hwords k hk
  · obtain ⟨hwf, hbefore⟩ := hx
    refine ⟨Memory.wf_write16 hwf _ _, fun j hj => ?_⟩
    rw [bandStep]
    rcases Nat.lt_succ_iff_lt_or_eq.1 hj with hj | rfl
    · rw [Memory.read16_write16_ne _ _ (by omega)]
      exact hbefore j hj
    · rw [Memory.read16_write16_same hwf]
      exact clampCvt_inRange h _

/-- Settles O39: CLAMPCVT by the places of the order, and every word written is its result on [minVal, maxVal]. -/
theorem outputWordsWithinRange : Obligations.OutputWordsWithinRange := by
  unfold Obligations.OutputWordsWithinRange
  refine ⟨fun lo hi _ => ⟨clampCvt_nan lo hi, clampCvt_inf true lo hi, clampCvt_inf false lo hi,
    fun neg x => clampCvt_fin neg x lo hi⟩, fun s hm => ⟨fun h i hi => ?_, fun h => ?_⟩⟩
  · have ⟨_, _, _, _, hrange⟩ := h
    obtain ⟨_, t, ht, hshaped⟩ := exec_binner_of_ready h hm hi
    exact ⟨t, ht, fun _ => inRange_of_shaped hshaped hrange⟩
  · have ⟨_, _, _, _, hrange⟩ := h
    exact ⟨_, exec_shaper_of_ready (i := .bands) rfl h, fun _ => bandLoop_inRange hm hrange⟩

/-! ## The zero spectrum (45_binners R208) -/

theorem unitsOf_zero : unitsOf (0 : Fin 0x7F800000) = 0 := unitsOf_eq_zero.2 rfl

theorem roundUnits_zero (neg : Bool) {d : Nat} (hd : 0 < d) : roundUnits neg 0 d = .fin neg 0 := by
  have h := roundUnits_exact neg 0 hd
  rwa [unitsOf_zero, Nat.zero_mul] at h

/-- +0 plus a zero of either sign is +0. -/
theorem fadd_fZero_zero (a : Bool) : fadd fZero (.fin a 0) = fZero := by
  cases a <;> decide

/-- A sum of zeros of either sign, from +0, is +0. -/
theorem accumulate_zeros {term : Nat → F32} {n : Nat} (h : ∀ j < n, ∃ a, term j = .fin a 0) :
    accumulate fZero term n = fZero := by
  induction n with
  | zero => rfl
  | succ n ih =>
    obtain ⟨a, ha⟩ := h n n.lt_succ_self
    rw [accumulate, ih fun j hj => h j (hj.trans n.lt_succ_self), ha, fadd_fZero_zero]

theorem fZero_eq : fZero = .fin false 0 := by decide

/-- +0 divided by a positive integer. -/
theorem fdiv_fZero_i2f {k : Nat} (h0 : 0 < k) (hk : k ≤ 2 ^ 24) : fdiv fZero (i2f k) = fZero := by
  obtain ⟨x, hx, hu⟩ := i2f_nat hk
  have hpos : 0 < unitsOf x := hu ▸ Nat.mul_pos h0 (Nat.two_pow_pos 149)
  have hx0 : x.val ≠ 0 := fun h => hpos.ne' (unitsOf_eq_zero.2 h)
  rw [hx, fZero_eq, fdiv, if_neg hx0, unitsOf_zero, Nat.zero_mul]
  exact roundUnits_zero false hpos

/-- +0 times an integer that is not negative. -/
theorem fmul_fZero_i2f {k : Nat} (hk : k ≤ 2 ^ 24) : fmul fZero (i2f k) = fZero := by
  obtain ⟨x, hx, -⟩ := i2f_nat hk
  rw [hx, fZero_eq, fmul, unitsOf_zero, Nat.zero_mul]
  exact roundUnits_zero false (Nat.two_pow_pos 149)

/-- A group has at least one bin, and the groups below FFT_OUT_N lie within SPEC (45_binners R200). -/
theorem groupSize_bounds {s : State} (hw : configWf s.cfg = true) {k : Nat} (hk : k < s.cfg.fftOutN) :
    0 < groupSize s ∧ groupSize s ≤ 2 ^ 24 ∧ k * groupSize s + groupSize s ≤ s.cfg.n := by
  obtain ⟨-, hlog, -, hout, -⟩ := configWf_iff.1 hw
  have hn : s.cfg.n ≤ 2 ^ 15 := Nat.pow_le_pow_right two_pos hlog
  refine ⟨Nat.div_pos hout (by omega), (Nat.div_le_self _ _).trans (by omega), ?_⟩
  calc k * groupSize s + groupSize s = (k + 1) * groupSize s := (Nat.succ_mul _ _).symm
    _ ≤ s.cfg.fftOutN * groupSize s := Nat.mul_le_mul_right _ hk
    _ ≤ s.cfg.n := Nat.mul_div_le _ _

theorem groupAverage_of_zeroSpectrum {s : State} (hw : configWf s.cfg = true) (hz : ZeroSpectrum s) {k : Nat}
    (hk : k < s.cfg.fftOutN) : groupAverage s k = fZero := by
  obtain ⟨hpos, hle, hend⟩ := groupSize_bounds hw hk
  have hsum : accumulate fZero (fun j => specEntry s.spec (k * groupSize s + j)) (groupSize s) = fZero :=
    accumulate_zeros fun j hj => hz _ (by omega)
  exact (congrArg (fdiv · _) hsum).trans (fdiv_fZero_i2f hpos hle)

/-- LOG compresses +0 to +0, as the logarithm of 1 is exact in every unit (00_scope R14 P4). -/
theorem logCompress_fZero (u : Log10Unit) : logCompress u fZero = fZero := by
  have hone : fadd fOne fZero = i2f ((10 : Int) ^ 0) := by decide
  rw [logCompress, hone, log10_ten_pow u (Nat.zero_le 10)]
  decide

theorem shapedValue_of_zeroSpectrum (compress : Bool) {s : State} (hw : configWf s.cfg = true) (hz : ZeroSpectrum s)
    {k : Nat} (hk : k < s.cfg.fftOutN) : shapedValue compress s k = fZero := by
  have havg := groupAverage_of_zeroSpectrum hw hz hk
  cases compress
  · exact havg
  · exact (congrArg (logCompress s.cfg.log10) havg).trans (logCompress_fZero _)

/-- Blending with +0 halves the previous word exactly, before the clamping. -/
theorem blend_fZero (p hi : Half) : ∃ x : Fin 0x7F800000,
    fmul (fadd (i2f p.toNat) (fdiv (fmul fZero (i2f hi.toNat)) fForty)) fHalf = .fin false x ∧
      unitsOf x = p.toNat * 2 ^ 148 := by
  have hforty : fdiv fZero fForty = i2f (0 : Nat) := by decide
  have hp : ((p.toNat : Nat) : Int).natAbs ≤ 2 ^ 24 := half_le p
  obtain ⟨x, hx, hu⟩ := fmul_i2f_fHalf hp
  rw [fmul_fZero_i2f (half_le hi), hforty, fadd_i2f hp (by decide), Nat.cast_zero, Int.add_zero]
  exact ⟨x, hx.trans (by simp), hu⟩

/-- An element whose shaped value is +0 is halved and clamped. -/
theorem blendWord_fZero {p lo hi : Half} (h : lo.toNat ≤ hi.toNat) :
    (blendWord fZero p lo hi).toNat = max lo.toNat (min hi.toNat (p.toNat / 2)) := by
  obtain ⟨x, hx, hu⟩ := blend_fZero p hi
  rw [blendWord, hx, clampCvt_fin_toNat false x h, hu]
  have hhalf : (signedUnits false (p.toNat * 2 ^ 148) / 2 ^ 149).toNat = p.toNat / 2 := by
    simp only [signedUnits, Bool.false_eq_true, if_false]
    omega
  rw [hhalf]

theorem halved_of_shaped {y : Nat → F32} {s t : State} (hs : Shaped y s t) (h : MinVal s ≤ MaxVal s) {k : Nat}
    (hk : k < s.cfg.fftOutN) (hy : y k = fZero) :
    (Memory.read16 t.mem (s.curAddr.toNat + 2 * k)).toNat =
      clampNat s ((Memory.read16 s.mem (s.curAddr.toNat + 2 * k)).toNat / 2) := by
  rw [← minVal_toNat, ← maxVal_toNat] at h
  rw [word_of_shaped hs hk, hy, clampNat, ← minVal_toNat, ← maxVal_toNat]
  exact blendWord_fZero h

/-- Settles O41: every shaped value is +0, so that only half of the previous word is left to be clamped. -/
theorem zeroSpectrumHalvesWords : Obligations.ZeroSpectrumHalvesWords := by
  unfold Obligations.ZeroSpectrumHalvesWords
  intro s hw h hz hm i hi
  have ⟨_, _, _, _, hrange⟩ := h
  obtain ⟨compress, t, ht, hshaped⟩ := exec_binner_of_ready h hm hi
  exact ⟨t, ht, fun _ hk => halved_of_shaped hshaped hrange hk (shapedValue_of_zeroSpectrum compress hw hz hk)⟩

end Sys2Proof.Machine
end

section
/-! PROOFS. The statements on 46_bands: the bins of a band (R220, R221), the completion of BANDS (R222 to R228), the
decay without a snap (R230), the zero spectrum (R231) and the persistence of DELAY (R233). -/

namespace Sys2Proof.Machine

open Sys2Proof.Claims

/-! ## The boundaries on the scale of the units (41_tables R124, R125) -/

/-- N is at most 2^15 (00_scope R7). -/
theorem n_le {c : Config} (hc : configWf c = true) : c.n ≤ 2 ^ 15 := by
  obtain ⟨-, hlog, -⟩ := configWf_iff.1 hc
  exact Nat.pow_le_pow_right two_pos hlog

/-- A boundary of a well-formed configuration is finite and of positive sign. -/
theorem romBnd_eq_fin {c : Config} (hc : configWf c = true) {b : Nat} (hb : b ≤ c.bandN) :
    ∃ x : Fin 0x7F800000, romBnd c b = .fin false x ∧ unitsOf x = boundaryUnits c b := by
  obtain ⟨x, hx, -⟩ := boundaryIsNearest c hc b hb
  exact ⟨x, hx, by rw [boundaryUnits, hx]⟩

/-- The rounded boundaries increase (00_scope R9). -/
theorem boundaryUnits_lt_succ {c : Config} (hc : configWf c = true) {b : Nat} (hb : b < c.bandN) :
    boundaryUnits c b < boundaryUnits c (b + 1) := by
  obtain ⟨-, -, -, -, -, -, -, hinc⟩ := configWf_iff.1 hc
  have hgt := List.all_eq_true.1 hinc b (List.mem_range.2 hb)
  obtain ⟨x, hx, hux⟩ := romBnd_eq_fin hc hb.le
  obtain ⟨y, hy, huy⟩ := romBnd_eq_fin hc (Nat.succ_le_of_lt hb)
  rw [hx, hy, fgt_of_key rfl rfl, decide_eq_true_eq] at hgt
  rw [← hux, ← huy]
  exact unitsOf_strictMono (Int.ofNat_lt.1 hgt)

theorem boundaryUnits_mono {c : Config} (hc : configWf c = true) {i j : Nat} (hij : i ≤ j) (hj : j ≤ c.bandN) :
    boundaryUnits c i ≤ boundaryUnits c j := by
  induction j, hij using Nat.le_induction with
  | base => exact le_rfl
  | succ j _ ih => exact (ih (by omega)).trans (boundaryUnits_lt_succ hc hj).le

/-- Every boundary lies between the first and the last, 0.5 and N - 0.5. -/
theorem boundaryUnits_bounds {c : Config} (hc : configWf c = true) {b : Nat} (hb : b ≤ c.bandN) :
    2 ^ 148 ≤ boundaryUnits c b ∧ boundaryUnits c b ≤ (2 * c.n - 1) * 2 ^ 148 := by
  obtain ⟨hfirst, x, hlast, hx⟩ := boundaryEndsAreExact c hc
  have h0 : boundaryUnits c 0 = 2 ^ 148 := by
    rw [boundaryUnits, hfirst]
    decide
  have hN : boundaryUnits c c.bandN = (2 * c.n - 1) * 2 ^ 148 := by rw [boundaryUnits, hlast, ← hx]
  exact ⟨h0 ▸ boundaryUnits_mono hc (Nat.zero_le b) hb, hN ▸ boundaryUnits_mono hc hb le_rfl⟩

/-! ## The bins of a band (46_bands R220, R221) -/

/-- Rounding a magnitude of positive sign gives no value of negative sign. -/
theorem roundUnits_false_ne_fin_true (n d : Nat) (x : Fin 0x7F800000) : roundUnits false n d ≠ .fin true x := by
  unfold roundUnits F32.ofMag
  split <;> simp

/-- No boundary has a negative sign, whatever the configuration. -/
theorem romBnd_ne_fin_true (c : Config) (b : Nat) (x : Fin 0x7F800000) : romBnd c b ≠ .fin true x := by
  unfold romBnd boundary
  split <;> exact roundUnits_false_ne_fin_true _ _ x

theorem bandLow_eq (c : Config) (b : Nat) : bandLow c b = bandFirst c b := by
  have hneg := romBnd_ne_fin_true c b
  rw [bandLow, bandFirst, boundaryUnits]
  match h : romBnd c b with
  | .fin false _ => rfl
  | .inf _ | .nan => exact (Nat.div_eq_of_lt (by norm_num)).symm
  | .fin true x => exact absurd h (hneg x)

theorem bandHigh_eq (c : Config) (b : Nat) : bandHigh c b = bandLast c b := by
  have hneg := romBnd_ne_fin_true c (b + 1)
  rw [bandHigh, bandLast, boundaryUnits]
  match h : romBnd c (b + 1) with
  | .fin false _ => rfl
  | .inf _ | .nan => exact (Nat.zero_div _).symm
  | .fin true x => exact absurd h (hneg x)

/-- The bins `a-1` and `c` of a band lie within SPEC, and are one bin where the band is narrow. -/
theorem band_bins_bounds {c : Config} (hc : configWf c = true) {b : Nat} (hb : b < c.bandN) :
    1 ≤ bandFirst c b ∧ bandLast c b + 1 ≤ c.n ∧ bandFirst c b ≤ bandLast c b + 1 := by
  obtain ⟨hlow, -⟩ := boundaryUnits_bounds hc hb.le
  obtain ⟨-, hhigh⟩ := boundaryUnits_bounds (b := b + 1) hc hb
  have hlt := boundaryUnits_lt_succ hc hb
  have hn := two_le_n hc
  unfold bandFirst bandLast
  omega

/-- Settles O53: the first boundary is 0.5, the last N - 0.5, and they increase. -/
theorem bandBinsWithinSpectrum : Obligations.BandBinsWithinSpectrum := by
  unfold Obligations.BandBinsWithinSpectrum
  intro c hc b hb
  obtain ⟨hfirst, hlast, hle⟩ := band_bins_bounds hc hb
  rw [bandLow_eq, bandHigh_eq]
  exact ⟨hfirst, Nat.le_sub_one_of_lt hlast, fun hnarrow => by omega⟩

/-! ## The completion of BANDS (46_bands R222 to R228) -/

theorem bandSum_eq (s : State) (b : Nat) : bandSum s.cfg s.spec b = bandSumOf s b := by
  unfold bandSum bandSumOf narrowSum wideSum wideFirst wideLast
  rw [bandLow_eq, bandHigh_eq, foldl_fadd_eq_accumulate _ fun k => specEntry s.spec (bandFirst s.cfg b + k)]

theorem bandVal_eq (s : State) (b : Nat) : bandVal s.cfg s.spec b = bandValOf s b := by
  rw [bandVal, bandSum_eq, fTwenty, fTwelve, bandValOf]

/-- A band that snaps writes its new value and reloads its counter (46_bands R225, R226). -/
theorem band_of_snap {v : F32} {dec : Nat} (h : fgt v (i2f dec) = true) (c : Config) (delay lo hi : Half) :
    bandWord v dec lo hi = clampCvt v lo hi ∧ nextDelay c delay (snaps v dec) = c.bandDelay := by
  rw [bandWord, snaps, h, if_pos rfl, nextDelay, if_pos rfl]
  exact ⟨rfl, rfl⟩

/-- A band that does not snap writes its decayed value and counts down (46_bands R225, R226). -/
theorem band_of_no_snap {v : F32} {dec : Nat} (h : fgt v (i2f dec) = false) (c : Config) (delay lo hi : Half) :
    bandWord v dec lo hi = clampCvt (i2f dec) lo hi ∧
      nextDelay c delay (snaps v dec) = BitVec.ofNat 16 (delay.toNat - 1) := by
  rw [bandWord, snaps, h, if_neg Bool.false_ne_true, nextDelay, if_neg Bool.false_ne_true]
  exact ⟨rfl, rfl⟩

/-- The success of the band loop leaves every band stepped from its old word and counter. -/
theorem banded_succeed_performBands {s : State} (hm : Memory.wf s.mem = true) (hl : s.delay.length = s.cfg.bandN) :
    Banded s (succeed (performBands s)) := by
  refine ⟨⟨rfl, rfl⟩, fun b hb => ?_⟩
  obtain ⟨-, -, hloop⟩ := bandLoop_get hm hl.ge
  obtain ⟨hword, hcounter⟩ := hloop b
  rw [if_pos hb, bandVal_eq] at hword hcounter
  rw [← minVal_eq, ← maxVal_eq]
  split
  case isTrue hsnap =>
    obtain ⟨hw, hd⟩ := band_of_snap hsnap s.cfg (delayEntry s.delay b) (minVal s) (maxVal s)
    exact ⟨hword.trans hw, hcounter.trans (congrArg some hd)⟩
  case isFalse hsnap =>
    obtain ⟨hw, hd⟩ := band_of_no_snap (Bool.eq_false_of_not_eq_true hsnap) s.cfg (delayEntry s.delay b) (minVal s)
      (maxVal s)
    exact ⟨hword.trans hw, hcounter.trans (congrArg some hd)⟩

theorem exec_bands_of_ready {s : State} (h : BandsReady s) (hm : Memory.wf s.mem = true)
    (hl : s.delay.length = s.cfg.bandN) : ∃ t, exec .bands s = .next t ∧ Banded s t :=
  ⟨_, exec_shaper_of_ready rfl h, banded_succeed_performBands hm hl⟩

/-- Settles O25: BANDS succeeds, and its loop steps each band from its own old word and counter. -/
theorem bandsCompletes : Obligations.BandsCompletes := by
  unfold Obligations.BandsCompletes
  exact fun s h hm hl => exec_bands_of_ready h hm hl

/-! ## Decay without a snap (46_bands R224, R230) -/

/-- CLAMPCVT of an integer is its clamping. -/
theorem clampCvt_i2f_toNat {k : Nat} (hk : k ≤ 2 ^ 24) {lo hi : Half} (h : lo.toNat ≤ hi.toNat) :
    (clampCvt (i2f k) lo hi).toNat = max lo.toNat (min hi.toNat k) := by
  obtain ⟨x, hx, hu⟩ := i2f_nat hk
  have hfloor : (signedUnits false (k * 2 ^ 149) / 2 ^ 149).toNat = k := by
    simp only [signedUnits, Bool.false_eq_true, if_false]
    omega
  rw [hx, clampCvt_fin_toNat false x h, hu, hfloor]

/-- Decay never raises a word: the amount is floored at 0. -/
theorem decayed_le (c : Config) (delay cur : Half) : decayed c delay cur ≤ cur.toNat := Nat.sub_le _ _

/-- Settles O40: without a snap the word is the decayed value clamped, and the decayed value is at most the old word. -/
theorem bandWithoutSnapNeverRises : Obligations.BandWithoutSnapNeverRises := by
  unfold Obligations.BandWithoutSnapNeverRises
  intro c v delay cur lo hi hrange hsnap
  have hdec := decayed_le c delay cur
  obtain ⟨hword, -⟩ := band_of_no_snap hsnap c delay lo hi
  rw [hword, clampCvt_i2f_toNat (hdec.trans (half_le cur)) hrange]
  exact ⟨rfl, fun hlo _ => max_le hlo ((min_le_right _ _).trans hdec)⟩

/-! ## The zero spectrum (46_bands R231) -/

/-- A zero of either sign. -/
def IsZero (v : F32) : Prop := ∃ a, v = .fin a 0

theorem isZero_fadd {x y : F32} (hx : IsZero x) (hy : IsZero y) : IsZero (fadd x y) := by
  obtain ⟨a, rfl⟩ := hx
  obtain ⟨b, rfl⟩ := hy
  refine ⟨a && b, ?_⟩
  cases a <;> cases b <;> decide

theorem isZero_accumulate {start : F32} {term : Nat → F32} {n : Nat} (hs : IsZero start)
    (ht : ∀ j < n, IsZero (term j)) : IsZero (accumulate start term n) := by
  induction n with
  | zero => exact hs
  | succ n ih => exact isZero_fadd (ih fun j hj => ht j (hj.trans n.lt_succ_self)) (ht n n.lt_succ_self)

/-- A zero times a finite value. -/
theorem isZero_fmul {x y : F32} (hx : IsZero x) (hy : ∃ b z, y = .fin b z) : IsZero (fmul x y) := by
  obtain ⟨a, rfl⟩ := hx
  obtain ⟨b, z, rfl⟩ := hy
  rw [fmul, unitsOf_zero, Nat.zero_mul]
  exact ⟨_, roundUnits_zero _ (Nat.two_pow_pos 149)⟩

/-- A zero divided by a positive integer. -/
theorem isZero_fdiv_i2f {x : F32} (hx : IsZero x) {k : Nat} (h0 : 0 < k) (hk : k ≤ 2 ^ 24) :
    IsZero (fdiv x (i2f k)) := by
  obtain ⟨a, rfl⟩ := hx
  obtain ⟨y, hy, hu⟩ := i2f_nat hk
  have hpos : 0 < unitsOf y := hu ▸ Nat.mul_pos h0 (Nat.two_pow_pos 149)
  rw [hy, fdiv, if_neg (mt unitsOf_eq_zero.2 hpos.ne'), unitsOf_zero, Nat.zero_mul]
  exact ⟨_, roundUnits_zero _ hpos⟩

/-- A finite value of positive sign and less than 2^252 units, far below the overflow threshold. -/
def IsModest (v : F32) : Prop := ∃ x : Fin 0x7F800000, v = .fin false x ∧ unitsOf x < 2 ^ 252

theorem isModest_i2f {k : Nat} (hk : k ≤ 2 ^ 24) : IsModest (i2f k) := by
  obtain ⟨x, hx, hu⟩ := i2f_nat hk
  exact ⟨x, hx, by omega⟩

theorem isModest_romBnd {c : Config} (hc : configWf c = true) {b : Nat} (hb : b ≤ c.bandN) : IsModest (romBnd c b) := by
  obtain ⟨x, hx, hu⟩ := romBnd_eq_fin hc hb
  have hle := (boundaryUnits_bounds hc hb).2
  have hn := n_le hc
  exact ⟨x, hx, by omega⟩

/-- The difference of two such values does not overflow. -/
theorem fsub_finite {x y : F32} (hx : IsModest x) (hy : IsModest y) : ∃ b z, fsub x y = .fin b z := by
  obtain ⟨x, rfl, hux⟩ := hx
  obtain ⟨y, rfl, huy⟩ := hy
  rw [fsub, fneg, fadd, faddFinite]
  split
  case isTrue => exact ⟨_, _, rfl⟩
  case isFalse =>
    have hlt : (signedUnits false (unitsOf x) + signedUnits true (unitsOf y)).natAbs < 2 ^ 252 := by
      simp only [signedUnits, Bool.false_eq_true, if_false, if_true]
      omega
    exact ⟨_, roundUnits_eq_fin _ one_pos (lt_overflow one_pos hlt)⟩

theorem bandSumOf_of_zeroSpectrum {s : State} (hw : configWf s.cfg = true) (hz : ZeroSpectrum s) {b : Nat}
    (hb : b < s.cfg.bandN) : IsZero (bandSumOf s b) := by
  obtain ⟨hfirst, hlast, hle⟩ := band_bins_bounds hw hb
  have hn := n_le hw
  have hlo := isModest_romBnd hw hb.le
  have hhi := isModest_romBnd hw (Nat.succ_le_of_lt hb)
  have hlastBin : IsZero (specEntry s.spec (bandLast s.cfg b)) := hz _ hlast
  unfold bandSumOf
  split
  case isTrue => exact isZero_fmul hlastBin (fsub_finite hhi hlo)
  case isFalse =>
    refine isZero_fadd (isZero_accumulate ?_ fun j hj => hz _ (by omega)) ?_
    · exact isZero_fmul (hz _ (by omega)) (fsub_finite (isModest_i2f (by omega)) hlo)
    · exact isZero_fmul hlastBin (fsub_finite hhi (isModest_i2f (by omega)))

/-- Every band of a zero spectrum has the value -infinity, by the logarithm of a zero (00_scope R14 P1). -/
theorem bandValOf_of_zeroSpectrum {s : State} (hw : configWf s.cfg = true) (hz : ZeroSpectrum s) {b : Nat}
    (hb : b < s.cfg.bandN) : bandValOf s b = .inf true := by
  obtain ⟨-, -, -, -, hband, hbandn, -⟩ := configWf_iff.1 hw
  have hn := n_le hw
  obtain ⟨x, hx, -⟩ := i2f_nat (show s.cfg.bandN ≤ 2 ^ 24 by omega)
  have htwelve : F32.ofBits 0x41400000#32 = i2f (12 : Nat) := by decide
  have hquot : IsZero
      (fdiv (fdiv (fmul (bandSumOf s b) (i2f s.cfg.bandN)) (i2f s.cfg.n)) (.ofBits 0x41400000#32)) := by
    rw [htwelve]
    exact isZero_fdiv_i2f
      (isZero_fdiv_i2f (isZero_fmul (bandSumOf_of_zeroSpectrum hw hz hb) ⟨_, _, hx⟩) (by omega) (by omega))
      (by omega) (by omega)
  obtain ⟨a, ha⟩ := hquot
  rw [bandValOf, ha, log10_zero]
  decide

/-- Minus infinity does not snap. -/
theorem fgt_neg_inf_i2f {k : Nat} (hk : k ≤ 2 ^ 24) : fgt (.inf true) (i2f k) = false := by
  obtain ⟨x, hx, -⟩ := i2f_nat hk
  rw [hx, fgt_inf_fin, Bool.not_true]

/-- The decayed value of a band is one that `i2f` gives exactly. -/
theorem decayedWord_le (s : State) (b : Nat) : decayedWord s b ≤ 2 ^ 24 := (Nat.sub_le _ _).trans (half_le _)

/-- Settles O42: every value is -infinity, which is above no decayed word. -/
theorem zeroSpectrumNeverSnaps : Obligations.ZeroSpectrumNeverSnaps := by
  unfold Obligations.ZeroSpectrumNeverSnaps
  intro s hw h hz hm hl
  have ⟨_, _, _, _, hrange⟩ := h
  rw [← minVal_toNat, ← maxVal_toNat] at hrange
  obtain ⟨t, ht, -, hbands⟩ := exec_bands_of_ready h hm hl
  refine ⟨t, ht, fun b hb => ?_⟩
  have hdec := decayedWord_le s b
  have hband := hbands b hb
  rw [bandValOf_of_zeroSpectrum hw hz hb, fgt_neg_inf_i2f hdec, if_neg Bool.false_ne_true, ← minVal_eq,
    ← maxVal_eq] at hband
  obtain ⟨hword, hcounter⟩ := hband
  refine ⟨?_, hcounter⟩
  rw [hword, clampCvt_i2f_toNat hdec hrange, clampNat, minVal_toNat, maxVal_toNat]

/-! ## The persistence of DELAY (46_bands R233) -/

/-- Settles O35: of the steps other than a reset only the completion of BANDS changes DELAY, as its frame says. -/
theorem delayChangedOnlyByBandsOrReset : Obligations.DelayChangedOnlyByBandsOrReset := by
  unfold Obligations.DelayChangedOnlyByBandsOrReset
  intro s t hstep hne
  cases stepKind_of_step hstep with
  | idle ts ht => subst ht; exact absurd rfl hne
  | completion i ts hc he =>
    obtain ⟨-, -, hdelay⟩ := internalMemoryFrame i _ t he
    obtain rfl : i = .bands := by
      by_contra hi
      exact hne (hdelay hi)
    exact .inl hc
  | reserved k ts ht => subst ht; exact absurd rfl hne
  | host ts hk => exact absurd hk.delay hne
  | reset ts hr _ => exact .inr hr

end Sys2Proof.Machine
end

section
/-! PROOFS. The statements on 60_exceptions: the checks in their order (R251) and the error completion (R252). -/

namespace Sys2Proof.Machine

/-- Settles O16: the check of the model is the list of R251, row by row. -/
theorem checksInOrder : Obligations.ChecksInOrder := by
  unfold Obligations.ChecksInOrder
  exact check_eq_checkList

/-- Settles O17: both kinds of error completion are `raiseErr` with their code. -/
theorem failedCheckIsAnErrorCompletion : Obligations.FailedCheckIsAnErrorCompletion := by
  unfold Obligations.FailedCheckIsAnErrorCompletion
  refine ⟨fun i s hc => ?_, fun s k hw hm hp hd => ?_⟩
  · rw [← check_eq_checkList] at hc ⊢
    exact exec_of_err hc
  · rw [step_of_reserved hw hm hp hd]
    cases k <;> rfl

end Sys2Proof.Machine
end

section
/-! PROOFS. The statements on 70_reset_and_hazards: what a reset leaves (R280), also of a command in flight (R281), the
host kept off the range in flight (R291), and the clean start (R300). -/

namespace Sys2Proof.Machine

open Sys2Proof.Claims

/-! ## The state after a reset (70_reset_and_hazards R280) -/

theorem inv_resetWith (c : Config) : Inv (State.resetWith c) where
  tdLength := List.length_replicate
  specLength := List.length_replicate
  delayLength := List.length_replicate
  tdWritten hv := nomatch hv
  specWritten hv := nomatch hv
  delayBound d hd := by rw [List.eq_of_mem_replicate hd]; exact Nat.zero_le _
  errSticky he := absurd rfl he
  memWf := rfl
  memInSpace := rfl

/-- Settles O30: no valid flag and no code is set, every counter is 0, and no byte of host memory is listed. -/
theorem invariantAtReset : Obligations.InvariantAtReset := by
  unfold Obligations.InvariantAtReset
  exact ⟨inv_resetWith, inv_resetWith _⟩

theorem step_of_reset {s : State} {ts : List Turn} (hw : configWf s.cfg = true) (h : s.turns = .host .reset :: ts) :
    step s = .next (resetFsu (s.setTurns ts)) := step_of_host hw h

theorem statusWord_resetFsu (s : State) : statusWord (resetFsu s) = 0#32 :=
  calc statusWord (resetFsu s)
    _ = statusWord State.reset := rfl
    _ = 0#32 := by decide

theorem memAfterReset_of_idle {s : State} (h : s.phase = .idle) : memAfterReset s = s.mem := by
  rw [memAfterReset, h]

/-- Settles O55: the step is the reset, whose fields are those of R280. -/
theorem resetState : Obligations.ResetState := by
  unfold Obligations.ResetState
  intro s ts hw h
  exact ⟨_, step_of_reset hw h, rfl, statusWord_resetFsu _, rfl, rfl, rfl, rfl, rfl, rfl, rfl, rfl,
    memAfterReset_of_idle (s := s.setTurns ts)⟩

/-! ## A reset while a command is in flight (70_reset_and_hazards R281) -/

theorem memAfterReset_of_reserved {s : State} {k : ReservedKind} (hp : s.phase = .busy)
    (hd : decode s.curCmd = .reserved k) : memAfterReset s = s.mem := by
  rw [memAfterReset, hp, hd]

theorem memAfterReset_of_command {s : State} {i : Instr} (hp : s.phase = .busy) (hd : decode s.curCmd = .cmd i) :
    memAfterReset s = abandonedMem i s := by
  rw [memAfterReset, hp, hd]

/-- The abandoning of a command does not read the moves to come. -/
theorem abandonedMem_setTurns (i : Instr) (s : State) (ts : List Turn) :
    abandonedMem i (s.setTurns ts) = abandonedMem i s := by
  cases i <;> rfl

/-- A command that is no shaper, or whose check fails, leaves all of host memory when it is abandoned. -/
theorem abandonedMem_eq_mem {i : Instr} {s : State} (h : checkList i s ≠ .ok ∨ i ∉ [Instr.linear, .log, .bands]) :
    abandonedMem i s = s.mem := by
  refine if_neg fun hboth => ?_
  rw [Bool.and_eq_true, decide_eq_true_eq, check_eq_checkList, isShaper_iff] at hboth
  obtain ⟨hshaper, hok⟩ := hboth
  rcases h with hc | hi
  · exact hc hok
  · exact hi (by simpa using hshaper)

/-- Every 16-bit element from CUR_ADDR on is as in host memory before the reset or as in `written`. -/
def OldOrWritten (s : State) (written m : Memory) : Prop :=
  ∀ k, Memory.read16 m (baseAddr s + 2 * k) = Memory.read16 s.mem (baseAddr s + 2 * k) ∨
    Memory.read16 m (baseAddr s + 2 * k) = Memory.read16 written (baseAddr s + 2 * k)

theorem oldOrWritten_self (s : State) (written : Memory) : OldOrWritten s written s.mem := fun _ => .inl rfl

/-- A draw replaces at most its own element, by its value in `written`. -/
theorem OldOrWritten.abandonElement {s : State} {written m : Memory} (hwf : Memory.wf m = true)
    (h : OldOrWritten s written m) (j : Nat) : OldOrWritten s written (abandonElement s written m j) := by
  intro k
  unfold Machine.abandonElement
  split
  · by_cases hk : k = j
    · subst hk
      exact .inr (Memory.read16_write16_same hwf _ _)
    · rw [Memory.read16_write16_ne _ _ (by omega)]
      exact h k
  · exact h k

theorem wf_abandonElement {s : State} {written m : Memory} (hwf : Memory.wf m = true) (j : Nat) :
    Memory.wf (abandonElement s written m j) = true := by
  unfold abandonElement
  split
  · exact Memory.wf_write16 hwf _ _
  · exact hwf

theorem oldOrWritten_abandonedMem (i : Instr) {s : State} (hwf : Memory.wf s.mem = true) :
    OldOrWritten s (perform i s).mem (abandonedMem i s) := by
  unfold abandonedMem
  split
  · obtain ⟨-, h⟩ := foldl_keeps (P := fun m => Memory.wf m = true ∧ OldOrWritten s (perform i s).mem m)
      (fun m j ⟨hm, hold⟩ => ⟨wf_abandonElement hm j, hold.abandonElement hm j⟩) _ _ ⟨hwf, oldOrWritten_self s _⟩
    exact h
  · exact oldOrWritten_self s _

/-- A draw stores to no byte but the two of its element. -/
theorem read_abandonElement_ne (s : State) (written m : Memory) {j a : Nat} (h0 : a ≠ baseAddr s + 2 * j)
    (h1 : a ≠ baseAddr s + 2 * j + 1) :
    Memory.read (abandonElement s written m j) a = Memory.read m a := by
  unfold abandonElement
  split
  · exact Memory.read_write16_ne _ _ h0 h1
  · rfl

theorem read_abandonedMem_outside (i : Instr) (s : State) {a : Nat}
    (h : a < baseAddr s ∨ baseAddr s + accessLen s.cfg i ≤ a) :
    Memory.read (abandonedMem i s) a = Memory.read s.mem a := by
  unfold abandonedMem
  split
  · exact foldl_range_keeps (P := fun m => Memory.read m a = Memory.read s.mem a)
      (fun m j hj hm => (read_abandonElement_ne s _ m (by omega) (by omega)).trans hm) rfl
  · rfl

/-- Settles O56: the step is the reset, and the draws choose each element of the abandoned command. -/
theorem resetAbandonsTheCommand : Obligations.ResetAbandonsTheCommand := by
  unfold Obligations.ResetAbandonsTheCommand
  rintro s hw ⟨ts, hts⟩ hp hwf
  refine ⟨_, step_of_reset hw hts, rfl, statusWord_resetFsu _,
    fun k hd => memAfterReset_of_reserved (s := s.setTurns ts) hp hd, fun i hd => ?_⟩
  have hmem : (resetFsu (s.setTurns ts)).mem = abandonedMem i s :=
    (memAfterReset_of_command (s := s.setTurns ts) hp hd).trans (abandonedMem_setTurns i s ts)
  rw [hmem]
  exact ⟨abandonedMem_eq_mem, fun k _ => oldOrWritten_abandonedMem i hwf k, fun a => read_abandonedMem_outside i s⟩

/-! ## The host kept off the range in flight (70_reset_and_hazards R291; log 14) -/

/-- A host access to host memory with a byte in the range in flight is refused. -/
theorem busAccess_of_inFlight {s : State} {width : AccessWidth} {a k : Nat}
    (hm : InHostMemory a (widthBytes width) s) (hk : k < widthBytes width) (hf : inFlight s (a + k) = true)
    (onReg : Reg → State) (onMem : State) : busAccess s width a onReg onMem = .refused .rangeInFlight := by
  have htouch : touchesInFlight s a (widthBytes width) = true := List.any_eq_true.2 ⟨k, List.mem_range.2 hk, hf⟩
  rw [busAccess, touchesRegBlock_eq_false hm, htouch, if_neg Bool.false_ne_true, if_neg (not_lt.2 hm.1), if_pos rfl]

/-- Settles O58: such an access is to host memory, and it touches the range in flight. -/
theorem hostKeptOffTheRangeInFlight : Obligations.HostKeptOffTheRangeInFlight := by
  unfold Obligations.HostKeptOffTheRangeInFlight
  intro s i width a w k hw hp hd hk hlo hhi hspace hoff
  have hf : inFlight s (a.toNat + k) = true := inFlight_iff.2 ⟨hp, i, hd, hlo, hhi⟩
  constructor
  · rintro ⟨ts, hts⟩
    rw [step_of_host hw hts, hostTurn, hostRead]
    exact busAccess_of_inFlight (s := s.setTurns ts) ⟨hspace, hoff⟩ hk hf _ _
  · rintro ⟨ts, hts⟩
    rw [step_of_host hw hts, hostTurn, hostWrite]
    exact busAccess_of_inFlight (s := s.setTurns ts) ⟨hspace, hoff⟩ hk hf _ _

/-! ## The clean start (70_reset_and_hazards R300) -/

/-- The state that INIT leaves, issued and completed right after a reset. -/
def initialised (c : Config) : State := succeed (perform .init (issue 1#32 (State.resetWith c)))

theorem step_resetWith_init {c : Config} (hw : configWf c = true) :
    step ((State.resetWith c).withFetchWord 32 0x00000001) = .next (initialised c) := by
  have hd : decode 1#32 = .cmd .init := by decide
  exact (step_of_placeCommand (s := State.resetWith c) hw hd).trans (exec_of_no_tables rfl _)

/-- Of the fields of STATUS only LASTOP and TBL_VALID are not 0, and neither depends on the configuration. -/
theorem statusWord_initialised (c : Config) : statusWord (initialised c) = 0x00010002#32 :=
  calc statusWord (initialised c)
    _ = statusWord (initialised .common) := rfl
    _ = 0x00010002#32 := by decide

/-- Settles O57: the placed word is INIT, which always succeeds and sets TBL_VALID alone. -/
theorem initAfterResetIsClean : Obligations.InitAfterResetIsClean := by
  unfold Obligations.InitAfterResetIsClean
  intro c hw
  refine ⟨_, step_resetWith_init hw, ?_⟩
  simp only [fsuClean, Bool.and_eq_true, decide_eq_true_eq, and_assoc]
  exact ⟨rfl, statusWord_initialised c, rfl, rfl, rfl⟩

end Sys2Proof.Machine
end
